-- ==== Sys2Proof/Word.lean ====
section
/-! DEFINITION. The word types of the ByteView codec core: bytes of SRC, FB and STR, and the 32-bit words
that are pixels, palette entries and command words (00_scope.md R6, R11). -/

namespace Sys2Proof

/-- A byte of the stream, the framebuffer or the string (R6: byte width 8). -/
abbrev Byte := BitVec 8

/-- A 32-bit ARGB pixel or palette entry (R11). -/
abbrev Pixel := BitVec 32

/-- A 32-bit register or command word (R20, R70). -/
abbrev Word := BitVec 32

/-- A 64-bit register (R20). -/
abbrev Wide := BitVec 64

end Sys2Proof
end

