-- ==== Sys2Proof/Config.lean ====
section
/-! DEFINITION. The implementation parameters of the block (00_scope.md R6) and the free values: what an
unwritten memory element reads as for the host (20_memory.md R56; 93 U10), and whether a host write to STR is
stored (R50, R63). -/

namespace Sys2Proof

/-- The reading of the 32 bpp output-length rule (R6, R101; 92 D12). -/
inductive LenMode where
  | exact | floor
deriving DecidableEq, Repr

/-- The parameters an implementation fixes (R6). A machine carries them in its state and no step changes
them (log 3). -/
structure Config where
  /-- SRC_CAP, capacity of SRC in bytes -/
  srcCap : Nat
  /-- PIX_CAP, capacity of PIX in words -/
  pixCap : Nat
  /-- FB_CAP, capacity of FB in bytes -/
  fbCap : Nat
  /-- P32_LEN_MODE -/
  lenMode : LenMode
deriving DecidableEq, Repr

/-- PAL_CAP, fixed (R6). -/
def palCap : Nat := 65536

/-- STR_CAP, fixed (R6). -/
def strCap : Nat := 32

/-- The constraints of R6 on the parameters. -/
abbrev Config.valid (c : Config) : Prop :=
  c.srcCap < 2 ^ 61 ∧ 1 ≤ c.pixCap ∧ c.pixCap < 2 ^ 64 ∧ 4 ≤ c.fbCap

/-- The parameters of `State.reset`: the largest SRC and PIX that R6 admits, an FB as large as a 64-bit address
reaches, and the spec's own default reading `exact`. DESIGN CHOICE, unsafe: R6 leaves the capacities open; no
statement rests on these numbers (log 3). -/
def Config.default : Config :=
  { srcCap := 2 ^ 61 - 1, pixCap := 2 ^ 64 - 1, fbCap := 2 ^ 64, lenMode := .exact }

/-- The n-th free byte: what a host read of an unwritten SRC, FB or STR element gives (R56, U10; log 5). No proof
can evaluate it. -/
opaque Config.unwrittenByte : Nat → BitVec 8

/-- The n-th free word: what a host read of an unwritten PAL or PIX element gives (R56, U10; log 5). -/
opaque Config.unwrittenWord : Nat → BitVec 32

/-- Whether the n-th free choice stores: a host write to an STR element within the capacity is stored or has no effect,
and no rule says which (R50, R62, R63, R80; log 8). No proof can evaluate it. -/
opaque Config.hostStoresStr : Nat → Bool

end Sys2Proof
end

