-- ==== Sys2Proof/Syntax.lean ====
section
/-! DEFINITION. The commands of the block as syntax: one constructor of `Instr` for each row of
spec/opcode_table.json (30_encoding.md R70 to R76). -/

namespace Sys2Proof

/-- The bit-depth schemes in the order of R73; `invalid` is the sentinel "no scheme selected". -/
inductive Scheme where
  | oneBpp | twoBpp | fourBpp | eightBpp | sixteenBpp | twentyFourBpp | thirtyTwoBpp | invalid
deriving DecidableEq, Repr

/-- The two command ports (R71). -/
inductive Port where
  | cmd | mcmd
deriving DecidableEq, Repr

/-- One constructor per row of the opcode table. ENCODE.INVALID and MAP.INVALID have two rows each: SCH = 7,
and SCH = 8 to 15 with the code kept as the operand (R73, R76). -/
inductive Instr where
  | encode1bpp | encode2bpp | encode4bpp | encode8bpp | encode16bpp | encode24bpp | encode32bpp
  | encodeInvalid
  | encodeInvalidSch (sch : BitVec 4)
  | size
  | assemble
  | map1bpp | map2bpp | map4bpp | map8bpp | map16bpp | map24bpp | map32bpp
  | mapInvalid
  | mapInvalidSch (sch : BitVec 4)
  | format
deriving DecidableEq, Repr

end Sys2Proof
end

