-- ==== Sys2Proof/WellFormed.lean ====
section
/-! DEFINITION. Which terms of `Instr` are commands: the scheme code carried by the second INVALID row of each
family is one of 8 to 15 (30_encoding.md R73; opcode_table.json, mask 0xFFFFFF8F). -/

namespace Sys2Proof

/-- A scheme code of the row "SCH = 8 to 15" (R73). -/
def highSchemeCode (sch : BitVec 4) : Bool := decide (8 ≤ sch.toNat)

/-- The check of a command term: only the two rows with an operand can fail it. -/
def Instr.wellFormed : Instr → Bool
  | .encodeInvalidSch sch => highSchemeCode sch
  | .mapInvalidSch sch => highSchemeCode sch
  | .encode1bpp | .encode2bpp | .encode4bpp | .encode8bpp | .encode16bpp | .encode24bpp | .encode32bpp
  | .encodeInvalid | .size | .assemble
  | .map1bpp | .map2bpp | .map4bpp | .map8bpp | .map16bpp | .map24bpp | .map32bpp
  | .mapInvalid | .format => true

end Sys2Proof
end

