-- ==== Sys2Proof/Decode.lean ====
section
/-! DEFINITION. Decoding of command words, total and rejecting by name, and the encoder
(30_encoding.md R70 to R76), with the listing and assembly of mnemonics (R79). -/

namespace Sys2Proof

/-- Why a word is IllegalCommand: the four conditions of R74. -/
inductive IllegalWord where
  /-- RSV = w[31:8] is not 0 (R74.1) -/
  | reservedNonzero
  /-- OP is 0 or 6 to 15 (R74.2) -/
  | illegalOpcode
  /-- OP belongs to the other port (R74.3) -/
  | wrongPort
  /-- SIZE, ASSEMBLE or FORMAT with SCH not 0 (R74.4) -/
  | schemeNonzero
deriving DecidableEq, Repr

/-- OP = w[3:0] (R70). -/
def opField (w : Word) : BitVec 4 := w.extractLsb' 0 4

/-- SCH = w[7:4] (R70). -/
def schField (w : Word) : BitVec 4 := w.extractLsb' 4 4

/-- RSV = w[31:8] (R70). -/
def rsvField (w : Word) : BitVec 24 := w.extractLsb' 8 24

/-- The command word with the given SCH and OP and RSV = 0 (R70). -/
def commandWord (sch op : BitVec 4) : Word := (0#24 ++ sch) ++ op

/-- The ENCODE row of a scheme code (R73, R76). -/
def encodeOfCode (sch : BitVec 4) : Instr :=
  match sch.toNat with
  | 0 => .encode1bpp
  | 1 => .encode2bpp
  | 2 => .encode4bpp
  | 3 => .encode8bpp
  | 4 => .encode16bpp
  | 5 => .encode24bpp
  | 6 => .encode32bpp
  | 7 => .encodeInvalid
  | _ => .encodeInvalidSch sch

/-- The MAP row of a scheme code (R73, R76). -/
def mapOfCode (sch : BitVec 4) : Instr :=
  match sch.toNat with
  | 0 => .map1bpp
  | 1 => .map2bpp
  | 2 => .map4bpp
  | 3 => .map8bpp
  | 4 => .map16bpp
  | 5 => .map24bpp
  | 6 => .map32bpp
  | 7 => .mapInvalid
  | _ => .mapInvalidSch sch

/-- SIZE, ASSEMBLE and FORMAT carry no scheme: SCH must be 0 (R74.4). -/
def withoutScheme (sch : BitVec 4) (i : Instr) : Except IllegalWord Instr :=
  if sch = 0 then .ok i else .error .schemeNonzero

/-- The command of an opcode and scheme code on a port, once RSV is known to be 0 (R71, R72, R75). -/
def decodeFields (port : Port) (op sch : BitVec 4) : Except IllegalWord Instr :=
  match op.toNat, port with
  | 1, .cmd => .ok (encodeOfCode sch)
  | 2, .cmd => withoutScheme sch .size
  | 3, .cmd => withoutScheme sch .assemble
  | 4, .mcmd => .ok (mapOfCode sch)
  | 5, .mcmd => withoutScheme sch .format
  | 1, .mcmd | 2, .mcmd | 3, .mcmd | 4, .cmd | 5, .cmd => .error .wrongPort
  | _, _ => .error .illegalOpcode

/-- Decode is total: every word on either port is one command of the table or IllegalCommand (R75). -/
def decode (port : Port) (w : Word) : Except IllegalWord Instr :=
  if rsvField w = 0 then decodeFields port (opField w) (schField w) else .error .reservedNonzero

/-- The port that takes a command (R71). -/
def Instr.port : Instr → Port
  | .encode1bpp | .encode2bpp | .encode4bpp | .encode8bpp | .encode16bpp | .encode24bpp | .encode32bpp
  | .encodeInvalid | .encodeInvalidSch _ | .size | .assemble => .cmd
  | .map1bpp | .map2bpp | .map4bpp | .map8bpp | .map16bpp | .map24bpp | .map32bpp
  | .mapInvalid | .mapInvalidSch _ | .format => .mcmd

/-- The opcode of a command (R72). -/
def Instr.opcode : Instr → BitVec 4
  | .encode1bpp | .encode2bpp | .encode4bpp | .encode8bpp | .encode16bpp | .encode24bpp | .encode32bpp
  | .encodeInvalid | .encodeInvalidSch _ => 1
  | .size => 2
  | .assemble => 3
  | .map1bpp | .map2bpp | .map4bpp | .map8bpp | .map16bpp | .map24bpp | .map32bpp
  | .mapInvalid | .mapInvalidSch _ => 4
  | .format => 5

/-- The scheme code of a command, 0 where it has none (R73, R74). -/
def Instr.schemeCode : Instr → BitVec 4
  | .encode1bpp | .map1bpp => 0
  | .encode2bpp | .map2bpp => 1
  | .encode4bpp | .map4bpp => 2
  | .encode8bpp | .map8bpp => 3
  | .encode16bpp | .map16bpp => 4
  | .encode24bpp | .map24bpp => 5
  | .encode32bpp | .map32bpp => 6
  | .encodeInvalid | .mapInvalid => 7
  | .encodeInvalidSch sch | .mapInvalidSch sch => sch
  | .size | .assemble | .format => 0

/-- The word of a command (R76). -/
def encode (i : Instr) : Word := commandWord i.schemeCode i.opcode

/-- The scheme named by a code: 0 to 6 in order, every code from 7 to 15 is Invalid (R73). -/
def schemeOfCode (sch : BitVec 4) : Scheme :=
  match sch.toNat with
  | 0 => .oneBpp
  | 1 => .twoBpp
  | 2 => .fourBpp
  | 3 => .eightBpp
  | 4 => .sixteenBpp
  | 5 => .twentyFourBpp
  | 6 => .thirtyTwoBpp
  | _ => .invalid

/-- A word as decoded on the port that takes it: a legal word is legal on one port only (R71, R76). -/
def decodeAnyPort (w : Word) : Option Instr :=
  match decode .cmd w with
  | .ok i => some i
  | .error _ => (decode .mcmd w).toOption

/-- The instruction the decoder reads from the `nbits` bits of `w`; a command word has 32 bits (R78), the bits
above `nbits` are 0. -/
def decodeTableWord (nbits w : Nat) : Option Instr :=
  if w % 2 ^ nbits < 2 ^ 32 then decodeAnyPort (BitVec.ofNat 32 (w % 2 ^ nbits)) else none

/-- The mnemonic of a command (R79): `OPERATION` or `OPERATION.SCHEME`. -/
def Instr.mnemonic : Instr → String
  | .encode1bpp => "ENCODE.1BPP"
  | .encode2bpp => "ENCODE.2BPP"
  | .encode4bpp => "ENCODE.4BPP"
  | .encode8bpp => "ENCODE.8BPP"
  | .encode16bpp => "ENCODE.16BPP"
  | .encode24bpp => "ENCODE.24BPP"
  | .encode32bpp => "ENCODE.32BPP"
  | .encodeInvalid | .encodeInvalidSch _ => "ENCODE.INVALID"
  | .size => "SIZE"
  | .assemble => "ASSEMBLE"
  | .map1bpp => "MAP.1BPP"
  | .map2bpp => "MAP.2BPP"
  | .map4bpp => "MAP.4BPP"
  | .map8bpp => "MAP.8BPP"
  | .map16bpp => "MAP.16BPP"
  | .map24bpp => "MAP.24BPP"
  | .map32bpp => "MAP.32BPP"
  | .mapInvalid | .mapInvalidSch _ => "MAP.INVALID"
  | .format => "FORMAT"

/-- What a disassembler prints for a word (R79). -/
inductive Listing where
  /-- a mnemonic alone -/
  | command (mnemonic : String)
  /-- a mnemonic followed by `sch=<n>`, for SCH in 8 to 15 -/
  | withCode (mnemonic : String) (sch : Nat)
  /-- `.word 0x<8 hex digits>`, for an IllegalCommand word -/
  | word (w : Word)
deriving DecidableEq, Repr

/-- The disassembly of a word on a port (R79). -/
def disassemble (port : Port) (w : Word) : Listing :=
  match decode port w with
  | .error _ => .word w
  | .ok (.encodeInvalidSch sch) => .withCode (Instr.mnemonic (.encodeInvalidSch sch)) sch.toNat
  | .ok (.mapInvalidSch sch) => .withCode (Instr.mnemonic (.mapInvalidSch sch)) sch.toNat
  | .ok i => .command i.mnemonic

/-- One upper-case hexadecimal digit; the case is the model's choice (log 21). -/
def hexChar (d : Nat) : Char :=
  if d < 10 then Char.ofNat (0x30 + d) else Char.ofNat (0x41 + (d - 10))

/-- The eight hexadecimal digits of a word, the most significant first. -/
def hexWord (w : Word) : String :=
  String.ofList ([28, 24, 20, 16, 12, 8, 4, 0].map fun lo => hexChar (w.extractLsb' lo 4).toNat)

/-- The printed text of a listing (R79). -/
def Listing.text : Listing → String
  | .command m => m
  | .withCode m n => m ++ " sch=" ++ toString n
  | .word w => ".word 0x" ++ hexWord w

/-- The commands an assembler knows: INVALID is assembled as SCH = 7 (R79). -/
def assemblerTable : List Instr :=
  [.encode1bpp, .encode2bpp, .encode4bpp, .encode8bpp, .encode16bpp, .encode24bpp, .encode32bpp,
   .encodeInvalid, .size, .assemble,
   .map1bpp, .map2bpp, .map4bpp, .map8bpp, .map16bpp, .map24bpp, .map32bpp, .mapInvalid, .format]

/-- The word `enc(M)` of a mnemonic (R79, R80). -/
def assembleMnemonic (m : String) : Option Word :=
  (assemblerTable.find? fun i => i.mnemonic == m).map encode

end Sys2Proof
end

