-- ==== Sys2Proof/Machine/State.lean ====
section
/-! DEFINITION. The state of the block and its host: every register of 10_state.md R20, the engine latches of
R33, the five memory spaces of 20_memory.md R50, the parameters of 00_scope.md R6, and the host's pending
accesses. Plain data throughout. -/

namespace Sys2Proof.Machine

/-- The memory spaces of byte elements (R50). -/
inductive ByteSpace where
  | src | fb | str
deriving DecidableEq, Repr

/-- The memory spaces of 32-bit word elements (R50). -/
inductive WordSpace where
  | pal | pix
deriving DecidableEq, Repr

/-- A memory space: the elements written since reset, by rising index. An unlisted index is unwritten and has
no value (R56, R231). For byte spaces an entry is a `Host.Cell`. -/
abbrev Memory (w : Nat) := List (Nat × BitVec w)

/-- The fields of STATUS (R23); the bits not listed there read 0 and have no storage (log 11). -/
structure Status where
  busy : Bool
  done : Bool
  cancelled : Bool
  ovr : Bool
  err : BitVec 4
  lastOp : BitVec 4
deriving DecidableEq, Repr

/-- The fields of MSTATUS (R32); the other bits read 0 (log 11). -/
structure MStatus where
  err : BitVec 4
  lastOp : BitVec 4
deriving DecidableEq, Repr

/-- CTRL: its one writable bit, CANCEL (R29); bits 31:1 read 0 (log 11). -/
structure Ctrl where
  cancel : Bool
deriving DecidableEq, Repr

/-- Which long-running command is in progress (R33). -/
inductive Phase where
  | idle | encoding | assembling
deriving DecidableEq, Repr

/-- The six schemes with a packing rule, the values `eng.sch` can take (R33, R110 to R115; log 11). -/
inductive Packing where
  | one | two | four | eight | sixteen | thirtyTwo
deriving DecidableEq, Repr

/-- The hidden engine state (R33), with the names of that rule. -/
structure Engine where
  phase : Phase
  sch : Packing
  L : BitVec 64
  PL : BitVec 32
  G : Nat
  ppg : Nat
  i : Nat
  out : Nat
  n : BitVec 64
  w : BitVec 64
  h : BitVec 64
  stride : Nat
  r : Nat
deriving DecidableEq, Repr

/-- One atomic move of the environment (R5, R62, R65, R233): a host access, the engine's turn, one poll of the
host's `wait` loop (R80), or reset. Register numbers are those of R20. -/
inductive Event where
  | writeReg (n : BitVec 5) (v : BitVec 64)
  | readReg (n : BitVec 5)
  | writeByte (sp : ByteSpace) (a : Nat) (v : BitVec 8)
  | readByte (sp : ByteSpace) (a : Nat)
  | writeWord (sp : WordSpace) (a : Nat) (v : BitVec 32)
  | readWord (sp : WordSpace) (a : Nat)
  | engine
  | poll
  | reset
deriving DecidableEq, Repr

/-- The named registers of the register file (R20); numbers 19 to 31 are unused and have no name. -/
inductive RegName where
  | cmd | status | ctrl | progress | srcLen | palLen | pixCount | width | height | errInfo
  | mcmd | mstatus | mapW | mapH | mapX | mapY | mapOffset | mapBit | strLen
deriving DecidableEq, Repr

/-- The error kinds of R201. -/
inductive ErrorKind where
  | invalidScheme | paletteTooSmall | unsupportedScheme | illegalCommand | zeroPixelCount
  | coordOutOfRange | capacityExceeded | addressOverflow
deriving DecidableEq, Repr

/-- How an engine command ends without an error (R206). -/
inductive Ending where
  | normal | cancelled
deriving DecidableEq, Repr

/-- The whole state: parameters, registers (R20), engine latches (R33), memories (R50) and the model's own
fields `agenda`, `readData` and `freeCount` (log 1, 5, 7). -/
structure State where
  cfg : Config
  cmd : BitVec 32
  status : Status
  ctrl : Ctrl
  progress : BitVec 32
  srcLen : BitVec 64
  palLen : BitVec 32
  pixCount : BitVec 64
  width : BitVec 64
  height : BitVec 64
  errInfo : BitVec 64
  mcmd : BitVec 32
  mstatus : MStatus
  mapW : BitVec 32
  mapH : BitVec 32
  mapX : BitVec 32
  mapY : BitVec 32
  mapOffset : BitVec 64
  mapBit : BitVec 32
  strLen : BitVec 32
  eng : Engine
  src : Memory 8
  pal : Memory 32
  pix : Memory 32
  fb : Memory 8
  str : Memory 8
  agenda : List Event
  readData : BitVec 64
  freeCount : Nat
deriving DecidableEq, Repr

/-- Why a step stops. All three are the spec's own treatment of an engine read of an element that no agent has
written since reset (R56, U9): safe, since the hardware goes on with some value. -/
inductive Fault where
  /-- An ENCODE group step read `SRC[a]`, never written (R56, U9). Safe. -/
  | unwrittenSrc (a : Nat)
  /-- An ENCODE group step read `PAL[a]`, never written (R56, U9). Safe. -/
  | unwrittenPal (a : Nat)
  /-- An ASSEMBLE row step read `PIX[a]`, never written (R56, R142, U9). Safe. -/
  | unwrittenPix (a : Nat)
deriving DecidableEq, Repr

/-- What the model gives no meaning: nothing, so no step of this model is refused. -/
inductive Refusal where
  /-- An instruction whose meaning is not written yet; no arm of this model raises it. Safe. -/
  | notModelled (mnemonic : String)
deriving DecidableEq, Repr

/-- STATUS = 0 (R230). -/
def Status.reset : Status :=
  { busy := false, done := false, cancelled := false, ovr := false, err := 0, lastOp := 0 }

/-- Idle, with every other latch 0 (R33, R232). -/
def Engine.reset : Engine :=
  { phase := .idle, sch := .one, L := 0, PL := 0, G := 0, ppg := 0, i := 0, out := 0,
    n := 0, w := 0, h := 0, stride := 0, r := 0 }

/-- The machine of parameters `c` right after reset: every register 0 (R230), every memory element unwritten
(R231), the engine idle with every latch 0 (R232), nothing pending (log 1). -/
def State.resetWith (c : Config) : State :=
  { cfg := c
    cmd := 0, status := Status.reset, ctrl := { cancel := false }, progress := 0
    srcLen := 0, palLen := 0, pixCount := 0, width := 0, height := 0, errInfo := 0
    mcmd := 0, mstatus := { err := 0, lastOp := 0 }
    mapW := 0, mapH := 0, mapX := 0, mapY := 0, mapOffset := 0, mapBit := 0, strLen := 0
    eng := Engine.reset
    src := [], pal := [], pix := [], fb := [], str := []
    agenda := [], readData := 0, freeCount := 0 }

/-- The machine right after reset, with the parameters of `Config.default` (log 3). -/
def State.reset : State := State.resetWith Config.default

end Sys2Proof.Machine
end

