-- ==== Sys2Proof/Machine/Flags.lean ====
section
/-! DEFINITION. The status bits of the block: the words STATUS, MSTATUS and CTRL read as, the error codes, and how
each event of a command changes the STATUS fields (10_state.md R23 to R29, R32; 60_exceptions.md R200 to R206).
The block has no other flags (R36). -/

namespace Sys2Proof.Machine

/-- The error codes (R201). -/
def ErrorKind.code : ErrorKind → BitVec 4
  | .invalidScheme => 1
  | .paletteTooSmall => 2
  | .unsupportedScheme => 3
  | .illegalCommand => 4
  | .zeroPixelCount => 5
  | .coordOutOfRange => 6
  | .capacityExceeded => 7
  | .addressOverflow => 8

/-- STATUS as the host reads it: BUSY bit 0, DONE 1, CANCELLED 2, OVR 3, ERR 7:4, LAST_OP 11:8, else 0 (R23). -/
def Status.word (st : Status) : Word :=
  0#20 ++ st.lastOp ++ st.err ++
    BitVec.ofBool st.ovr ++ BitVec.ofBool st.cancelled ++ BitVec.ofBool st.done ++ BitVec.ofBool st.busy

/-- MSTATUS as the host reads it: ERR 7:4, LAST_OP 11:8, else 0 (R32). -/
def MStatus.word (st : MStatus) : Word := 0#20 ++ st.lastOp ++ st.err ++ 0#4

/-- CTRL as the host reads it: CANCEL bit 0, bits 31:1 read 0 (R29). -/
def Ctrl.word (c : Ctrl) : Word := 0#31 ++ BitVec.ofBool c.cancel

/-- CTRL after a host write: bit 0 is taken, a write to bits 31:1 is ignored (R29). -/
def Ctrl.ofWord (w : Word) : Ctrl := { cancel := w.getLsbD 0 }

/-- Acceptance of an engine command with opcode field `op`: DONE, CANCELLED, OVR and ERR cleared, LAST_OP written
(R200). -/
def Status.accepted (op : BitVec 4) (st : Status) : Status :=
  { st with done := false, cancelled := false, ovr := false, err := 0, lastOp := op }

/-- A CMD write while BUSY = 1: OVR set, nothing else (R27, R200). -/
def Status.overrun (st : Status) : Status := { st with ovr := true }

/-- The start of a long-running command: BUSY set (R100, R140). -/
def Status.started (st : Status) : Status := { st with busy := true }

/-- `raise E`: ERR = code, DONE = 1, BUSY = 0 (R203). -/
def Status.raised (e : ErrorKind) (st : Status) : Status :=
  { st with err := e.code, done := true, busy := false }

/-- `complete(kind)`: CANCELLED set if cancelled, DONE = 1, BUSY = 0 (R206). -/
def Status.completed (k : Ending) (st : Status) : Status :=
  { st with cancelled := match k with | .cancelled => true | .normal => st.cancelled
            done := true, busy := false }

/-- A mapper command with opcode field `op`: ERR cleared, LAST_OP written (R200). -/
def MStatus.accepted (op : BitVec 4) : MStatus := { err := 0, lastOp := op }

/-- `mraise E`: ERR = code, nothing else (R204). -/
def MStatus.raised (e : ErrorKind) (st : MStatus) : MStatus := { st with err := e.code }

end Sys2Proof.Machine
end

