-- ==== Sys2Proof/Machine/Ops.lean ====
section
/-! DEFINITION. The named operations over memory and registers: element reads and writes (20_memory.md R55), the
register file (10_state.md R20, R21), command acceptance (60_exceptions.md R200), and the block's exceptions, the
error raise of R203 and R204 with the normal end of R206. There is no return from an error (R207): the next
acceptance clears it. -/

namespace Sys2Proof.Machine

/-! ### Memory elements -/

/-- The canonical form of a memory: indices strictly rising. No value is a default, so no entry is redundant. -/
abbrev Memory.wf {w : Nat} (m : Memory w) : Prop := m.Pairwise fun x y => x.1 < y.1

/-- Element `a`, `none` if no agent has written it since reset (R55, R56). This is what an unlisted index reads
as. -/
def Memory.read {w : Nat} : Memory w → Nat → Option (BitVec w)
  | [], _ => none
  | (b, v) :: m, a => if b = a then some v else Memory.read m a

/-- The entries of a list of values stored from index `a` on. -/
def Memory.block {w : Nat} (a : Nat) : List (BitVec w) → Memory w
  | [] => []
  | v :: vs => (a, v) :: Memory.block (a + 1) vs

/-- `MemWrite(SP, a, len v, v)`: `SP[a+k] <- v[k]` (R55), in canonical form. -/
def Memory.writeList {w : Nat} (m : Memory w) (a : Nat) (vs : List (BitVec w)) : Memory w :=
  m.filter (fun c => decide (c.1 < a)) ++ (Memory.block a vs ++ m.filter (fun c => decide (a + vs.length ≤ c.1)))

/-- A write of one element. -/
def Memory.write {w : Nat} (m : Memory w) (a : Nat) (v : BitVec w) : Memory w := m.writeList a [v]

/-- The capacity of a byte space (R6, R50). -/
def ByteSpace.capacity (c : Config) : ByteSpace → Nat
  | .src => c.srcCap
  | .fb => c.fbCap
  | .str => strCap

/-- The capacity of a word space (R6, R50). -/
def WordSpace.capacity (c : Config) : WordSpace → Nat
  | .pal => palCap
  | .pix => c.pixCap

/-- The contents of a byte space. -/
def State.bytes (s : State) : ByteSpace → Memory 8
  | .src => s.src
  | .fb => s.fb
  | .str => s.str

/-- The contents of a word space. -/
def State.words (s : State) : WordSpace → Memory 32
  | .pal => s.pal
  | .pix => s.pix

/-! ### The register file -/

/-- The register of a number; 19 to 31 are unused (R20). -/
def regOfNumber (n : BitVec 5) : Option RegName :=
  match n.toNat with
  | 0 => some .cmd
  | 1 => some .status
  | 2 => some .ctrl
  | 3 => some .progress
  | 4 => some .srcLen
  | 5 => some .palLen
  | 6 => some .pixCount
  | 7 => some .width
  | 8 => some .height
  | 9 => some .errInfo
  | 10 => some .mcmd
  | 11 => some .mstatus
  | 12 => some .mapW
  | 13 => some .mapH
  | 14 => some .mapX
  | 15 => some .mapY
  | 16 => some .mapOffset
  | 17 => some .mapBit
  | 18 => some .strLen
  | _ => none

/-- The number of a register (R20). -/
def RegName.number : RegName → BitVec 5
  | .cmd => 0
  | .status => 1
  | .ctrl => 2
  | .progress => 3
  | .srcLen => 4
  | .palLen => 5
  | .pixCount => 6
  | .width => 7
  | .height => 8
  | .errInfo => 9
  | .mcmd => 10
  | .mstatus => 11
  | .mapW => 12
  | .mapH => 13
  | .mapX => 14
  | .mapY => 15
  | .mapOffset => 16
  | .mapBit => 17
  | .strLen => 18

/-- A 32-bit register's value on the 64-bit read path of the model (log 7). -/
def widen (v : BitVec 32) : BitVec 64 := v.setWidth 64

/-- The low 32 bits of a value written to a 32-bit register (R21). -/
def low32 (v : BitVec 64) : BitVec 32 := v.setWidth 32

/-- The value a host read of a register returns (R20, R21). -/
def State.readRegister (s : State) : RegName → BitVec 64
  | .cmd => widen s.cmd
  | .status => widen s.status.word
  | .ctrl => widen s.ctrl.word
  | .progress => widen s.progress
  | .srcLen => s.srcLen
  | .palLen => widen s.palLen
  | .pixCount => s.pixCount
  | .width => s.width
  | .height => s.height
  | .errInfo => s.errInfo
  | .mcmd => widen s.mcmd
  | .mstatus => widen s.mstatus.word
  | .mapW => widen s.mapW
  | .mapH => widen s.mapH
  | .mapX => widen s.mapX
  | .mapY => widen s.mapY
  | .mapOffset => s.mapOffset
  | .mapBit => widen s.mapBit
  | .strLen => widen s.strLen

/-- The value a host read of a register number returns: 0 for an unused number (R20, R21). -/
def State.readNumber (s : State) (n : BitVec 5) : BitVec 64 :=
  match regOfNumber n with
  | some r => s.readRegister r
  | none => 0

/-- A host write that only stores: the read-only registers ignore it, a 32-bit register takes the low 32 bits
(R20, R21). CMD and MCMD are stored by command acceptance alone (R200). -/
def State.storeRegister (s : State) (r : RegName) (v : BitVec 64) : State :=
  match r with
  | .ctrl => { s with ctrl := Ctrl.ofWord (low32 v) }
  | .srcLen => { s with srcLen := v }
  | .palLen => { s with palLen := low32 v }
  | .pixCount => { s with pixCount := v }
  | .width => { s with width := v }
  | .height => { s with height := v }
  | .mapW => { s with mapW := low32 v }
  | .mapH => { s with mapH := low32 v }
  | .mapX => { s with mapX := low32 v }
  | .mapY => { s with mapY := low32 v }
  | .mapOffset => { s with mapOffset := v }
  | .mapBit => { s with mapBit := low32 v }
  | .status | .progress | .errInfo | .mstatus | .strLen => s
  | .cmd | .mcmd => s

/-! ### Commands: acceptance, errors, completion -/

/-- Acceptance of the word `w` by the engine: CMD, LAST_OP, ERR_INFO and the cleared status bits (R200). -/
def State.accept (s : State) (w : Word) : State :=
  { s with cmd := w, status := s.status.accepted (opField w), errInfo := 0 }

/-- A CMD write while BUSY = 1: the word is dropped, OVR is set (R200). -/
def State.overrun (s : State) : State := { s with status := s.status.overrun }

/-- A write of the word `w` to CMD whose command does `act` once accepted (R200). -/
def State.issueEngine (s : State) (w : Word) (act : State → State) : State :=
  if s.status.busy then s.overrun else act (s.accept w)

/-- `raise E(info)` (R203): the block's exception entry. ERR, ERR_INFO and DONE are written, BUSY cleared, the engine
goes idle; PIX_COUNT is cleared if the command decoded as ENCODE. Nothing else is saved or changed. -/
def State.raise (s : State) (e : ErrorKind) (info : Nat) (ofEncode : Bool) : State :=
  { s with status := s.status.raised e
           errInfo := BitVec.ofNat 64 info
           pixCount := if ofEncode then 0 else s.pixCount
           eng := { s.eng with phase := .idle } }

/-- `complete(kind)` (R206): DONE set, BUSY cleared, CANCELLED set if cancelled, the engine idle; an ENCODE writes
PIX_COUNT with the pixels produced. -/
def State.complete (s : State) (k : Ending) (ofEncode : Bool) : State :=
  { s with status := s.status.completed k
           pixCount := if ofEncode then BitVec.ofNat 64 s.eng.out else s.pixCount
           eng := { s.eng with phase := .idle } }

/-- A write of the word `w` to MCMD, whatever STATUS.BUSY holds: MCMD, MSTATUS.ERR and MSTATUS.LAST_OP (R200). -/
def State.acceptMapper (s : State) (w : Word) : State :=
  { s with mcmd := w, mstatus := MStatus.accepted (opField w) }

/-- `mraise E` (R204): MSTATUS.ERR, nothing else. -/
def State.mraise (s : State) (e : ErrorKind) : State := { s with mstatus := s.mstatus.raised e }

end Sys2Proof.Machine
end

