-- ==== Sys2Proof/Machine/Operands.lean ====
section
/-! DEFINITION. The operand forms of the commands: source bytes and palette lookups of a group (00_scope.md R9,
40_encode.md R105, R110 to R115), group counts (R101), the pixels of a raster row (42_assemble.md R142 to R144),
the mapper's address formulas (43_map.md R161, R162), and the numerals of FORMAT (R181, R182). -/

namespace Sys2Proof.Machine

/-- Why the pixels of a group are not delivered. -/
inductive Stop where
  /-- `raise PaletteTooSmall(idx)` (R105) -/
  | paletteTooSmall (idx : Nat)
  /-- a read of an unwritten element (R56, U9) -/
  | unwritten (f : Fault)
deriving DecidableEq, Repr

/-- Runs `f` over a list in order; the first stop decides. -/
def collect {α β ε : Type} (f : α → Except ε β) : List α → Except ε (List β)
  | [] => .ok []
  | x :: xs =>
    match f x with
    | .error e => .error e
    | .ok y =>
      match collect f xs with
      | .error e => .error e
      | .ok ys => .ok (y :: ys)

/-- `ceil_div(a, b)` (R8). -/
def ceilDiv (a b : Nat) : Nat := (a + b - 1) / b

/-! ### Schemes -/

/-- The packing of a scheme, or the error an ENCODE of it raises: Invalid before TwentyFourBpp (R100, R120, R121). -/
def packingOf : Scheme → Except ErrorKind Packing
  | .oneBpp => .ok .one
  | .twoBpp => .ok .two
  | .fourBpp => .ok .four
  | .eightBpp => .ok .eight
  | .sixteenBpp => .ok .sixteen
  | .thirtyTwoBpp => .ok .thirtyTwo
  | .twentyFourBpp => .error .unsupportedScheme
  | .invalid => .error .invalidScheme

/-- `bpp(s)`, undefined for Invalid (R10). -/
def bitsPerPixel : Scheme → Option Nat
  | .oneBpp => some 1
  | .twoBpp => some 2
  | .fourBpp => some 4
  | .eightBpp => some 8
  | .sixteenBpp => some 16
  | .twentyFourBpp => some 24
  | .thirtyTwoBpp => some 32
  | .invalid => none

/-- `N32(L)`, the 32 bpp pixel count in both readings (R101). -/
def count32 (mode : LenMode) (len : Nat) : Nat :=
  if len % 4 = 0 then len / 4
  else match mode with
    | .exact => 4 * ceilDiv len 16
    | .floor => 4 * ceilDiv (len / 4) 4

/-- `G`, the number of groups of a stream of `len` bytes (R101). -/
def groupCount (mode : LenMode) (p : Packing) (len : Nat) : Nat :=
  match p with
  | .one | .two | .four | .eight => len
  | .sixteen => ceilDiv len 2
  | .thirtyTwo => count32 mode len

/-- `ppg`, the pixels per group (R101). -/
def pixelsPerGroup : Packing → Nat
  | .one => 8
  | .two => 4
  | .four => 2
  | .eight | .sixteen | .thirtyTwo => 1

/-- The schemes with a checkpoint before each group (R103). -/
def hasCheckpoint : Packing → Bool
  | .one | .two | .four => true
  | .eight | .sixteen | .thirtyTwo => false

/-! ### The pixels of a group -/

/-- `SrcByte(i)`: `SRC[i]`, read live (R9, R33). -/
def srcByte (s : State) (a : Nat) : Except Stop Byte :=
  match s.src.read a with
  | some b => .ok b
  | none => .error (.unwritten (.unwrittenSrc a))

/-- `SrcByteOr0(i)`: a missing tail byte is 0 (R9). -/
def srcByteOr0 (s : State) (a : Nat) : Except Stop Byte :=
  if a < s.eng.L.toNat then srcByte s a else .ok 0

/-- `Pal(idx)`: the bound is the latched PAL_LEN, the entry is copied unchanged (R9, R105). -/
def palEntry (s : State) (idx : Nat) : Except Stop Pixel :=
  if s.eng.PL.toNat ≤ idx then .error (.paletteTooSmall idx)
  else match s.pal.read idx with
    | some p => .ok p
    | none => .error (.unwritten (.unwrittenPal idx))

/-- The field of `n` bits of a byte from bit `lo` up (R7). -/
def bitField (x : Byte) (lo n : Nat) : Nat := (x.extractLsb' lo n).toNat

/-- Color indices of a byte at 1 bpp: bit 0 first (R110). -/
def indices1bpp (x : Byte) : List Nat :=
  [bitField x 0 1, bitField x 1 1, bitField x 2 1, bitField x 3 1,
   bitField x 4 1, bitField x 5 1, bitField x 6 1, bitField x 7 1]

/-- Color indices of a byte at 2 bpp: the pair at bit 0 first (R111). -/
def indices2bpp (x : Byte) : List Nat := [bitField x 0 2, bitField x 2 2, bitField x 4 2, bitField x 6 2]

/-- Color indices of a byte at 4 bpp: high nibble first (R112). -/
def indices4bpp (x : Byte) : List Nat := [bitField x 4 4, bitField x 0 4]

/-- The color index of a byte pair at 16 bpp, big-endian (R57, R114). -/
def index16bpp (hi lo : Byte) : Nat := (hi ++ lo).toNat

/-- The pixel of four channel bytes: `(A<<24)|(R<<16)|(G<<8)|B` (R11, R115). -/
def argb (a r g b : Byte) : Pixel := a ++ r ++ g ++ b

/-- `group(OneBpp, i)` (R110). -/
def group1bpp (s : State) (i : Nat) : Except Stop (List Pixel) :=
  match srcByte s i with
  | .error e => .error e
  | .ok x => collect (palEntry s) (indices1bpp x)

/-- `group(TwoBpp, i)` (R111). -/
def group2bpp (s : State) (i : Nat) : Except Stop (List Pixel) :=
  match srcByte s i with
  | .error e => .error e
  | .ok x => collect (palEntry s) (indices2bpp x)

/-- `group(FourBpp, i)` (R112). -/
def group4bpp (s : State) (i : Nat) : Except Stop (List Pixel) :=
  match srcByte s i with
  | .error e => .error e
  | .ok x => collect (palEntry s) (indices4bpp x)

/-- `group(EightBpp, i)` (R113). -/
def group8bpp (s : State) (i : Nat) : Except Stop (List Pixel) :=
  match srcByte s i with
  | .error e => .error e
  | .ok x => collect (palEntry s) [x.toNat]

/-- `group(SixteenBpp, i)` (R114). -/
def group16bpp (s : State) (i : Nat) : Except Stop (List Pixel) :=
  match srcByte s (2 * i) with
  | .error e => .error e
  | .ok hi =>
    match srcByteOr0 s (2 * i + 1) with
    | .error e => .error e
    | .ok lo => collect (palEntry s) [index16bpp hi lo]

/-- The pixel of the four bytes read in order A, R, G, B (R115). -/
def argbOf : List Byte → List Pixel
  | [a, r, g, b] => [argb a r g b]
  | _ => []

/-- `group(ThirtyTwoBpp, i)` (R115). -/
def group32bpp (s : State) (i : Nat) : Except Stop (List Pixel) :=
  (collect (srcByteOr0 s) [4 * i, 4 * i + 1, 4 * i + 2, 4 * i + 3]).map argbOf

/-- `group(eng.sch, i)` (R102). -/
def group (s : State) (i : Nat) : Except Stop (List Pixel) :=
  match s.eng.sch with
  | .one => group1bpp s i
  | .two => group2bpp s i
  | .four => group4bpp s i
  | .eight => group8bpp s i
  | .sixteen => group16bpp s i
  | .thirtyTwo => group32bpp s i

/-! ### The bytes of a raster row -/

/-- `bgra(p)`: blue, green, red, alpha (R143). -/
def bgra (p : Pixel) : List Byte :=
  [p.extractLsb' 0 8, p.extractLsb' 8 8, p.extractLsb' 16 8, p.extractLsb' 24 8]

/-- The pixel of raster cell `k`: `PIX[k]` below the latched count, else the padding value 0 (R142, R144). -/
def cellPixel (s : State) (k : Nat) : Except Fault Pixel :=
  if k < s.eng.n.toNat then
    match s.pix.read k with
    | some p => .ok p
    | none => .error (.unwrittenPix k)
  else .ok 0

/-- The FB bytes of raster row `row` (R142, R143). -/
def rowBytes (s : State) (row : Nat) : Except Fault (List Byte) :=
  (collect (cellPixel s) (List.range' (row * s.eng.w.toNat) s.eng.w.toNat)).map fun ps => ps.flatMap bgra

/-! ### The raster size -/

/-- The bits of an integer square root from bit `b - 1` down: `acc` plus the largest increment whose square stays
within `n`. -/
def sqrtBits (n : Nat) : Nat → Nat → Nat
  | 0, acc => acc
  | b + 1, acc => if (acc + 2 ^ b) * (acc + 2 ^ b) ≤ n then sqrtBits n b (acc + 2 ^ b) else sqrtBits n b acc

/-- `isqrt(n)`: the greatest `s` with `s * s <= n` (R8), found bit by bit. -/
def isqrt (n : Nat) : Nat := sqrtBits n (n.log2 / 2 + 1) 0

/-- `size(n)`: (width, height), for `n >= 1` (R131). -/
def rasterSize (n : Nat) : Nat × Nat :=
  if isqrt n * isqrt n = n then (isqrt n, isqrt n)
  else (isqrt n, isqrt n + ceilDiv (n - isqrt n * isqrt n) (isqrt n))

/-! ### Source addresses -/

/-- `mapBits` (R161): byte offset and bit index of a bit-addressed cell. -/
def mapBits (W x y bpp : Nat) : Nat × Int :=
  ((W * bpp * y + x * bpp) / 8, ((W * bpp * y + x * bpp) % 8 : Nat))

/-- `mapBytes` (R162): byte offset of a byte-addressed cell, bit index -1. -/
def mapBytes (W x y bpp : Nat) : Nat × Int := (W * (bpp / 8) * y + x * (bpp / 8), -1)

/-- The address formula of a scheme, by its depth; Invalid has none (R10, R160). -/
def sourceAddress : Scheme → Nat → Nat → Nat → Option (Nat × Int)
  | .oneBpp, W, x, y => some (mapBits W x y 1)
  | .twoBpp, W, x, y => some (mapBits W x y 2)
  | .fourBpp, W, x, y => some (mapBits W x y 4)
  | .eightBpp, W, x, y => some (mapBytes W x y 8)
  | .sixteenBpp, W, x, y => some (mapBytes W x y 16)
  | .twentyFourBpp, W, x, y => some (mapBytes W x y 24)
  | .thirtyTwoBpp, W, x, y => some (mapBytes W x y 32)
  | .invalid, _, _, _ => none

/-! ### Numerals -/

/-- The digits of `n` in base `base`, the most significant first, with no leading zero (R181, R182); `fuel` bounds
their number. -/
def digits (base : Nat) : Nat → Nat → List Nat
  | 0, _ => []
  | fuel + 1, n => if n < base then [n] else digits base fuel (n / base) ++ [n % base]

/-- The ASCII code of a digit 0 to 15: `0`-`9` from 0x30, `A`-`F` from 0x41 (R183, K2). -/
def asciiDigit (d : Nat) : Byte := if d < 10 then BitVec.ofNat 8 (0x30 + d) else BitVec.ofNat 8 (0x41 + (d - 10))

/-- `hex_upper(v, 8)`: at least 8 digits, never truncated (R181). -/
def hexUpper (v : BitVec 64) : List Byte :=
  ((digits 16 16 v.toNat).leftpad 8 0).map asciiDigit

/-- `dec(bi)` (R182). -/
def decimal (bi : Nat) : List Byte := (digits 10 10 bi).map asciiDigit

/-- The string of a source address: `0x`, the offset, and `:` with the bit index if it is not negative (R180). -/
def addressText (off : BitVec 64) (bit : BitVec 32) : List Byte :=
  [0x30#8, 0x78#8] ++ hexUpper off ++ (if 0 ≤ bit.toInt then 0x3A#8 :: decimal bit.toInt.toNat else [])

end Sys2Proof.Machine
end

