-- ==== Sys2Proof/Machine/Assemble.lean ====
section
/-! DEFINITION. ASSEMBLE: acceptance (42_assemble.md R140, R141) and the engine step of a running ASSEMBLE
(R142 to R146). -/

namespace Sys2Proof.Machine

/-- The latches of an ASSEMBLE that passed its checks (R140, R141): `FB[0 .. h * stride)` cleared, PROGRESS 0, phase
Assembling, BUSY 1. -/
def State.startAssemble (s : State) : State :=
  { s with
    status := s.status.started
    progress := 0
    fb := s.fb.writeList 0 (List.replicate (s.height.toNat * (4 * s.width.toNat)) 0)
    eng := { s.eng with
      phase := .assembling, n := s.pixCount, w := s.width, h := s.height
      stride := 4 * s.width.toNat, r := 0 } }

/-- `accept_ASSEMBLE()` (R140): the products are exact. -/
def acceptAssemble (s : State) : State :=
  if s.cfg.pixCap < s.pixCount.toNat then s.raise .capacityExceeded 0 false
  else if s.cfg.fbCap < 4 * s.width.toNat * s.height.toNat then s.raise .capacityExceeded 0 false
  else s.startAssemble

/-- ASSEMBLE (R140). -/
def execAssemble (s : State) : Host.Outcome State Fault Refusal :=
  .next (s.issueEngine (encode .assemble) acceptAssemble)

/-- The state after a row step that delivered the row's bytes (R142, R145). -/
def State.storeRow (s : State) (bytes : List Byte) : State :=
  { s with
    fb := s.fb.writeList (s.eng.r * s.eng.stride) bytes
    progress := BitVec.ofNat 32 (s.eng.r * 100 / s.eng.h.toNat)
    eng := { s.eng with r := s.eng.r + 1 } }

/-- `step_ASSEMBLE()` (R142): completion, then the checkpoint, then the row (R145, R205). -/
def stepAssemble (s : State) : Host.Outcome State Fault Refusal :=
  if s.eng.r = s.eng.h.toNat then .next (s.complete .normal false)
  else if s.ctrl.cancel then .next (s.complete .cancelled false)
  else match rowBytes s s.eng.r with
    | .error f => .fault f
    | .ok bytes => .next (s.storeRow bytes)

end Sys2Proof.Machine
end

