-- ==== Sys2Proof/Machine/Encode.lean ====
section
/-! DEFINITION. ENCODE: acceptance (40_encode.md R100), one meaning per row of the opcode table (R110 to R121), and the
engine step of a running ENCODE (R102 to R104). -/

namespace Sys2Proof.Machine

/-- The latches of an ENCODE that passed its checks (R100): PROGRESS 0, phase Encoding, BUSY 1. -/
def State.startEncode (s : State) (p : Packing) : State :=
  { s with
    status := s.status.started
    progress := 0
    eng := { s.eng with
      phase := .encoding, sch := p, L := s.srcLen, PL := s.palLen
      G := groupCount s.cfg.lenMode p s.srcLen.toNat, ppg := pixelsPerGroup p
      i := 0, out := 0 } }

/-- `accept_ENCODE(s)` (R100): the checks run in the order written, the first that fails decides (R205). -/
def acceptEncode (sch : Scheme) (s : State) : State :=
  match packingOf sch with
  | .error e => s.raise e 0 true
  | .ok p =>
    if s.cfg.srcCap < s.srcLen.toNat then s.raise .capacityExceeded 0 true
    else if p ≠ .thirtyTwo ∧ palCap < s.palLen.toNat then s.raise .capacityExceeded 0 true
    else if s.cfg.pixCap < groupCount s.cfg.lenMode p s.srcLen.toNat * pixelsPerGroup p then
      s.raise .capacityExceeded 0 true
    else s.startEncode p

/-- A CMD write of the word of an ENCODE command of scheme `sch` (R200). -/
def issueEncode (i : Instr) (sch : Scheme) (s : State) : Host.Outcome State Fault Refusal :=
  .next (s.issueEngine (encode i) (acceptEncode sch))

/-- ENCODE.1BPP (R110). -/
def execEncode1bpp (s : State) : Host.Outcome State Fault Refusal := issueEncode .encode1bpp .oneBpp s

/-- ENCODE.2BPP (R111). -/
def execEncode2bpp (s : State) : Host.Outcome State Fault Refusal := issueEncode .encode2bpp .twoBpp s

/-- ENCODE.4BPP (R112). -/
def execEncode4bpp (s : State) : Host.Outcome State Fault Refusal := issueEncode .encode4bpp .fourBpp s

/-- ENCODE.8BPP (R113). -/
def execEncode8bpp (s : State) : Host.Outcome State Fault Refusal := issueEncode .encode8bpp .eightBpp s

/-- ENCODE.16BPP (R114). -/
def execEncode16bpp (s : State) : Host.Outcome State Fault Refusal := issueEncode .encode16bpp .sixteenBpp s

/-- ENCODE.24BPP (R120): ends within its write with UnsupportedScheme. -/
def execEncode24bpp (s : State) : Host.Outcome State Fault Refusal := issueEncode .encode24bpp .twentyFourBpp s

/-- ENCODE.32BPP (R115). -/
def execEncode32bpp (s : State) : Host.Outcome State Fault Refusal := issueEncode .encode32bpp .thirtyTwoBpp s

/-- ENCODE.INVALID, SCH = 7 (R121): ends within its write with InvalidScheme. -/
def execEncodeInvalid (s : State) : Host.Outcome State Fault Refusal := issueEncode .encodeInvalid .invalid s

/-- ENCODE.INVALID, SCH = 8 to 15 (R73, R121). -/
def execEncodeInvalidSch (sch : BitVec 4) (s : State) : Host.Outcome State Fault Refusal :=
  issueEncode (.encodeInvalidSch sch) .invalid s

/-- The state after a group step that delivered `px` (R102): the pixels at `PIX[eng.out ..)`, the counters, and
PROGRESS for the schemes with checkpoints (R103). -/
def State.storeGroup (s : State) (px : List Pixel) : State :=
  { s with
    pix := s.pix.writeList s.eng.out px
    progress := if hasCheckpoint s.eng.sch then BitVec.ofNat 32 (s.eng.i * 100 / s.eng.L.toNat) else s.progress
    eng := { s.eng with out := s.eng.out + s.eng.ppg, i := s.eng.i + 1 } }

/-- `step_ENCODE()` (R102): completion is tested before the checkpoint, the checkpoint before the group is read
(R205). -/
def stepEncode (s : State) : Host.Outcome State Fault Refusal :=
  if s.eng.i = s.eng.G then .next (s.complete .normal true)
  else if hasCheckpoint s.eng.sch && s.ctrl.cancel then .next (s.complete .cancelled true)
  else match group s s.eng.i with
    | .error (.paletteTooSmall idx) => .next (s.raise .paletteTooSmall idx true)
    | .error (.unwritten f) => .fault f
    | .ok px => .next (s.storeGroup px)

end Sys2Proof.Machine
end

