-- ==== Sys2Proof/Machine/Access.lean ====
section
/-! DEFINITION. The moves of the environment that issue no command: host accesses to registers and memory elements
(10_state.md R21; 20_memory.md R55, R56, R63), the engine's turn (R24), the poll of the host's `wait` (30_encoding.md
R80), and reset (70 R230 to R233). -/

namespace Sys2Proof.Machine

/-- A host read of register number `n`: no side effect on the block (R21, R63). -/
def hostReadReg (n : BitVec 5) (s : State) : State := { s with readData := s.readNumber n }

/-- A host write to `STR[a]` within the capacity: stored or without effect, by a free choice (R50, R63; log 8). -/
def hostWriteStr (a : Nat) (v : Byte) (s : State) : State :=
  { s with
    str := if Config.hostStoresStr s.freeCount then s.str.write a v else s.str
    freeCount := s.freeCount + 1 }

/-- A host write of a byte element: ignored beyond the capacity (R55, D23). -/
def hostWriteByte (sp : ByteSpace) (a : Nat) (v : Byte) (s : State) : State :=
  if a < sp.capacity s.cfg then
    match sp with
    | .src => { s with src := s.src.write a v }
    | .fb => { s with fb := s.fb.write a v }
    | .str => hostWriteStr a v s
  else s

/-- A host write of a word element: ignored beyond the capacity (R55). -/
def hostWriteWord (sp : WordSpace) (a : Nat) (v : Pixel) (s : State) : State :=
  if a < sp.capacity s.cfg then
    match sp with
    | .pal => { s with pal := s.pal.write a v }
    | .pix => { s with pix := s.pix.write a v }
  else s

/-- A host read of a byte element: 0 beyond the capacity (R55), a free value if the element is unwritten
(R56, U10; log 5). -/
def hostReadByte (sp : ByteSpace) (a : Nat) (s : State) : State :=
  if a < sp.capacity s.cfg then
    match (s.bytes sp).read a with
    | some v => { s with readData := v.setWidth 64 }
    | none => { s with readData := (Config.unwrittenByte s.freeCount).setWidth 64, freeCount := s.freeCount + 1 }
  else { s with readData := 0 }

/-- A host read of a word element: 0 beyond the capacity (R55), a free value if the element is unwritten
(R56, U10; log 5). -/
def hostReadWord (sp : WordSpace) (a : Nat) (s : State) : State :=
  if a < sp.capacity s.cfg then
    match (s.words sp).read a with
    | some v => { s with readData := v.setWidth 64 }
    | none => { s with readData := (Config.unwrittenWord s.freeCount).setWidth 64, freeCount := s.freeCount + 1 }
  else { s with readData := 0 }

/-- The engine's turn: its one enabled step while a command runs, none while idle (R24, R102, R142, R215). -/
def engineTurn (s : State) : Host.Outcome State Fault Refusal :=
  match s.eng.phase with
  | .idle => .next s
  | .encoding => stepEncode s
  | .assembling => stepAssemble s

/-- One round of `wait` (R80): the host reads STATUS; while BUSY = 1 it goes on polling, and the engine takes a turn
between two polls (R252's fairness; log 9). -/
def hostPoll (s : State) : State :=
  if s.status.busy then
    { s with readData := s.readRegister .status, agenda := .engine :: .poll :: s.agenda }
  else { s with readData := s.readRegister .status }

/-- Reset of the block at any time (R233): registers, memories and engine as after reset (R230 to R232); the host's
own fields go on (log 10). -/
def State.applyReset (s : State) : State :=
  { State.resetWith s.cfg with agenda := s.agenda, readData := s.readData, freeCount := s.freeCount }

end Sys2Proof.Machine
end

