-- ==== Sys2Proof/Machine/Format.lean ====
section
/-! DEFINITION. FORMAT: executes within its MCMD write (43_map.md R180 to R183). -/

namespace Sys2Proof.Machine

/-- `write_STR(s)` (R183): the text from `STR[0]`, zeros up to the capacity, STR_LEN. -/
def State.writeStr (s : State) (text : List Byte) : State :=
  { s with
    str := s.str.writeList 0 (text ++ List.replicate (strCap - text.length) 0)
    strLen := BitVec.ofNat 32 text.length }

/-- FORMAT (R180). -/
def execFormat (s : State) : Host.Outcome State Fault Refusal :=
  .next ((s.acceptMapper (encode .format)).writeStr (addressText s.mapOffset s.mapBit))

end Sys2Proof.Machine
end

