-- ==== Sys2Proof/Machine/Map.lean ====
section
/-! DEFINITION. MAP: executes within its MCMD write, whatever the engine is doing (43_map.md R160 to R172). -/

namespace Sys2Proof.Machine

/-- `exec_MAP(s)` after acceptance (R160): InvalidScheme, then CoordOutOfRange, then AddressOverflow, else the
offset and the two's-complement bit index. -/
def acceptMap (sch : Scheme) (s : State) : State :=
  match sourceAddress sch s.mapW.toNat s.mapX.toNat s.mapY.toNat with
  | none => s.mraise .invalidScheme
  | some (off, bi) =>
    if ¬(s.mapX.toNat < s.mapW.toNat ∧ s.mapY.toNat < s.mapH.toNat) then s.mraise .coordOutOfRange
    else if 2 ^ 64 ≤ off then s.mraise .addressOverflow
    else { s with mapOffset := BitVec.ofNat 64 off, mapBit := BitVec.ofInt 32 bi }

/-- An MCMD write of the word of a MAP command of scheme `sch` (R200). -/
def issueMap (i : Instr) (sch : Scheme) (s : State) : Host.Outcome State Fault Refusal :=
  .next (acceptMap sch (s.acceptMapper (encode i)))

/-- MAP.1BPP (R163). -/
def execMap1bpp (s : State) : Host.Outcome State Fault Refusal := issueMap .map1bpp .oneBpp s

/-- MAP.2BPP (R164). -/
def execMap2bpp (s : State) : Host.Outcome State Fault Refusal := issueMap .map2bpp .twoBpp s

/-- MAP.4BPP (R165): the formula as written; it names the other nibble (C2). -/
def execMap4bpp (s : State) : Host.Outcome State Fault Refusal := issueMap .map4bpp .fourBpp s

/-- MAP.8BPP (R166). -/
def execMap8bpp (s : State) : Host.Outcome State Fault Refusal := issueMap .map8bpp .eightBpp s

/-- MAP.16BPP (R167). -/
def execMap16bpp (s : State) : Host.Outcome State Fault Refusal := issueMap .map16bpp .sixteenBpp s

/-- MAP.24BPP (R168): the byte formula, not UnsupportedScheme. -/
def execMap24bpp (s : State) : Host.Outcome State Fault Refusal := issueMap .map24bpp .twentyFourBpp s

/-- MAP.32BPP (R169). -/
def execMap32bpp (s : State) : Host.Outcome State Fault Refusal := issueMap .map32bpp .thirtyTwoBpp s

/-- MAP.INVALID, SCH = 7 (R170). -/
def execMapInvalid (s : State) : Host.Outcome State Fault Refusal := issueMap .mapInvalid .invalid s

/-- MAP.INVALID, SCH = 8 to 15 (R73, R170). -/
def execMapInvalidSch (sch : BitVec 4) (s : State) : Host.Outcome State Fault Refusal :=
  issueMap (.mapInvalidSch sch) .invalid s

end Sys2Proof.Machine
end

