-- ==== Sys2Proof/Machine/Size.lean ====
section
/-! DEFINITION. SIZE: over within its write (41_size.md R130 to R133). -/

namespace Sys2Proof.Machine

/-- `accept_SIZE()` (R130, R133). -/
def acceptSize (s : State) : State :=
  if s.pixCount = 0 then s.raise .zeroPixelCount 0 false
  else State.complete { s with width := BitVec.ofNat 64 (rasterSize s.pixCount.toNat).1
                               height := BitVec.ofNat 64 (rasterSize s.pixCount.toNat).2 } .normal false

/-- SIZE (R130). -/
def execSize (s : State) : Host.Outcome State Fault Refusal := .next (s.issueEngine (encode .size) acceptSize)

end Sys2Proof.Machine
end

