-- ==== Sys2Proof/Machine/Dispatch.lean ====
section
/-! DEFINITION. The meaning of every command of the opcode table: one arm per constructor. -/

namespace Sys2Proof.Machine

-- The effect of the host's write of the command's word to the command's port (60_exceptions.md R200).
def exec (i : Instr) (s : State) : Host.Outcome State Fault Refusal :=
  match i with
  | .encode1bpp => Sys2Proof.Machine.execEncode1bpp s
  | .encode2bpp => Sys2Proof.Machine.execEncode2bpp s
  | .encode4bpp => Sys2Proof.Machine.execEncode4bpp s
  | .encode8bpp => Sys2Proof.Machine.execEncode8bpp s
  | .encode16bpp => Sys2Proof.Machine.execEncode16bpp s
  | .encode24bpp => Sys2Proof.Machine.execEncode24bpp s
  | .encode32bpp => Sys2Proof.Machine.execEncode32bpp s
  | .encodeInvalid => Sys2Proof.Machine.execEncodeInvalid s
  | .encodeInvalidSch sch => Sys2Proof.Machine.execEncodeInvalidSch sch s
  | .size => Sys2Proof.Machine.execSize s
  | .assemble => Sys2Proof.Machine.execAssemble s
  | .map1bpp => Sys2Proof.Machine.execMap1bpp s
  | .map2bpp => Sys2Proof.Machine.execMap2bpp s
  | .map4bpp => Sys2Proof.Machine.execMap4bpp s
  | .map8bpp => Sys2Proof.Machine.execMap8bpp s
  | .map16bpp => Sys2Proof.Machine.execMap16bpp s
  | .map24bpp => Sys2Proof.Machine.execMap24bpp s
  | .map32bpp => Sys2Proof.Machine.execMap32bpp s
  | .mapInvalid => Sys2Proof.Machine.execMapInvalid s
  | .mapInvalidSch sch => Sys2Proof.Machine.execMapInvalidSch sch s
  | .format => Sys2Proof.Machine.execFormat s

end Sys2Proof.Machine
end

