-- ==== Sys2Proof/Machine/Ports.lean ====
section
/-! DEFINITION. The command ports: a host write to CMD or MCMD is decoded at that write (20_memory.md R66;
60_exceptions.md R200), and one move of the environment. -/

namespace Sys2Proof.Machine

/-- The port of a register number, if a write to it issues a command (R21, R22, R32). -/
def portOfNumber (n : BitVec 5) : Option Port :=
  match regOfNumber n with
  | some .cmd => some .cmd
  | some .mcmd => some .mcmd
  | _ => none

/-- An IllegalCommand word on a port: on CMD it is accepted and ends at once, PIX_COUNT unchanged; on MCMD
`mraise` (R74, R200, R203). -/
def illegalWord (port : Port) (w : Word) (s : State) : State :=
  match port with
  | .cmd => s.issueEngine w fun s' => s'.raise .illegalCommand 0 false
  | .mcmd => (s.acceptMapper w).mraise .illegalCommand

/-- A host write of a command word to a port (R75, R200): the decoded command's meaning, or IllegalCommand. -/
def writePort (port : Port) (w : Word) (s : State) : Host.Outcome State Fault Refusal :=
  match decode port w with
  | .ok i => exec i s
  | .error _ => .next (illegalWord port w s)

/-- A host write of register number `n` (R21): CMD and MCMD issue a command, an unused number is ignored. -/
def hostWriteReg (n : BitVec 5) (v : BitVec 64) (s : State) : Host.Outcome State Fault Refusal :=
  match portOfNumber n, regOfNumber n with
  | some port, _ => writePort port (low32 v) s
  | none, some r => .next (s.storeRegister r v)
  | none, none => .next s

/-- One move of the environment. -/
def perform (e : Event) (s : State) : Host.Outcome State Fault Refusal :=
  match e with
  | .writeReg n v => hostWriteReg n v s
  | .readReg n => .next (hostReadReg n s)
  | .writeByte sp a v => .next (hostWriteByte sp a v s)
  | .readByte sp a => .next (hostReadByte sp a s)
  | .writeWord sp a v => .next (hostWriteWord sp a v s)
  | .readWord sp a => .next (hostReadWord sp a s)
  | .engine => engineTurn s
  | .poll => .next (hostPoll s)
  | .reset => .next s.applyReset

/-- The step of the whole: the first pending move, or the engine's turn if the host has none (log 1, 2). -/
def advance (s : State) : Host.Outcome State Fault Refusal :=
  match s.agenda with
  | [] => engineTurn s
  | e :: rest => perform e { s with agenda := rest }

/-- The port to which the host writes a word: the one on which it decodes, CMD if on neither (log 18). -/
def portOfWord (w : Word) : Port :=
  match decode .cmd w with
  | .ok _ => .cmd
  | .error _ =>
    match decode .mcmd w with
    | .ok _ => .mcmd
    | .error _ => .cmd

/-- The register number of a port (R20). -/
def portNumber : Port → BitVec 5
  | .cmd => RegName.cmd.number
  | .mcmd => RegName.mcmd.number

/-- The host's write of the command word in the low `nbits` bits of `w` to its port. -/
def commandWrite (nbits w : Nat) : Event :=
  .writeReg (portNumber (portOfWord (BitVec.ofNat 32 (w % 2 ^ nbits)))) (widen (BitVec.ofNat 32 (w % 2 ^ nbits)))

end Sys2Proof.Machine
end

