-- ==== Sys2Proof/Machine/Step.lean ====
section
/-! DEFINITION. One step of the block and its host, and the placing of a command as the next host write. -/

namespace Sys2Proof.Machine

/-- One atomic step (20_memory.md R65): the environment's first pending move. -/
def step (s : State) : Host.Outcome State Fault Refusal := advance s

/-- The state in which the host's next access writes the command word `w` to its port (log 1): the block fetches
nothing, a command is decoded at its write (R66). -/
def State.withFetchWord (s : State) (nbits w : Nat) : State :=
  { s with agenda := commandWrite nbits w :: s.agenda }

end Sys2Proof.Machine
end

