-- ==== Sys2Proof/Machine/HostProgram.lean ====
section
/-! DEFINITION. Host programs: the operations of 30_encoding.md R80 and their expansion into host accesses, and the
host's sequence of 70 R240 and R241. The block executes no program (R35); a program is what the host does next. -/

namespace Sys2Proof.Machine

/-- The host operations and pseudo-operations of R80. `fill` carries its values in order: `f(a), f(a+1), …`. -/
inductive HostOp where
  | wr (r : RegName) (v : BitVec 64)
  | rd (r : RegName)
  | stByte (sp : ByteSpace) (a : Nat) (v : BitVec 8)
  | stWord (sp : WordSpace) (a : Nat) (v : BitVec 32)
  | ldByte (sp : ByteSpace) (a : Nat)
  | ldWord (sp : WordSpace) (a : Nat)
  | cmd (i : Instr)
  | mcmd (i : Instr)
  | wait
  | cancel
  | uncancel
  | fillByte (sp : ByteSpace) (a : Nat) (vs : List (BitVec 8))
  | fillWord (sp : WordSpace) (a : Nat) (vs : List (BitVec 32))
deriving DecidableEq, Repr

/-- `fill` of a byte space: one `st` for each element, in order (R80). -/
def fillBytes (sp : ByteSpace) (a : Nat) : List (BitVec 8) → List Event
  | [] => []
  | v :: vs => .writeByte sp a v :: fillBytes sp (a + 1) vs

/-- `fill` of a word space: one `st` for each element, in order (R80). -/
def fillWords (sp : WordSpace) (a : Nat) : List (BitVec 32) → List Event
  | [] => []
  | v :: vs => .writeWord sp a v :: fillWords sp (a + 1) vs

/-- The host accesses of an operation (R80). -/
def HostOp.expand : HostOp → List Event
  | .wr r v => [.writeReg r.number v]
  | .rd r => [.readReg r.number]
  | .stByte sp a v => [.writeByte sp a v]
  | .stWord sp a v => [.writeWord sp a v]
  | .ldByte sp a => [.readByte sp a]
  | .ldWord sp a => [.readWord sp a]
  | .cmd i => [.writeReg RegName.cmd.number (widen (encode i))]
  | .mcmd i => [.writeReg RegName.mcmd.number (widen (encode i))]
  | .wait => [.poll]
  | .cancel => [.writeReg RegName.ctrl.number 1]
  | .uncancel => [.writeReg RegName.ctrl.number 0]
  | .fillByte sp a vs => fillBytes sp a vs
  | .fillWord sp a vs => fillWords sp a vs

/-- The host is about to run a program, after what it has pending. -/
def State.withProgram (s : State) (p : List HostOp) : State :=
  { s with agenda := s.agenda ++ p.flatMap HostOp.expand }

/-- Steps 1 to 4 of R240: load the stream and the palette, their lengths, CTRL = 0, ENCODE and `wait`. -/
def bootEncode (i : Instr) (stream : List (BitVec 8)) (palette : List (BitVec 32)) : List HostOp :=
  [.fillByte .src 0 stream, .fillWord .pal 0 palette,
   .wr .srcLen (BitVec.ofNat 64 stream.length), .wr .palLen (BitVec.ofNat 64 palette.length),
   .uncancel, .cmd i, .wait]

/-- The 1×1 placeholder of R241, with the host's own PLACEHOLDER_PIXEL (log 23). -/
def placeholder (pixel : BitVec 32) : List HostOp := [.stWord .pix 0 pixel, .wr .pixCount 1]

/-- Steps 6 and 7 of R240: SIZE, ASSEMBLE and `wait`. -/
def bootRaster : List HostOp := [.cmd .size, .cmd .assemble, .wait]

/-- Step 8 of R240: one cell mapped with the scheme's MAP command, then formatted. -/
def bootMap (i : Instr) (w h x y : BitVec 32) : List HostOp :=
  [.wr .mapW (widen w), .wr .mapH (widen h), .wr .mapX (widen x), .wr .mapY (widen y), .mcmd i, .mcmd .format]

end Sys2Proof.Machine
end

