-- ==== Sys2Proof/Machine/Reference.lean ====
section
/-! DEFINITION. The reference functions of the spec, free of registers and steps: `encode` (40_encode.md R122) by the
closed form of each pixel's color index (R110 to R115), and `assemble` (42_assemble.md R147). -/

namespace Sys2Proof.Machine

/-- Byte `j` of a stream as a number, 0 beyond its end (R9). -/
def refByte (b : List Byte) (j : Nat) : Nat := (b.getD j 0).toNat

/-- The color index of pixel `k`: the closed forms of R110 to R114. 32 bpp uses none (R115). -/
def refIndex (p : Packing) (b : List Byte) (k : Nat) : Nat :=
  match p with
  | .one => refByte b (k / 8) / 2 ^ (k % 8) % 2
  | .two => refByte b (k / 4) / 2 ^ (2 * (k % 4)) % 4
  | .four => if k % 2 = 0 then refByte b (k / 2) / 16 else refByte b (k / 2) % 16
  | .eight => refByte b k
  | .sixteen => refByte b (2 * k) * 256 + refByte b (2 * k + 1)
  | .thirtyTwo => 0

/-- Pixel `k` of a stream, or the color index that lies beyond the palette (R105, R110 to R115). -/
def refPixel (p : Packing) (b : List Byte) (pal : List Pixel) (k : Nat) : Except Nat Pixel :=
  match p with
  | .thirtyTwo =>
    .ok (BitVec.ofNat 32 (refByte b (4 * k) * 2 ^ 24 + refByte b (4 * k + 1) * 2 ^ 16 +
      refByte b (4 * k + 2) * 2 ^ 8 + refByte b (4 * k + 3)))
  | .one | .two | .four | .eight | .sixteen =>
    match pal[refIndex p b k]? with
    | some v => .ok v
    | none => .error (refIndex p b k)

/-- The pixel count `N` of a stream of `len` bytes (R101, R124). -/
def pixelTotal (mode : LenMode) (p : Packing) (len : Nat) : Nat := groupCount mode p len * pixelsPerGroup p

/-- `encode(b, s, p)` for a scheme with a packing rule: all pixels in production order, or the first offending color
index (R122). -/
def refPixels (mode : LenMode) (p : Packing) (b : List Byte) (pal : List Pixel) : Except Nat (List Pixel) :=
  collect (refPixel p b pal) (List.range (pixelTotal mode p b.length))

/-- `encode(b, s, p)` (R122): an error kind or the PixelSequence. -/
def refEncode (mode : LenMode) (sch : Scheme) (b : List Byte) (pal : List Pixel) : Except ErrorKind (List Pixel) :=
  match packingOf sch with
  | .error e => .error e
  | .ok p =>
    match refPixels mode p b pal with
    | .ok out => .ok out
    | .error _ => .error .paletteTooSmall

/-- `assemble(px, w, h)` (R147): cell `k` holds the bytes of pixel `k`, padding cells hold 0. -/
def refAssemble (px : List Pixel) (w h : Nat) : List Byte := (List.range (w * h)).flatMap fun k => bgra (px.getD k 0)

end Sys2Proof.Machine
end

