-- ==== Sys2Proof/Safety.lean ====
section
/-! DEFINITION. What counts as a legal state and a safe run: the invariant of the spec's registers, latches and
memories (10_state.md R23, R30, R33, R35; 20_memory.md R55), and the condition under which the engine never reads an
unwritten element (R56). -/

namespace Sys2Proof.Machine

/-- Every entry of a memory lies below a capacity (R55). -/
abbrev Memory.below {w : Nat} (m : Memory w) (cap : Nat) : Prop := ∀ c ∈ m, c.1 < cap

/-- The memories are in canonical form and within their capacities (R50, R55). -/
structure MemoryInv (s : State) : Prop where
  srcWf : s.src.wf
  palWf : s.pal.wf
  pixWf : s.pix.wf
  fbWf : s.fb.wf
  strWf : s.str.wf
  srcBelow : s.src.below s.cfg.srcCap
  palBelow : s.pal.below palCap
  pixBelow : s.pix.below s.cfg.pixCap
  fbBelow : s.fb.below s.cfg.fbCap
  strBelow : s.str.below strCap

/-- The status and progress registers (R22, R23, R28, R30, R32, R183, R202). -/
structure StatusInv (s : State) : Prop where
  /-- BUSY = 1 implies DONE = 0, CANCELLED = 0 and ERR = 0 (R23) -/
  busyClear : s.status.busy = true → s.status.done = false ∧ s.status.cancelled = false ∧ s.status.err = 0
  /-- at most one of CANCELLED = 1 and ERR ≠ 0 (R23) -/
  notBoth : s.status.cancelled = true → s.status.err = 0
  /-- codes 9 to 15 are never written (R28) -/
  errLegal : s.status.err.toNat ≤ 8
  mErrLegal : s.mstatus.err.toNat ≤ 8
  /-- LAST_OP is the opcode field of the last accepted word (R28, R32) -/
  lastOp : s.status.lastOp = opField s.cmd
  mLastOp : s.mstatus.lastOp = opField s.mcmd
  /-- only PaletteTooSmall records an index (R202) -/
  errInfo : s.errInfo ≠ 0 → s.status.err = ErrorKind.paletteTooSmall.code
  /-- PROGRESS holds 0 to 99 (R30) -/
  progress : s.progress.toNat ≤ 99
  /-- the longest formatted string has 29 characters (R183) -/
  strLen : s.strLen.toNat ≤ 29

/-- The latches of a running ENCODE (R33, R35, R100, R101). -/
structure EncodingInv (s : State) : Prop where
  lenLe : s.eng.L.toNat ≤ s.cfg.srcCap
  palLe : s.eng.sch ≠ .thirtyTwo → s.eng.PL.toNat ≤ palCap
  groups : s.eng.G = groupCount s.cfg.lenMode s.eng.sch s.eng.L.toNat
  perGroup : s.eng.ppg = pixelsPerGroup s.eng.sch
  fits : s.eng.G * s.eng.ppg ≤ s.cfg.pixCap
  bound : s.eng.i ≤ s.eng.G
  written : s.eng.out = s.eng.i * s.eng.ppg

/-- The latches of a running ASSEMBLE (R33, R35, R140, R141). -/
structure AssemblingInv (s : State) : Prop where
  countLe : s.eng.n.toNat ≤ s.cfg.pixCap
  fits : 4 * s.eng.w.toNat * s.eng.h.toNat ≤ s.cfg.fbCap
  stride : s.eng.stride = 4 * s.eng.w.toNat
  bound : s.eng.r ≤ s.eng.h.toNat

/-- The invariant of the whole machine. -/
structure Inv (s : State) : Prop where
  cfg : s.cfg.valid
  memory : MemoryInv s
  status : StatusInv s
  /-- `eng.phase ≠ Idle` if and only if STATUS.BUSY = 1 (R33) -/
  phaseBusy : s.eng.phase ≠ .idle ↔ s.status.busy = true
  encoding : s.eng.phase = .encoding → EncodingInv s
  assembling : s.eng.phase = .assembling → AssemblingInv s

/-- Every element the running command can read is written: the stream of an ENCODE, the palette of one whose scheme
uses it, the pixels of an ASSEMBLE (R240 steps 1 to 7). -/
structure InputsWritten (s : State) : Prop where
  src : s.eng.phase = .encoding → ∀ a, a < s.eng.L.toNat → ∃ v, s.src.read a = some v
  pal : s.eng.phase = .encoding → s.eng.sch ≠ .thirtyTwo → ∀ a, a < s.eng.PL.toNat → ∃ v, s.pal.read a = some v
  pix : s.eng.phase = .assembling → ∀ a, a < s.eng.n.toNat → ∃ v, s.pix.read a = some v

/-- The packing of the six ENCODE commands that encode (R76, R110 to R115). -/
def encodePacking : Instr → Option Packing
  | .encode1bpp => some .one
  | .encode2bpp => some .two
  | .encode4bpp => some .four
  | .encode8bpp => some .eight
  | .encode16bpp => some .sixteen
  | .encode32bpp => some .thirtyTwo
  | .encode24bpp | .encodeInvalid | .encodeInvalidSch _ | .size | .assemble
  | .map1bpp | .map2bpp | .map4bpp | .map8bpp | .map16bpp | .map24bpp | .map32bpp
  | .mapInvalid | .mapInvalidSch _ | .format => none

/-- The bytes per pixel of the four byte-addressed MAP commands (R10, R166 to R169). -/
def mapBytesPerPixel : Instr → Option Nat
  | .map8bpp => some 1
  | .map16bpp => some 2
  | .map24bpp => some 3
  | .map32bpp => some 4
  | .encode1bpp | .encode2bpp | .encode4bpp | .encode8bpp | .encode16bpp | .encode24bpp | .encode32bpp
  | .encodeInvalid | .encodeInvalidSch _ | .size | .assemble
  | .map1bpp | .map2bpp | .map4bpp | .mapInvalid | .mapInvalidSch _ | .format => none

/-- The bits per pixel of the three bit-addressed MAP commands (R10, R163 to R165). -/
def mapBitsPerPixel : Instr → Option Nat
  | .map1bpp => some 1
  | .map2bpp => some 2
  | .map4bpp => some 4
  | .encode1bpp | .encode2bpp | .encode4bpp | .encode8bpp | .encode16bpp | .encode24bpp | .encode32bpp
  | .encodeInvalid | .encodeInvalidSch _ | .size | .assemble
  | .map8bpp | .map16bpp | .map24bpp | .map32bpp | .mapInvalid | .mapInvalidSch _ | .format => none

/-- One outcome followed by a further step from the state it gives. -/
def andThen (o : Host.Outcome State Fault Refusal) (f : State → Host.Outcome State Fault Refusal) :
    Host.Outcome State Fault Refusal :=
  match o with
  | .next s => f s
  | .fault r => .fault r
  | .refused r => .refused r

/-- `k` steps, stopping at the first fault or refusal. -/
def run : Nat → State → Host.Outcome State Fault Refusal
  | 0, s => .next s
  | k + 1, s => andThen (step s) (run k)

/-- The engine steps a running command still has at most (R252). -/
def stepsLeft (s : State) : Nat :=
  match s.eng.phase with
  | .idle => 0
  | .encoding => s.eng.G + 1 - s.eng.i
  | .assembling => s.eng.h.toNat + 1 - s.eng.r

end Sys2Proof.Machine
end

