-- ==== Sys2Proof/Certificates/Slice0/Obligations.lean ====
section
/-! DEFINITION. The statements about the model, each a proposition of its own. -/

open Sys2Proof Sys2Proof.Machine

/-! ### Words and commands -/

/-- Every well-formed command's word decodes to it on its port (30_encoding.md R75, R76). -/
def Obligations.DecodeOfEncodeIsTheCommand : Prop :=
  ∀ i : Instr, i.wellFormed = true → decode i.port (encode i) = .ok i

/-- A word that decodes is the word of the command it decodes to, on the port that takes it (R71, R75, R76). -/
def Obligations.EncodeOfDecodeIsTheWord : Prop :=
  ∀ (p : Port) (w : Word) (i : Instr), decode p w = .ok i → encode i = w ∧ i.port = p ∧ i.wellFormed = true

/-- The opcode map (R76): the words of every row, written out from it, decode to that row's command on its port; the
SCH = 8 to 15 rows keep their code. -/
def Obligations.TableWordsDecode : Prop :=
  decode .cmd 0x00000001#32 = .ok .encode1bpp ∧ decode .cmd 0x00000011#32 = .ok .encode2bpp ∧
  decode .cmd 0x00000021#32 = .ok .encode4bpp ∧ decode .cmd 0x00000031#32 = .ok .encode8bpp ∧
  decode .cmd 0x00000041#32 = .ok .encode16bpp ∧ decode .cmd 0x00000051#32 = .ok .encode24bpp ∧
  decode .cmd 0x00000061#32 = .ok .encode32bpp ∧ decode .cmd 0x00000071#32 = .ok .encodeInvalid ∧
  (∀ sch : BitVec 4, 8 ≤ sch.toNat →
    decode .cmd (BitVec.ofNat 32 (16 * sch.toNat + 1)) = .ok (.encodeInvalidSch sch)) ∧
  decode .cmd 0x00000002#32 = .ok .size ∧ decode .cmd 0x00000003#32 = .ok .assemble ∧
  decode .mcmd 0x00000004#32 = .ok .map1bpp ∧ decode .mcmd 0x00000014#32 = .ok .map2bpp ∧
  decode .mcmd 0x00000024#32 = .ok .map4bpp ∧ decode .mcmd 0x00000034#32 = .ok .map8bpp ∧
  decode .mcmd 0x00000044#32 = .ok .map16bpp ∧ decode .mcmd 0x00000054#32 = .ok .map24bpp ∧
  decode .mcmd 0x00000064#32 = .ok .map32bpp ∧ decode .mcmd 0x00000074#32 = .ok .mapInvalid ∧
  (∀ sch : BitVec 4, 8 ≤ sch.toNat →
    decode .mcmd (BitVec.ofNat 32 (16 * sch.toNat + 4)) = .ok (.mapInvalidSch sch)) ∧
  decode .mcmd 0x00000005#32 = .ok .format

/-- IllegalCommand (R74): exactly the words with one of its four conditions are illegal on a port; such a word is
accepted like any command and ends at once with error code 4 on its port, and no other state changes. -/
def Obligations.IllegalWordsEndAtOnceWithErrorFour : Prop :=
  (∀ (p : Port) (w : Word), (∃ e, decode p w = .error e) ↔
    (w.extractLsb' 8 24 ≠ 0 ∨
      (w.extractLsb' 0 4 = 0 ∨ 6 ≤ (w.extractLsb' 0 4).toNat) ∨
      (p = .cmd ∧ (w.extractLsb' 0 4 = 4 ∨ w.extractLsb' 0 4 = 5)) ∨
      (p = .mcmd ∧ (w.extractLsb' 0 4 = 1 ∨ w.extractLsb' 0 4 = 2 ∨ w.extractLsb' 0 4 = 3)) ∨
      ((w.extractLsb' 0 4 = 2 ∨ w.extractLsb' 0 4 = 3 ∨ w.extractLsb' 0 4 = 5) ∧ w.extractLsb' 4 4 ≠ 0))) ∧
  (∀ (s : State) (rest : List Event) (v : BitVec 64) (e : IllegalWord),
    s.agenda = .writeReg 0 v :: rest → decode .cmd (v.setWidth 32) = .error e → s.status.busy = false →
    step s = .next { s with
      agenda := rest, cmd := v.setWidth 32, errInfo := 0
      status := { busy := false, done := true, cancelled := false, ovr := false, err := 4
                  lastOp := (v.setWidth 32).extractLsb' 0 4 }
      eng := { s.eng with phase := .idle } }) ∧
  (∀ (s : State) (rest : List Event) (v : BitVec 64) (e : IllegalWord),
    s.agenda = .writeReg 10 v :: rest → decode .mcmd (v.setWidth 32) = .error e →
    step s = .next { s with
      agenda := rest, mcmd := v.setWidth 32
      mstatus := { err := 4, lastOp := (v.setWidth 32).extractLsb' 0 4 } })

/-- A step runs the decoded command: a host write of a legal word to CMD or MCMD is that command's meaning, with the
write taken off the host's agenda (R66, R200). -/
def Obligations.StepRunsTheDecodedCommand : Prop :=
  (∀ (s : State) (rest : List Event) (v : BitVec 64) (i : Instr),
    s.agenda = .writeReg 0 v :: rest → decode .cmd (v.setWidth 32) = .ok i → i.wellFormed = true →
    step s = exec i { s with agenda := rest }) ∧
  (∀ (s : State) (rest : List Event) (v : BitVec 64) (i : Instr),
    s.agenda = .writeReg 10 v :: rest → decode .mcmd (v.setWidth 32) = .ok i → i.wellFormed = true →
    step s = exec i { s with agenda := rest })

/-- A word placed as the host's next write runs as the command the decoder reads from it (the model's own interface,
log 1 and log 18). -/
def Obligations.PlacedWordRunsItsCommand : Prop :=
  ∀ (s : State) (w : Nat) (i : Instr), decodeTableWord 32 w = some i → step (s.withFetchWord 32 w) = exec i s

/-- A write to CMD while BUSY = 1 sets OVR and has no other effect, whatever the word (R27). -/
def Obligations.OverrunSetsOvrAndNothingElse : Prop :=
  ∀ (s : State) (rest : List Event) (v : BitVec 64),
    s.status.busy = true → s.agenda = .writeReg 0 v :: rest →
    step s = .next { s with agenda := rest, status := { s.status with ovr := true } }

/-! ### ENCODE -/

/-- The six encoding commands start: with the engine free and the operands within the capacities, the exact latches
and status bits of R100, and everything else unchanged. -/
def Obligations.EncodeStartsWithLatchedOperands : Prop :=
  ∀ (i : Instr) (p : Packing) (s : State),
    encodePacking i = some p → s.status.busy = false → s.srcLen.toNat ≤ s.cfg.srcCap →
    (p ≠ .thirtyTwo → s.palLen.toNat ≤ 65536) →
    groupCount s.cfg.lenMode p s.srcLen.toNat * pixelsPerGroup p ≤ s.cfg.pixCap →
    exec i s = .next { s with
      cmd := encode i, errInfo := 0, progress := 0
      status := { busy := true, done := false, cancelled := false, ovr := false, err := 0, lastOp := 1 }
      eng := { s.eng with
        phase := .encoding, sch := p, L := s.srcLen, PL := s.palLen
        G := groupCount s.cfg.lenMode p s.srcLen.toNat, ppg := pixelsPerGroup p, i := 0, out := 0 } }

/-- An encoding command with an operand beyond a capacity ends at once with code 7 and PIX_COUNT 0 (R100, R203). -/
def Obligations.EncodeBeyondCapacityEndsWithErrorSeven : Prop :=
  ∀ (i : Instr) (p : Packing) (s : State),
    encodePacking i = some p → s.status.busy = false →
    (s.cfg.srcCap < s.srcLen.toNat ∨ (p ≠ .thirtyTwo ∧ 65536 < s.palLen.toNat) ∨
      s.cfg.pixCap < groupCount s.cfg.lenMode p s.srcLen.toNat * pixelsPerGroup p) →
    exec i s = .next { s with
      cmd := encode i, errInfo := 0, pixCount := 0
      status := { busy := false, done := true, cancelled := false, ovr := false, err := 7, lastOp := 1 }
      eng := { s.eng with phase := .idle } }

/-- ENCODE.24BPP raises UnsupportedScheme and ENCODE.INVALID, under each of its codes, InvalidScheme: DONE, the code and
PIX_COUNT 0, whatever the operands (R120, R121). -/
def Obligations.EncodeWithoutPackingEndsWithItsError : Prop :=
  ∀ (i : Instr) (code : BitVec 4) (s : State),
    ((i = .encode24bpp ∧ code = 3) ∨ (i = .encodeInvalid ∧ code = 1) ∨
      ∃ sch : BitVec 4, 8 ≤ sch.toNat ∧ i = .encodeInvalidSch sch ∧ code = 1) →
    s.status.busy = false →
    exec i s = .next { s with
      cmd := encode i, errInfo := 0, pixCount := 0
      status := { busy := false, done := true, cancelled := false, ovr := false, err := code, lastOp := 1 }
      eng := { s.eng with phase := .idle } }

/-- A group step (R102, R103): the group's pixels stand at `PIX[eng.out ..)`, every other PIX element reads as before,
the counters advance by one group, PROGRESS is written for 1, 2 and 4 bpp alone, and nothing else changes. -/
def Obligations.EncodeStepStoresTheGroup : Prop :=
  ∀ (s : State) (px : List Pixel),
    s.eng.phase = .encoding → s.eng.i ≠ s.eng.G → (hasCheckpoint s.eng.sch = true → s.ctrl.cancel = false) →
    group s s.eng.i = .ok px →
    ∃ pix', engineTurn s = .next { s with
        pix := pix'
        progress := match s.eng.sch with
          | .one | .two | .four => BitVec.ofNat 32 (s.eng.i * 100 / s.eng.L.toNat)
          | .eight | .sixteen | .thirtyTwo => s.progress
        eng := { s.eng with out := s.eng.out + s.eng.ppg, i := s.eng.i + 1 } } ∧
      (∀ k, k < px.length → pix'.read (s.eng.out + k) = px[k]?) ∧
      (∀ a, (a < s.eng.out ∨ s.eng.out + px.length ≤ a) → pix'.read a = s.pix.read a)

/-- A palette index at or beyond the latched PAL_LEN ends the ENCODE: code 2, the index in ERR_INFO, PIX_COUNT 0, and
neither PIX nor PROGRESS written (R102, R105, R203). -/
def Obligations.EncodeStepRaisesPaletteTooSmall : Prop :=
  ∀ (s : State) (idx : Nat),
    s.eng.phase = .encoding → s.eng.i ≠ s.eng.G → (hasCheckpoint s.eng.sch = true → s.ctrl.cancel = false) →
    group s s.eng.i = .error (.paletteTooSmall idx) →
    engineTurn s = .next { s with
      status := { s.status with busy := false, done := true, err := 2 }
      errInfo := BitVec.ofNat 64 idx, pixCount := 0, eng := { s.eng with phase := .idle } }

/-- The last step of an ENCODE writes PIX_COUNT and DONE whatever CANCEL holds; a checkpoint that sees CANCEL = 1 before
the last group also sets CANCELLED, with ERR unchanged (R102, R103, R206, R208). -/
def Obligations.EncodeEndsNormallyOrAtACheckpoint : Prop :=
  (∀ s : State, s.eng.phase = .encoding → s.eng.i = s.eng.G →
    engineTurn s = .next { s with
      status := { s.status with busy := false, done := true }
      pixCount := BitVec.ofNat 64 s.eng.out, eng := { s.eng with phase := .idle } }) ∧
  (∀ s : State, s.eng.phase = .encoding → s.eng.i ≠ s.eng.G →
    (s.eng.sch = .one ∨ s.eng.sch = .two ∨ s.eng.sch = .four) → s.ctrl.cancel = true →
    engineTurn s = .next { s with
      status := { s.status with busy := false, done := true, cancelled := true }
      pixCount := BitVec.ofNat 64 s.eng.out, eng := { s.eng with phase := .idle } })

/-- The pixels of a byte at 1, 2 and 4 bpp: bit 0 first, the pair at bit 0 first, the high nibble first, each the palette
entry of its index (R110, R111, R112). -/
def Obligations.SubByteGroupsFollowTheBitOrders : Prop :=
  ∀ (s : State) (i : Nat) (x : Byte) (c : Nat → Pixel), s.src.read i = some x →
    (s.eng.sch = .one → (∀ j, j < 2 → j < s.eng.PL.toNat ∧ s.pal.read j = some (c j)) →
      group s i = .ok ((List.range 8).map fun b => c (x.toNat / 2 ^ b % 2))) ∧
    (s.eng.sch = .two → (∀ j, j < 4 → j < s.eng.PL.toNat ∧ s.pal.read j = some (c j)) →
      group s i = .ok ((List.range 4).map fun b => c (x.toNat / 2 ^ (2 * b) % 4))) ∧
    (s.eng.sch = .four → (∀ j, j < 16 → j < s.eng.PL.toNat ∧ s.pal.read j = some (c j)) →
      group s i = .ok [c (x.toNat / 16), c (x.toNat % 16)])

/-- The pixel of a byte at 8 bpp and of a byte pair at 16 bpp, big-endian, a missing low byte read as 0 (R57, R113,
R114). -/
def Obligations.ByteAndPairGroupsIndexThePalette : Prop :=
  (∀ (s : State) (i : Nat) (x : Byte) (p : Pixel), s.eng.sch = .eight → s.src.read i = some x →
    x.toNat < s.eng.PL.toNat → s.pal.read x.toNat = some p → group s i = .ok [p]) ∧
  (∀ (s : State) (i : Nat) (hi lo : Byte) (p : Pixel), s.eng.sch = .sixteen → s.src.read (2 * i) = some hi →
    (if 2 * i + 1 < s.eng.L.toNat then s.src.read (2 * i + 1) = some lo else lo = 0) →
    hi.toNat * 256 + lo.toNat < s.eng.PL.toNat → s.pal.read (hi.toNat * 256 + lo.toNat) = some p →
    group s i = .ok [p])

/-- The pixel of four bytes at 32 bpp: A, R, G, B from the most significant down, each missing tail byte 0, and no palette
(R57, R115). -/
def Obligations.QuadGroupsAssembleArgb : Prop :=
  ∀ (s : State) (i : Nat) (q : Nat → Byte), s.eng.sch = .thirtyTwo →
    (∀ t, t < 4 → if 4 * i + t < s.eng.L.toNat then s.src.read (4 * i + t) = some (q t) else q t = 0) →
    ∃ p : Pixel, group s i = .ok [p] ∧
      p.toNat = (q 0).toNat * 2 ^ 24 + (q 1).toNat * 2 ^ 16 + (q 2).toNat * 2 ^ 8 + (q 3).toNat

/-- PaletteTooSmall (R105, R205): with `f 0, …, f (n - 1)` the color indices of group `i` in production order (R110 to
R114), the group raises it with index `idx` exactly if `idx` is the first of them that is not below the latched PAL_LEN
and the entries before it are written. That an earlier unwritten entry faults (R56) before a later index is reported is
deduced, not stated by R105 or R205 (log 16). -/
def Obligations.FirstOffendingIndexIsReported : Prop :=
  ∀ (s : State) (i n : Nat) (f : Nat → Nat),
    ((s.eng.sch = .one ∧ n = 8 ∧ ∃ x, s.src.read i = some x ∧ ∀ j, f j = x.toNat / 2 ^ j % 2) ∨
      (s.eng.sch = .two ∧ n = 4 ∧ ∃ x, s.src.read i = some x ∧ ∀ j, f j = x.toNat / 2 ^ (2 * j) % 4) ∨
      (s.eng.sch = .four ∧ n = 2 ∧ ∃ x, s.src.read i = some x ∧
        ∀ j, f j = if j = 0 then x.toNat / 16 else x.toNat % 16) ∨
      (s.eng.sch = .eight ∧ n = 1 ∧ ∃ x, s.src.read i = some x ∧ ∀ j, f j = x.toNat) ∨
      (s.eng.sch = .sixteen ∧ n = 1 ∧ ∃ hi lo, s.src.read (2 * i) = some hi ∧
        (if 2 * i + 1 < s.eng.L.toNat then s.src.read (2 * i + 1) = some lo else lo = 0) ∧
        ∀ j, f j = hi.toNat * 256 + lo.toNat)) →
    ∀ idx : Nat, group s i = .error (.paletteTooSmall idx) ↔
      ∃ j : Nat, j < n ∧ f j = idx ∧ s.eng.PL.toNat ≤ idx ∧
        ∀ k, k < j → f k < s.eng.PL.toNat ∧ ∃ p, s.pal.read (f k) = some p

/-- 8, 16 and 32 bpp never read CTRL.CANCEL: a step with any other CANCEL does the same (R103, R246). -/
def Obligations.ByteSchemesIgnoreCancel : Prop :=
  ∀ (s : State) (c : Ctrl), s.eng.phase = .encoding → hasCheckpoint s.eng.sch = false →
    engineTurn { s with ctrl := c } = andThen (engineTurn s) fun t => .next { t with ctrl := c }

/-- The 32 bpp count for a length that is no multiple of 4 is the least multiple of 4 not below len/4, with len/4 the
exact quotient or its floor (R101; conflict C5). -/
def Obligations.PixelCount32IsTheLeastMultipleOfFour : Prop :=
  ∀ len : Nat,
    (len % 4 = 0 → ∀ mode, count32 mode len = len / 4) ∧
    (len % 4 ≠ 0 →
      (count32 .exact len % 4 = 0 ∧ len ≤ 4 * count32 .exact len ∧
        ∀ m, m % 4 = 0 → len ≤ 4 * m → count32 .exact len ≤ m) ∧
      (count32 .floor len % 4 = 0 ∧ len / 4 ≤ count32 .floor len ∧
        ∀ m, m % 4 = 0 → len / 4 ≤ m → count32 .floor len ≤ m))

/-- The pixel counts of R124: the empty stream encodes to no pixels for every supported scheme, and a result has 8L, 4L,
2L, L, ceil(L/2) or N32(L) pixels. -/
def Obligations.EncodedLengthsAreTheStatedCounts : Prop :=
  ∀ (mode : LenMode) (pal : List Pixel),
    (∀ (sch : Scheme), sch ≠ .invalid → sch ≠ .twentyFourBpp → refEncode mode sch [] pal = .ok []) ∧
    (∀ (sch : Scheme) (b : List Byte) (out : List Pixel), refEncode mode sch b pal = .ok out →
      (sch = .oneBpp → out.length = 8 * b.length) ∧ (sch = .twoBpp → out.length = 4 * b.length) ∧
      (sch = .fourBpp → out.length = 2 * b.length) ∧ (sch = .eightBpp → out.length = b.length) ∧
      (sch = .sixteenBpp → out.length = (b.length + 1) / 2) ∧
      (sch = .thirtyTwoBpp → out.length = count32 mode b.length))

/-- Adequacy (R123): an ENCODE run to its end from loaded inputs, with no cancel seen, leaves the reference result: the
pixels and their count, or the first offending index as PaletteTooSmall. The host is idle meanwhile, so every step is the
engine's (the model's schedule, log 2). -/
def Obligations.EncodeRunMeetsTheReference : Prop :=
  ∀ (i : Instr) (p : Packing) (s : State) (b : List Byte) (pal : List Pixel),
    encodePacking i = some p → s.cfg.valid → s.status.busy = false → s.agenda = [] →
    s.srcLen.toNat = b.length → (∀ j, j < b.length → s.src.read j = b[j]?) →
    (p ≠ .thirtyTwo → s.palLen.toNat = pal.length ∧ pal.length ≤ 65536 ∧
      ∀ j, j < pal.length → s.pal.read j = pal[j]?) →
    b.length ≤ s.cfg.srcCap → pixelTotal s.cfg.lenMode p b.length ≤ s.cfg.pixCap →
    (hasCheckpoint p = true → s.ctrl.cancel = false) →
    ∃ t u, exec i s = .next t ∧ run (groupCount s.cfg.lenMode p b.length + 1) t = .next u ∧
      u.status.busy = false ∧ u.status.done = true ∧ u.status.cancelled = false ∧
      match refPixels s.cfg.lenMode p b pal with
      | .ok out => u.status.err = 0 ∧ u.errInfo = 0 ∧ u.pixCount.toNat = out.length ∧
          ∀ k, k < out.length → u.pix.read k = out[k]?
      | .error idx => u.status.err = 2 ∧ u.errInfo.toNat = idx ∧ u.pixCount = 0

/-- Cancellation (R104, R123): if the host sets CANCEL after `j` of the groups, an ENCODE at 1, 2 or 4 bpp ends cancelled
with the first `j * ppg` pixels of the reference and that count. The agenda is the model's schedule (log 1, log 2). -/
def Obligations.CancelledEncodeIsAPrefixOfTheReference : Prop :=
  ∀ (i : Instr) (p : Packing) (s : State) (b : List Byte) (pal out : List Pixel) (j : Nat),
    encodePacking i = some p → hasCheckpoint p = true → s.cfg.valid → s.status.busy = false →
    s.ctrl.cancel = false → s.agenda = List.replicate j .engine ++ [.writeReg 2 1, .engine] →
    s.srcLen.toNat = b.length → (∀ k, k < b.length → s.src.read k = b[k]?) →
    s.palLen.toNat = pal.length → pal.length ≤ 65536 → (∀ k, k < pal.length → s.pal.read k = pal[k]?) →
    b.length ≤ s.cfg.srcCap → pixelTotal s.cfg.lenMode p b.length ≤ s.cfg.pixCap → j < b.length →
    collect (refPixel p b pal) (List.range (j * pixelsPerGroup p)) = .ok out →
    ∃ t u, exec i s = .next t ∧ run (j + 2) t = .next u ∧
      u.status.busy = false ∧ u.status.done = true ∧ u.status.cancelled = true ∧ u.status.err = 0 ∧
      u.pixCount.toNat = j * pixelsPerGroup p ∧ ∀ k, k < out.length → u.pix.read k = out[k]?

/-! ### SIZE -/

/-- SIZE with a count of at least 1 writes the raster size within its write (R130). -/
def Obligations.SizeWritesWidthAndHeight : Prop :=
  ∀ s : State, s.status.busy = false → s.pixCount ≠ 0 →
    exec .size s = .next { s with
      cmd := 2, errInfo := 0
      status := { busy := false, done := true, cancelled := false, ovr := false, err := 0, lastOp := 2 }
      eng := { s.eng with phase := .idle }
      width := BitVec.ofNat 64 (rasterSize s.pixCount.toNat).1
      height := BitVec.ofNat 64 (rasterSize s.pixCount.toNat).2 }

/-- SIZE of the count 0 ends with ZeroPixelCount and writes neither WIDTH nor HEIGHT (R133). -/
def Obligations.SizeOfZeroEndsWithErrorFive : Prop :=
  ∀ s : State, s.status.busy = false → s.pixCount = 0 →
    exec .size s = .next { s with
      cmd := 2, errInfo := 0
      status := { busy := false, done := true, cancelled := false, ovr := false, err := 5, lastOp := 2 }
      eng := { s.eng with phase := .idle } }

/-- The size function (R131): with `s` the greatest natural whose square does not exceed `n`, the pair is (s, s) for a
square, else (s, s + ceil((n - s*s) / s)). -/
def Obligations.RasterSizeFollowsTheAlgorithm : Prop :=
  ∀ n s : Nat, 1 ≤ n → s * s ≤ n → n < (s + 1) * (s + 1) →
    rasterSize n = if s * s = n then (s, s) else (s, s + (n - s * s + s - 1) / s)

/-- The five laws of `size` (R132). -/
def Obligations.RasterSizeLaws : Prop :=
  ∀ n w h : Nat, 1 ≤ n → rasterSize n = (w, h) →
    (1 ≤ w ∧ w * w ≤ n ∧ n < (w + 1) * (w + 1)) ∧
    n ≤ w * h ∧
    ((w * w = n → h = w) ∧ (w * w ≠ n → n - w * w ≤ w → h = w + 1) ∧ (w < n - w * w → h = w + 2) ∧
      w ≤ h ∧ h ≤ w + 2) ∧
    ((w * w ≠ n → w * h - n < w) ∧ (w * w = n → w * h = n)) ∧
    (n < 2 ^ 64 → w ≤ 2 ^ 32 - 1 ∧ h ≤ 2 ^ 32 + 1)

/-! ### ASSEMBLE -/

/-- ASSEMBLE starts (R140, R141): within the capacities, the latches, and `FB[0 .. 4*w*h)` cleared with every other FB byte
as before. -/
def Obligations.AssembleStartsWithClearedFrame : Prop :=
  ∀ s : State, s.status.busy = false → s.pixCount.toNat ≤ s.cfg.pixCap →
    4 * s.width.toNat * s.height.toNat ≤ s.cfg.fbCap →
    ∃ fb', exec .assemble s = .next { s with
        cmd := 3, errInfo := 0, progress := 0, fb := fb'
        status := { busy := true, done := false, cancelled := false, ovr := false, err := 0, lastOp := 3 }
        eng := { s.eng with
          phase := .assembling, n := s.pixCount, w := s.width, h := s.height
          stride := 4 * s.width.toNat, r := 0 } } ∧
      ∀ a, fb'.read a = if a < 4 * s.width.toNat * s.height.toNat then some 0 else s.fb.read a

/-- ASSEMBLE with a count or a frame beyond its capacity ends at once with code 7 and changes no memory (R140, R203). -/
def Obligations.AssembleBeyondCapacityEndsWithErrorSeven : Prop :=
  ∀ s : State, s.status.busy = false →
    (s.cfg.pixCap < s.pixCount.toNat ∨ s.cfg.fbCap < 4 * s.width.toNat * s.height.toNat) →
    exec .assemble s = .next { s with
      cmd := 3, errInfo := 0
      status := { busy := false, done := true, cancelled := false, ovr := false, err := 7, lastOp := 3 }
      eng := { s.eng with phase := .idle } }

/-- A row step (R142 to R145): cell `row * w + col` holds its pixel, or 0 from the latched count on, in the order blue,
green, red, alpha; every other FB byte, and all else but PROGRESS and the row counter, is as before. -/
def Obligations.AssembleStepStoresTheRow : Prop :=
  ∀ (s : State) (px : Nat → Pixel),
    s.eng.phase = .assembling → s.eng.r ≠ s.eng.h.toNat → s.ctrl.cancel = false →
    s.eng.stride = 4 * s.eng.w.toNat →
    (∀ col, col < s.eng.w.toNat →
      if s.eng.r * s.eng.w.toNat + col < s.eng.n.toNat then
        s.pix.read (s.eng.r * s.eng.w.toNat + col) = some (px col)
      else px col = 0) →
    ∃ fb', engineTurn s = .next { s with
        fb := fb', progress := BitVec.ofNat 32 (s.eng.r * 100 / s.eng.h.toNat)
        eng := { s.eng with r := s.eng.r + 1 } } ∧
      (∀ col, col < s.eng.w.toNat →
        fb'.read (s.eng.r * s.eng.stride + 4 * col) = some ((px col).extractLsb' 0 8) ∧
        fb'.read (s.eng.r * s.eng.stride + 4 * col + 1) = some ((px col).extractLsb' 8 8) ∧
        fb'.read (s.eng.r * s.eng.stride + 4 * col + 2) = some ((px col).extractLsb' 16 8) ∧
        fb'.read (s.eng.r * s.eng.stride + 4 * col + 3) = some ((px col).extractLsb' 24 8)) ∧
      (∀ a, (a < s.eng.r * s.eng.stride ∨ s.eng.r * s.eng.stride + s.eng.stride ≤ a) →
        fb'.read a = s.fb.read a)

/-- The last step of an ASSEMBLE sets DONE whatever CANCEL holds; a checkpoint that sees CANCEL = 1 also sets CANCELLED,
with ERR unchanged; no result register is written (R142, R145, R146, R208). -/
def Obligations.AssembleEndsNormallyOrAtACheckpoint : Prop :=
  (∀ s : State, s.eng.phase = .assembling → s.eng.r = s.eng.h.toNat →
    engineTurn s = .next { s with
      status := { s.status with busy := false, done := true }, eng := { s.eng with phase := .idle } }) ∧
  (∀ s : State, s.eng.phase = .assembling → s.eng.r ≠ s.eng.h.toNat → s.ctrl.cancel = true →
    engineTurn s = .next { s with
      status := { s.status with busy := false, done := true, cancelled := true }
      eng := { s.eng with phase := .idle } })

/-- The channel order (R143): the four bytes of a pixel's FB cell are its blue, green, red and alpha bytes. -/
def Obligations.FramebufferChannelOrder : Prop :=
  ∀ a r g b : Byte, bgra (argb a r g b) = [b, g, r, a]

/-- Adequacy (R147): an ASSEMBLE run to its end from written pixels, with no cancel seen, leaves the reference
framebuffer, and every FB byte beyond it as before. The host is idle meanwhile, so every step is the engine's (the model's
schedule, log 2). -/
def Obligations.AssembleRunMeetsTheReference : Prop :=
  ∀ (s : State) (px : List Pixel),
    s.status.busy = false → s.agenda = [] → s.ctrl.cancel = false →
    s.pixCount.toNat = px.length → (∀ k, k < px.length → s.pix.read k = px[k]?) →
    px.length ≤ s.cfg.pixCap → 4 * s.width.toNat * s.height.toNat ≤ s.cfg.fbCap →
    ∃ t u, exec .assemble s = .next t ∧ run (s.height.toNat + 1) t = .next u ∧
      u.status.busy = false ∧ u.status.done = true ∧ u.status.cancelled = false ∧ u.status.err = 0 ∧
      (∀ a, a < 4 * s.width.toNat * s.height.toNat →
        u.fb.read a = (refAssemble px s.width.toNat s.height.toNat)[a]?) ∧
      ∀ a, 4 * s.width.toNat * s.height.toNat ≤ a → u.fb.read a = s.fb.read a

/-- Cancellation (R145, R147): if the host sets CANCEL after `j` of the rows, rows `0 .. j-1` are the reference's and the
remaining rows are 0. The agenda is the model's schedule (log 1, log 2). -/
def Obligations.CancelledAssembleLeavesZeroRows : Prop :=
  ∀ (s : State) (px : List Pixel) (j : Nat),
    s.status.busy = false → s.ctrl.cancel = false →
    s.agenda = List.replicate j .engine ++ [.writeReg 2 1, .engine] →
    s.pixCount.toNat = px.length → (∀ k, k < px.length → s.pix.read k = px[k]?) →
    px.length ≤ s.cfg.pixCap → 4 * s.width.toNat * s.height.toNat ≤ s.cfg.fbCap → j < s.height.toNat →
    ∃ t u, exec .assemble s = .next t ∧ run (j + 2) t = .next u ∧
      u.status.busy = false ∧ u.status.done = true ∧ u.status.cancelled = true ∧ u.status.err = 0 ∧
      (∀ a, a < 4 * s.width.toNat * j →
        u.fb.read a = (refAssemble px s.width.toNat s.height.toNat)[a]?) ∧
      ∀ a, 4 * s.width.toNat * j ≤ a → a < 4 * s.width.toNat * s.height.toNat → u.fb.read a = some 0

/-! ### MAP and FORMAT -/

/-- MAP.1BPP, .2BPP and .4BPP in range, whatever the engine is doing: with `k = y*W + x`, the offset and bit index of R163
to R165, MSTATUS 0x400, nothing else changed; AddressOverflow cannot occur. -/
def Obligations.BitAddressedMapsWriteOffsetAndBit : Prop :=
  ∀ (s : State) (k : Nat), s.mapX.toNat < s.mapW.toNat → s.mapY.toNat < s.mapH.toNat →
    k = s.mapY.toNat * s.mapW.toNat + s.mapX.toNat →
    exec .map1bpp s = .next { s with
      mcmd := 0x04, mstatus := { err := 0, lastOp := 4 }
      mapOffset := BitVec.ofNat 64 (k / 8), mapBit := BitVec.ofNat 32 (k % 8) } ∧
    exec .map2bpp s = .next { s with
      mcmd := 0x14, mstatus := { err := 0, lastOp := 4 }
      mapOffset := BitVec.ofNat 64 (k / 4), mapBit := BitVec.ofNat 32 (2 * (k % 4)) } ∧
    exec .map4bpp s = .next { s with
      mcmd := 0x24, mstatus := { err := 0, lastOp := 4 }
      mapOffset := BitVec.ofNat 64 (k / 2), mapBit := BitVec.ofNat 32 (4 * (k % 2)) } ∧
    k < 2 ^ 64

/-- MAP.8BPP, .16BPP, .24BPP and .32BPP in range: with `k = y*W + x` and `m` bytes per pixel, the offset is `m*k` and the
bit index -1 where `m*k` fits 64 bits, as it always does for m = 1 (R166 to R169). -/
def Obligations.ByteAddressedMapsWriteOffset : Prop :=
  ∀ (i : Instr) (m : Nat) (s : State) (k : Nat), mapBytesPerPixel i = some m →
    s.mapX.toNat < s.mapW.toNat → s.mapY.toNat < s.mapH.toNat →
    k = s.mapY.toNat * s.mapW.toNat + s.mapX.toNat → (m = 1 ∨ m * k < 2 ^ 64) →
    exec i s = .next { s with
      mcmd := encode i, mstatus := { err := 0, lastOp := 4 }
      mapOffset := BitVec.ofNat 64 (m * k), mapBit := 0xFFFFFFFF } ∧
    m * k < 2 ^ 64

/-- A byte offset of 2^64 or more raises AddressOverflow and changes neither MAP_OFFSET nor MAP_BIT (R172). -/
def Obligations.OverflowingMapEndsWithErrorEight : Prop :=
  ∀ (i : Instr) (m : Nat) (s : State), mapBytesPerPixel i = some m →
    s.mapX.toNat < s.mapW.toNat → s.mapY.toNat < s.mapH.toNat →
    2 ^ 64 ≤ m * (s.mapY.toNat * s.mapW.toNat + s.mapX.toNat) →
    exec i s = .next { s with mcmd := encode i, mstatus := { err := 8, lastOp := 4 } }

/-- A coordinate outside the raster raises CoordOutOfRange, for every scheme, and changes nothing else (R171). -/
def Obligations.OutOfRangeMapEndsWithErrorSix : Prop :=
  ∀ (i : Instr) (s : State), (mapBytesPerPixel i ≠ none ∨ mapBitsPerPixel i ≠ none) →
    (s.mapW.toNat ≤ s.mapX.toNat ∨ s.mapH.toNat ≤ s.mapY.toNat) →
    exec i s = .next { s with mcmd := encode i, mstatus := { err := 6, lastOp := 4 } }

/-- MAP.INVALID, under each of its codes, raises InvalidScheme whatever the coordinates (R170). -/
def Obligations.InvalidMapEndsWithErrorOne : Prop :=
  ∀ (i : Instr) (s : State), (i = .mapInvalid ∨ ∃ sch : BitVec 4, 8 ≤ sch.toNat ∧ i = .mapInvalidSch sch) →
    exec i s = .next { s with mcmd := encode i, mstatus := { err := 1, lastOp := 4 } }

/-- The round-trip law (R173): for pixel `k` on a raster of width `W`, MAP names the bytes the encoder read, exactly for
every scheme but 4 bpp, whose bit index names the other nibble. -/
def Obligations.MapInvertsThePackingUpToFourBpp : Prop :=
  ∀ (b : List Byte) (W k : Nat), 0 < W →
    (∃ off bi : Nat, sourceAddress .oneBpp W (k % W) (k / W) = some (off, (bi : Int)) ∧
      refIndex .one b k = refByte b off / 2 ^ bi % 2) ∧
    (∃ off bi : Nat, sourceAddress .twoBpp W (k % W) (k / W) = some (off, (bi : Int)) ∧
      refIndex .two b k = refByte b off / 2 ^ bi % 4) ∧
    (∃ off bi : Nat, sourceAddress .fourBpp W (k % W) (k / W) = some (off, (bi : Int)) ∧ bi ≤ 4 ∧
      refIndex .four b k = refByte b off / 2 ^ (4 - bi) % 16) ∧
    (∃ off : Nat, sourceAddress .eightBpp W (k % W) (k / W) = some (off, -1) ∧ refIndex .eight b k = refByte b off) ∧
    (∃ off : Nat, sourceAddress .sixteenBpp W (k % W) (k / W) = some (off, -1) ∧
      refIndex .sixteen b k = refByte b off * 256 + refByte b (off + 1)) ∧
    (∃ off : Nat, sourceAddress .thirtyTwoBpp W (k % W) (k / W) = some (off, -1) ∧
      ∀ pal, refPixel .thirtyTwo b pal k = .ok (BitVec.ofNat 32 (refByte b off * 2 ^ 24 +
        refByte b (off + 1) * 2 ^ 16 + refByte b (off + 2) * 2 ^ 8 + refByte b (off + 3))))

/-- FORMAT writes its text from STR[0], zeros up to the capacity, and the text's length, which is at most 29; it changes
MCMD, MSTATUS, STR and STR_LEN alone (R180, R183). -/
def Obligations.FormatWritesTheAddressText : Prop :=
  ∀ s : State, ∃ str', exec .format s = .next { s with
      mcmd := 0x05, mstatus := { err := 0, lastOp := 5 }, str := str'
      strLen := BitVec.ofNat 32 (addressText s.mapOffset s.mapBit).length } ∧
    (addressText s.mapOffset s.mapBit).length ≤ 29 ∧
    (∀ a, a < 32 → str'.read a = some ((addressText s.mapOffset s.mapBit).getD a 0)) ∧
    (∀ a, 32 ≤ a → str'.read a = s.str.read a)

/-- `hex_upper(v, 8)` (R181): the digits 0-9 and A-F of the base-16 numeral of `v`, at least 8 of them, with a leading zero
only to fill up to 8. The codes of the digits are R183's, from general knowledge by its own mark (log 20). -/
def Obligations.HexNumeralOfTheOffset : Prop :=
  ∀ v : BitVec 64, ∃ ds : List Nat,
    hexUpper v = ds.map (fun d => if d < 10 then BitVec.ofNat 8 (0x30 + d) else BitVec.ofNat 8 (0x41 + d - 10)) ∧
    (∀ d ∈ ds, d < 16) ∧ ds.foldl (fun acc d => 16 * acc + d) 0 = v.toNat ∧
    8 ≤ ds.length ∧ (8 < ds.length → ds.head? ≠ some 0)

/-- The bit-index suffix (R182): for a non-negative bit index, the text ends in `:` and its decimal numeral with no leading
zero; for any negative one, not only -1, the text has no suffix. The codes of the characters are R183's, from general
knowledge by its own mark (log 20). -/
def Obligations.DecimalSuffixOnlyWhenNonNegative : Prop :=
  ∀ (off : BitVec 64) (bit : BitVec 32),
    (bit.toInt < 0 → addressText off bit = 0x30#8 :: 0x78#8 :: hexUpper off) ∧
    (0 ≤ bit.toInt → ∃ ds : List Nat,
      addressText off bit =
        0x30#8 :: 0x78#8 :: (hexUpper off ++ 0x3A#8 :: ds.map fun d => BitVec.ofNat 8 (0x30 + d)) ∧
      (∀ d ∈ ds, d < 10) ∧ (ds.foldl (fun acc d => 10 * acc + d) 0 : Nat) = bit.toInt ∧
      ds ≠ [] ∧ (1 < ds.length → ds.head? ≠ some 0))

/-! ### The whole machine -/

/-- Every reset state of admissible parameters meets the invariant (R230 to R232). -/
def Obligations.ResetMeetsTheInvariant : Prop := ∀ c : Config, c.valid → Inv (State.resetWith c)

/-- Every step, whatever the host does, keeps the invariant: canonical and bounded memories, the status rules of R23,
PROGRESS at most 99, and the latches of a running command. -/
def Obligations.EveryStepKeepsTheInvariant : Prop := ∀ s t : State, Inv s → step s = .next t → Inv t

/-- Termination (R252): from any legal state whose inputs are written, with the host idle, the running command ends within
its remaining engine steps, with DONE set. That an idle host gives the engine every step is the model's schedule (log 2). -/
def Obligations.RunningCommandTerminates : Prop :=
  ∀ s : State, Inv s → InputsWritten s → s.agenda = [] →
    ∃ t, run (stepsLeft s) s = .next t ∧ t.status.busy = false ∧ (s.status.busy = true → t.status.done = true)

/-- With its inputs written, the engine always has a next state (R56). -/
def Obligations.EngineRunsOnWrittenInputs : Prop :=
  ∀ s : State, Inv s → InputsWritten s → ∃ t, engineTurn s = .next t

/-- The engine stops only on an element that no agent has written and that the running command may read, and it is never
refused (R51, R52, R56). -/
def Obligations.EngineFaultsNameUnwrittenElements : Prop :=
  ∀ s : State, Inv s →
    (∀ a, engineTurn s = .fault (.unwrittenSrc a) → s.src.read a = none ∧ a < s.eng.L.toNat) ∧
    (∀ a, engineTurn s = .fault (.unwrittenPal a) → s.pal.read a = none ∧ a < s.eng.PL.toNat) ∧
    (∀ a, engineTurn s = .fault (.unwrittenPix a) → s.pix.read a = none ∧ a < s.eng.n.toNat) ∧
    (∀ r, engineTurn s ≠ .refused r)

/-- The block writes PIX only in ENCODE steps, FB only in ASSEMBLE, STR only in FORMAT, and SRC and PAL never (R50). -/
def Obligations.OnlyTheOwningCommandWritesAMemory : Prop :=
  (∀ s t : State, engineTurn s = .next t →
    t.src = s.src ∧ t.pal = s.pal ∧ t.str = s.str ∧ (s.eng.phase ≠ .encoding → t.pix = s.pix) ∧
    (s.eng.phase ≠ .assembling → t.fb = s.fb)) ∧
  (∀ (i : Instr) (s t : State), exec i s = .next t →
    t.src = s.src ∧ t.pal = s.pal ∧ t.pix = s.pix ∧ (i ≠ .assemble → t.fb = s.fb) ∧ (i ≠ .format → t.str = s.str))

/-- CTRL changes only by a host write to it or by reset: the block never clears CANCEL (R29). -/
def Obligations.CancelChangesOnlyByHostOrReset : Prop :=
  ∀ s t : State, step s = .next t → t.ctrl ≠ s.ctrl →
    (∃ v rest, s.agenda = .writeReg 2 v :: rest) ∨ ∃ rest, s.agenda = .reset :: rest

/-- A mapper command and an engine step commute: neither reads what the other writes (R5, R32, R214). -/
def Obligations.MapperAndEngineCommute : Prop :=
  ∀ (i : Instr) (s : State), i.port = .mcmd →
    andThen (exec i s) engineTurn = andThen (engineTurn s) (exec i)

/-- A mapper command changes mapper registers and STR alone, and an engine command or step changes none of them
(R32). -/
def Obligations.MapperAndEngineStateAreSeparate : Prop :=
  (∀ (i : Instr) (s : State), i.port = .mcmd → ∃ m ms off bi str len, exec i s = .next { s with
    mcmd := m, mstatus := ms, mapOffset := off, mapBit := bi, str := str, strLen := len }) ∧
  (∀ (i : Instr) (s t : State), i.port = .cmd → (exec i s = .next t ∨ engineTurn s = .next t) →
    t.mcmd = s.mcmd ∧ t.mstatus = s.mstatus ∧ t.mapW = s.mapW ∧ t.mapH = s.mapH ∧ t.mapX = s.mapX ∧
    t.mapY = s.mapY ∧ t.mapOffset = s.mapOffset ∧ t.mapBit = s.mapBit ∧ t.str = s.str ∧ t.strLen = s.strLen)

/-- A running command reads its operands from the latches alone: a host write to an operand register while it runs does not
affect it. A written PIX_COUNT stays unless an ENCODE ends in that step, which leaves the count it leaves without the
write (R33, R206). -/
def Obligations.RunningCommandReadsOnlyLatches : Prop :=
  (∀ (s : State) (len w h : BitVec 64) (pl : BitVec 32),
    engineTurn { s with srcLen := len, palLen := pl, width := w, height := h } =
      andThen (engineTurn s) fun t => .next { t with srcLen := len, palLen := pl, width := w, height := h }) ∧
  (∀ (s : State) (n : BitVec 64),
    engineTurn { s with pixCount := n } = andThen (engineTurn s) fun t => .next { t with
      pixCount := if s.eng.phase = .encoding ∧ t.eng.phase = .idle then t.pixCount else n })

/-- The host's reads (R20, R21, R23, R29, R32, R55, R63): the register of each number, with the bits of STATUS, MSTATUS and
CTRL in their places, 0 for the unused numbers 19 to 31, the element or 0 beyond the capacity; no read changes the block.
What an unwritten element gives is any value, the model's free value (log 5); that the value read stands in a 64-bit
field, zero-extended, is the model's choice (log 7). -/
def Obligations.HostReadsHaveNoSideEffect : Prop :=
  (∀ (s : State) (rest : List Event) (n : BitVec 5), s.agenda = .readReg n :: rest →
    ∃ v, step s = .next { s with agenda := rest, readData := v } ∧
      v.toNat = match n.toNat with
        | 0 => s.cmd.toNat
        | 1 => s.status.busy.toNat + 2 * s.status.done.toNat + 4 * s.status.cancelled.toNat +
            8 * s.status.ovr.toNat + 16 * s.status.err.toNat + 256 * s.status.lastOp.toNat
        | 2 => s.ctrl.cancel.toNat
        | 3 => s.progress.toNat
        | 4 => s.srcLen.toNat
        | 5 => s.palLen.toNat
        | 6 => s.pixCount.toNat
        | 7 => s.width.toNat
        | 8 => s.height.toNat
        | 9 => s.errInfo.toNat
        | 10 => s.mcmd.toNat
        | 11 => 16 * s.mstatus.err.toNat + 256 * s.mstatus.lastOp.toNat
        | 12 => s.mapW.toNat
        | 13 => s.mapH.toNat
        | 14 => s.mapX.toNat
        | 15 => s.mapY.toNat
        | 16 => s.mapOffset.toNat
        | 17 => s.mapBit.toNat
        | 18 => s.strLen.toNat
        | _ => 0) ∧
  (∀ (s : State) (rest : List Event) (sp : ByteSpace) (a : Nat), s.agenda = .readByte sp a :: rest →
    ∃ v c, step s = .next { s with agenda := rest, readData := v, freeCount := c } ∧
      (sp.capacity s.cfg ≤ a → v = 0) ∧
      (∀ x, a < sp.capacity s.cfg → (s.bytes sp).read a = some x → v = x.setWidth 64)) ∧
  (∀ (s : State) (rest : List Event) (sp : WordSpace) (a : Nat), s.agenda = .readWord sp a :: rest →
    ∃ v c, step s = .next { s with agenda := rest, readData := v, freeCount := c } ∧
      (sp.capacity s.cfg ≤ a → v = 0) ∧
      (∀ x, a < sp.capacity s.cfg → (s.words sp).read a = some x → v = x.setWidth 64))

/-- The host's register writes that issue no command (R20, R21, R29): a 64-bit register takes the value, a 32-bit one its low
32 bits, CTRL its bit 0; a read-only register or unused number ignores it; no other register, latch or memory changes. That the
upper 32 bits of a 32-bit register's read are 0 is the model's choice (log 7). -/
def Obligations.HostRegisterWritesStoreByWidth : Prop :=
  ∀ (s : State) (rest : List Event) (n : BitVec 5) (v : BitVec 64),
    s.agenda = .writeReg n v :: rest → n ≠ 0 → n ≠ 10 →
    ∃ t, step s = .next t ∧ t.agenda = rest ∧ t.cfg = s.cfg ∧ t.eng = s.eng ∧
      t.src = s.src ∧ t.pal = s.pal ∧ t.pix = s.pix ∧ t.fb = s.fb ∧ t.str = s.str ∧
      t.readData = s.readData ∧ t.freeCount = s.freeCount ∧
      (n.toNat ∈ [4, 6, 7, 8, 16] → t.readNumber n = v) ∧
      (n.toNat ∈ [5, 12, 13, 14, 15, 17] → t.readNumber n = v &&& 0xFFFFFFFF) ∧
      (n = 2 → t.readNumber n = v &&& 1) ∧
      ((n.toNat ∈ [1, 3, 9, 11, 18] ∨ 19 ≤ n.toNat) → t = { s with agenda := rest }) ∧
      ∀ m, m ≠ n → t.readNumber m = s.readNumber m

/-- The host's element writes (R50, R55, R63): within the capacity the element reads back and no other changes, beyond it
nothing changes. Of `STR[0 .. 32)`, which R50 lists as read for the host, the write is stored or has no effect, and no
rule says which: the model's free choice (log 8). -/
def Obligations.HostElementWritesStoreWithinCapacity : Prop :=
  (∀ (s : State) (rest : List Event) (sp : ByteSpace) (a : Nat) (v : Byte),
    s.agenda = .writeByte sp a v :: rest →
    (sp = .str → 32 ≤ a → step s = .next { s with agenda := rest }) ∧
    (sp = .str → a < 32 → ∃ str' c, step s = .next { s with agenda := rest, str := str', freeCount := c } ∧
      (str' = s.str ∨ ∀ b, str'.read b = if b = a then some v else s.str.read b)) ∧
    (sp ≠ .str → ∃ src' fb', step s = .next { s with agenda := rest, src := src', fb := fb' } ∧
      (sp = .src → fb' = s.fb ∧ ∀ b, src'.read b = if b = a ∧ a < s.cfg.srcCap then some v else s.src.read b) ∧
      (sp = .fb → src' = s.src ∧ ∀ b, fb'.read b = if b = a ∧ a < s.cfg.fbCap then some v else s.fb.read b))) ∧
  (∀ (s : State) (rest : List Event) (sp : WordSpace) (a : Nat) (v : Pixel),
    s.agenda = .writeWord sp a v :: rest →
    ∃ pal' pix', step s = .next { s with agenda := rest, pal := pal', pix := pix' } ∧
      (sp = .pal → pix' = s.pix ∧ ∀ b, pal'.read b = if b = a ∧ a < 65536 then some v else s.pal.read b) ∧
      (sp = .pix → pal' = s.pal ∧ ∀ b, pix'.read b = if b = a ∧ a < s.cfg.pixCap then some v else s.pix.read b))

/-- `MemWrite` then `MemRead` (R55): the written elements hold the values of the list, every other element is as before, and
the canonical form is kept. -/
def Obligations.MemWriteThenRead : Prop :=
  ∀ (w : Nat) (m : Memory w) (a : Nat) (vs : List (BitVec w)),
    (∀ k, k < vs.length → (m.writeList a vs).read (a + k) = vs[k]?) ∧
    (∀ b, (b < a ∨ a + vs.length ≤ b) → (m.writeList a vs).read b = m.read b) ∧
    (m.wf → (m.writeList a vs).wf)

/-- Reset at any time (R230, R231, R232): every register reads 0, every memory element is unwritten, the engine is idle with
every latch 0 and a running command is abandoned; the machine right after reset is such a state, whatever its parameters.
That a 32-bit register's read has upper bits 0 is the model's choice (log 7), and so is holding the scheme latch as a
packing, of which `one` is scheme code 0 (log 11). -/
def Obligations.ResetClearsRegistersAndAbandonsTheCommand : Prop :=
  (∀ (s : State) (rest : List Event), s.agenda = .reset :: rest →
    ∃ t, step s = .next t ∧ (∀ n, t.readNumber n = 0) ∧
      t.eng = { phase := .idle, sch := .one, L := 0, PL := 0, G := 0, ppg := 0, i := 0, out := 0,
                n := 0, w := 0, h := 0, stride := 0, r := 0 } ∧
      ∀ a, t.src.read a = none ∧ t.pal.read a = none ∧ t.pix.read a = none ∧ t.fb.read a = none ∧
        t.str.read a = none) ∧
  (∀ c : Config, (∀ n, (State.resetWith c).readNumber n = 0) ∧
    (State.resetWith c).eng = { phase := .idle, sch := .one, L := 0, PL := 0, G := 0, ppg := 0, i := 0, out := 0,
                                n := 0, w := 0, h := 0, stride := 0, r := 0 } ∧
    ∀ a, (State.resetWith c).src.read a = none ∧ (State.resetWith c).pal.read a = none ∧
      (State.resetWith c).pix.read a = none ∧ (State.resetWith c).fb.read a = none ∧
      (State.resetWith c).str.read a = none)

/-- The host's `wait` (R80): a poll reads STATUS; while BUSY = 1 the loop goes on, with an engine turn between two polls (the
model's schedule, log 9); else it is over. -/
def Obligations.WaitPollsUntilNotBusy : Prop :=
  ∀ (s : State) (rest : List Event), s.agenda = .poll :: rest →
    (s.status.busy = true → step s = .next { s with
      agenda := .engine :: .poll :: rest, readData := s.readNumber 1 }) ∧
    (s.status.busy = false → step s = .next { s with agenda := rest, readData := s.readNumber 1 })

/-- An idle engine takes no step (R24, R215), and with the host idle too the state stays as it is (log 2). -/
def Obligations.IdleEngineTakesNoStep : Prop :=
  ∀ s : State, s.eng.phase = .idle → engineTurn s = .next s ∧ (s.agenda = [] → step s = .next s)
end

