-- ==== Sys2Proof/Laws/Decode.lean ====
section
/-! SUPPORT. The fields of a command word as numbers, and the word they make up (30_encoding.md R70). -/

namespace Sys2Proof

theorem opField_toNat (w : Word) : (opField w).toNat = w.toNat % 16 := by
  simp [opField, BitVec.extractLsb'_toNat]

theorem schField_toNat (w : Word) : (schField w).toNat = w.toNat / 16 % 16 := by
  simp [schField, BitVec.extractLsb'_toNat, Nat.shiftRight_eq_div_pow]

theorem rsvField_toNat (w : Word) : (rsvField w).toNat = w.toNat / 256 := by
  have := w.isLt
  simp only [rsvField, BitVec.extractLsb'_toNat, Nat.shiftRight_eq_div_pow]
  omega

theorem commandWord_toNat (sch op : BitVec 4) : (commandWord sch op).toNat = 16 * sch.toNat + op.toNat := by
  revert sch op; decide

/-- A word whose reserved bits are 0 is the word of its two fields. -/
theorem word_of_fields {w : Word} (h : rsvField w = 0) : w = commandWord (schField w) (opField w) := by
  have h0 : (rsvField w).toNat = 0 := by rw [h]; rfl
  rw [rsvField_toNat] at h0
  apply BitVec.eq_of_toNat_eq
  rw [commandWord_toNat, schField_toNat, opField_toNat]
  omega

/-- Decoding a word splits on its reserved bits, then on its fields (R75). -/
theorem decode_cases (p : Port) (w : Word) :
    (rsvField w = 0 ∧ decode p w = decodeFields p (opField w) (schField w)) ∨
      (rsvField w ≠ 0 ∧ decode p w = .error .reservedNonzero) := by
  unfold decode
  by_cases h : rsvField w = 0
  · exact .inl ⟨h, by simp [h]⟩
  · exact .inr ⟨h, by simp only [h, if_false]⟩

end Sys2Proof
end

