-- ==== Sys2Proof/Laws/Memory.lean ====
section
/-! SUPPORT. What the memory operations do: reading after a write, and the canonical form and bounds they keep. -/

namespace Sys2Proof.Machine

variable {w : Nat}

@[simp] theorem Memory.read_nil (a : Nat) : Memory.read ([] : Memory w) a = none := rfl

@[simp] theorem Memory.read_cons (b : Nat) (v : BitVec w) (m : Memory w) (a : Nat) :
    Memory.read ((b, v) :: m) a = if b = a then some v else Memory.read m a := rfl

@[simp] theorem Memory.block_nil (a : Nat) : Memory.block a ([] : List (BitVec w)) = [] := rfl

@[simp] theorem Memory.block_cons (a : Nat) (v : BitVec w) (vs : List (BitVec w)) :
    Memory.block a (v :: vs) = (a, v) :: Memory.block (a + 1) vs := rfl

/-- Reading a concatenation: the first part decides where it has the index. -/
theorem Memory.read_append (m n : Memory w) (a : Nat) :
    Memory.read (m ++ n) a = (Memory.read m a).orElse fun _ => Memory.read n a := by
  induction m with
  | nil => rfl
  | cons c m ih =>
    obtain ⟨b, v⟩ := c
    by_cases h : b = a <;> simp [h, ih]

/-- Reading a memory cut down to the indices with a property. -/
theorem Memory.read_filter (m : Memory w) (q : Nat → Bool) (a : Nat) :
    Memory.read (m.filter fun c => q c.1) a = if q a then Memory.read m a else none := by
  induction m with
  | nil => simp
  | cons c m ih =>
    obtain ⟨b, v⟩ := c
    by_cases hq : q b <;> by_cases h : b = a <;> simp_all

theorem Memory.read_block (vs : List (BitVec w)) (a b : Nat) :
    Memory.read (Memory.block a vs) b = if a ≤ b then vs[b - a]? else none := by
  induction vs generalizing a with
  | nil => simp
  | cons v vs ih =>
    rw [Memory.block_cons, Memory.read_cons, ih]
    rcases Nat.lt_trichotomy a b with h | h | h
    · obtain ⟨d, rfl⟩ : ∃ d, b = a + 1 + d := ⟨b - a - 1, by omega⟩
      have e1 : a + 1 + d - (a + 1) = d := by omega
      have e2 : a + 1 + d - a = d + 1 := by omega
      simp [e1, e2, show a ≠ a + 1 + d by omega, show a ≤ a + 1 + d by omega]
    · simp [h]
    · simp [show a ≠ b by omega, show ¬a ≤ b by omega, show ¬a + 1 ≤ b by omega]

/-- `MemWrite` then `MemRead` (R55): inside the written range the new value, outside it the old one. -/
theorem Memory.read_writeList (m : Memory w) (a : Nat) (vs : List (BitVec w)) (b : Nat) :
    Memory.read (m.writeList a vs) b =
      if a ≤ b ∧ b < a + vs.length then vs[b - a]? else Memory.read m b := by
  have hl := Memory.read_filter m (fun c => decide (c < a)) b
  have hr := Memory.read_filter m (fun c => decide (a + vs.length ≤ c)) b
  rw [Memory.writeList, Memory.read_append, Memory.read_append, hl, hr, Memory.read_block]
  rcases Nat.lt_or_ge b a with h | h
  · simp [h, show ¬a ≤ b by omega, show ¬a + vs.length ≤ b by omega]
  · rcases Nat.lt_or_ge b (a + vs.length) with h' | h'
    · have : vs[b - a]? = some vs[b - a] := List.getElem?_eq_getElem (by omega)
      simp [h, h', this, show ¬b < a by omega]
    · have : vs[b - a]? = none := List.getElem?_eq_none (by omega)
      simp [h, h', this, show ¬b < a by omega, show ¬b < a + vs.length by omega]

theorem Memory.read_write (m : Memory w) (a : Nat) (v : BitVec w) (b : Nat) :
    Memory.read (m.write a v) b = if b = a then some v else Memory.read m b := by
  rw [Memory.write, Memory.read_writeList]
  by_cases h : b = a
  · simp [h]
  · have hn : ¬(a ≤ b ∧ b < a + [v].length) := by simp only [List.length_cons, List.length_nil]; omega
    rw [if_neg hn, if_neg h]

theorem Memory.mem_block (vs : List (BitVec w)) (a : Nat) (c : Nat × BitVec w) (h : c ∈ Memory.block a vs) :
    a ≤ c.1 ∧ c.1 < a + vs.length := by
  induction vs generalizing a with
  | nil => simp at h
  | cons v vs ih =>
    rw [Memory.block_cons, List.mem_cons] at h
    rcases h with rfl | h
    · simp
    · have := ih (a + 1) h
      simp only [List.length_cons]
      omega

theorem Memory.block_wf (vs : List (BitVec w)) (a : Nat) : (Memory.block a vs).wf := by
  induction vs generalizing a with
  | nil => exact List.Pairwise.nil
  | cons v vs ih =>
    refine List.Pairwise.cons (fun c hc => ?_) (ih (a + 1))
    have := Memory.mem_block vs (a + 1) c hc
    show a < c.1
    omega

/-- `MemWrite` keeps the canonical form. -/
theorem Memory.writeList_wf {m : Memory w} (h : m.wf) (a : Nat) (vs : List (BitVec w)) : (m.writeList a vs).wf := by
  refine List.pairwise_append.2 ⟨h.filter _, List.pairwise_append.2 ⟨Memory.block_wf vs a, h.filter _, ?_⟩, ?_⟩
  · intro c hc d hd
    have := Memory.mem_block vs a c hc
    have hd' := (List.mem_filter.1 hd).2
    simp only [decide_eq_true_eq] at hd'
    show c.1 < d.1
    omega
  · intro c hc d hd
    have hc' := (List.mem_filter.1 hc).2
    simp only [decide_eq_true_eq] at hc'
    show c.1 < d.1
    rcases List.mem_append.1 hd with hd | hd
    · have := Memory.mem_block vs a d hd
      omega
    · have hd' := (List.mem_filter.1 hd).2
      simp only [decide_eq_true_eq] at hd'
      omega

theorem Memory.write_wf {m : Memory w} (h : m.wf) (a : Nat) (v : BitVec w) : (m.write a v).wf :=
  Memory.writeList_wf h a [v]

/-- `MemWrite` within a capacity keeps every entry below it. -/
theorem Memory.writeList_below {m : Memory w} {cap : Nat} (h : m.below cap) {a : Nat} {vs : List (BitVec w)}
    (ha : vs = [] ∨ a + vs.length ≤ cap) : (m.writeList a vs).below cap := by
  intro c hc
  rcases List.mem_append.1 hc with hc | hc
  · exact h c (List.mem_of_mem_filter hc)
  · rcases List.mem_append.1 hc with hc | hc
    · have := Memory.mem_block vs a c hc
      rcases ha with rfl | ha
      · simp at hc
      · omega
    · exact h c (List.mem_of_mem_filter hc)

theorem Memory.write_below {m : Memory w} {cap : Nat} (h : m.below cap) {a : Nat} (ha : a < cap) (v : BitVec w) :
    (m.write a v).below cap :=
  Memory.writeList_below h (.inr (by simpa using ha))

end Sys2Proof.Machine
end

