-- ==== Sys2Proof/Laws/State.lean ====
section
/-! SUPPORT. One lemma per field per update of State: what each named operation leaves in each field. -/

namespace Sys2Proof.Machine

variable (s : State)

/-! Acceptance of an engine word (R200). -/

@[simp] theorem State.accept_cfg (w : Word) : (s.accept w).cfg = s.cfg := rfl
@[simp] theorem State.accept_cmd (w : Word) : (s.accept w).cmd = w := rfl
@[simp] theorem State.accept_status (w : Word) : (s.accept w).status = s.status.accepted (opField w) := rfl
@[simp] theorem State.accept_ctrl (w : Word) : (s.accept w).ctrl = s.ctrl := rfl
@[simp] theorem State.accept_progress (w : Word) : (s.accept w).progress = s.progress := rfl
@[simp] theorem State.accept_srcLen (w : Word) : (s.accept w).srcLen = s.srcLen := rfl
@[simp] theorem State.accept_palLen (w : Word) : (s.accept w).palLen = s.palLen := rfl
@[simp] theorem State.accept_pixCount (w : Word) : (s.accept w).pixCount = s.pixCount := rfl
@[simp] theorem State.accept_width (w : Word) : (s.accept w).width = s.width := rfl
@[simp] theorem State.accept_height (w : Word) : (s.accept w).height = s.height := rfl
@[simp] theorem State.accept_errInfo (w : Word) : (s.accept w).errInfo = 0 := rfl
@[simp] theorem State.accept_mcmd (w : Word) : (s.accept w).mcmd = s.mcmd := rfl
@[simp] theorem State.accept_mstatus (w : Word) : (s.accept w).mstatus = s.mstatus := rfl
@[simp] theorem State.accept_mapW (w : Word) : (s.accept w).mapW = s.mapW := rfl
@[simp] theorem State.accept_mapH (w : Word) : (s.accept w).mapH = s.mapH := rfl
@[simp] theorem State.accept_mapX (w : Word) : (s.accept w).mapX = s.mapX := rfl
@[simp] theorem State.accept_mapY (w : Word) : (s.accept w).mapY = s.mapY := rfl
@[simp] theorem State.accept_mapOffset (w : Word) : (s.accept w).mapOffset = s.mapOffset := rfl
@[simp] theorem State.accept_mapBit (w : Word) : (s.accept w).mapBit = s.mapBit := rfl
@[simp] theorem State.accept_strLen (w : Word) : (s.accept w).strLen = s.strLen := rfl
@[simp] theorem State.accept_eng (w : Word) : (s.accept w).eng = s.eng := rfl
@[simp] theorem State.accept_src (w : Word) : (s.accept w).src = s.src := rfl
@[simp] theorem State.accept_pal (w : Word) : (s.accept w).pal = s.pal := rfl
@[simp] theorem State.accept_pix (w : Word) : (s.accept w).pix = s.pix := rfl
@[simp] theorem State.accept_fb (w : Word) : (s.accept w).fb = s.fb := rfl
@[simp] theorem State.accept_str (w : Word) : (s.accept w).str = s.str := rfl
@[simp] theorem State.accept_agenda (w : Word) : (s.accept w).agenda = s.agenda := rfl
@[simp] theorem State.accept_readData (w : Word) : (s.accept w).readData = s.readData := rfl
@[simp] theorem State.accept_freeCount (w : Word) : (s.accept w).freeCount = s.freeCount := rfl

/-! An overrun (R27). -/

@[simp] theorem State.overrun_cfg : (s.overrun).cfg = s.cfg := rfl
@[simp] theorem State.overrun_cmd : (s.overrun).cmd = s.cmd := rfl
@[simp] theorem State.overrun_status : (s.overrun).status = s.status.overrun := rfl
@[simp] theorem State.overrun_ctrl : (s.overrun).ctrl = s.ctrl := rfl
@[simp] theorem State.overrun_progress : (s.overrun).progress = s.progress := rfl
@[simp] theorem State.overrun_srcLen : (s.overrun).srcLen = s.srcLen := rfl
@[simp] theorem State.overrun_palLen : (s.overrun).palLen = s.palLen := rfl
@[simp] theorem State.overrun_pixCount : (s.overrun).pixCount = s.pixCount := rfl
@[simp] theorem State.overrun_width : (s.overrun).width = s.width := rfl
@[simp] theorem State.overrun_height : (s.overrun).height = s.height := rfl
@[simp] theorem State.overrun_errInfo : (s.overrun).errInfo = s.errInfo := rfl
@[simp] theorem State.overrun_mcmd : (s.overrun).mcmd = s.mcmd := rfl
@[simp] theorem State.overrun_mstatus : (s.overrun).mstatus = s.mstatus := rfl
@[simp] theorem State.overrun_mapW : (s.overrun).mapW = s.mapW := rfl
@[simp] theorem State.overrun_mapH : (s.overrun).mapH = s.mapH := rfl
@[simp] theorem State.overrun_mapX : (s.overrun).mapX = s.mapX := rfl
@[simp] theorem State.overrun_mapY : (s.overrun).mapY = s.mapY := rfl
@[simp] theorem State.overrun_mapOffset : (s.overrun).mapOffset = s.mapOffset := rfl
@[simp] theorem State.overrun_mapBit : (s.overrun).mapBit = s.mapBit := rfl
@[simp] theorem State.overrun_strLen : (s.overrun).strLen = s.strLen := rfl
@[simp] theorem State.overrun_eng : (s.overrun).eng = s.eng := rfl
@[simp] theorem State.overrun_src : (s.overrun).src = s.src := rfl
@[simp] theorem State.overrun_pal : (s.overrun).pal = s.pal := rfl
@[simp] theorem State.overrun_pix : (s.overrun).pix = s.pix := rfl
@[simp] theorem State.overrun_fb : (s.overrun).fb = s.fb := rfl
@[simp] theorem State.overrun_str : (s.overrun).str = s.str := rfl
@[simp] theorem State.overrun_agenda : (s.overrun).agenda = s.agenda := rfl
@[simp] theorem State.overrun_readData : (s.overrun).readData = s.readData := rfl
@[simp] theorem State.overrun_freeCount : (s.overrun).freeCount = s.freeCount := rfl

/-! An engine error (R203). -/

@[simp] theorem State.raise_cfg (e : ErrorKind) (k : Nat) (b : Bool) : (s.raise e k b).cfg = s.cfg := rfl
@[simp] theorem State.raise_cmd (e : ErrorKind) (k : Nat) (b : Bool) : (s.raise e k b).cmd = s.cmd := rfl
@[simp] theorem State.raise_status (e : ErrorKind) (k : Nat) (b : Bool) : (s.raise e k b).status = s.status.raised e := rfl
@[simp] theorem State.raise_ctrl (e : ErrorKind) (k : Nat) (b : Bool) : (s.raise e k b).ctrl = s.ctrl := rfl
@[simp] theorem State.raise_progress (e : ErrorKind) (k : Nat) (b : Bool) : (s.raise e k b).progress = s.progress := rfl
@[simp] theorem State.raise_srcLen (e : ErrorKind) (k : Nat) (b : Bool) : (s.raise e k b).srcLen = s.srcLen := rfl
@[simp] theorem State.raise_palLen (e : ErrorKind) (k : Nat) (b : Bool) : (s.raise e k b).palLen = s.palLen := rfl
@[simp] theorem State.raise_pixCount (e : ErrorKind) (k : Nat) (b : Bool) : (s.raise e k b).pixCount = if b then 0 else s.pixCount := rfl
@[simp] theorem State.raise_width (e : ErrorKind) (k : Nat) (b : Bool) : (s.raise e k b).width = s.width := rfl
@[simp] theorem State.raise_height (e : ErrorKind) (k : Nat) (b : Bool) : (s.raise e k b).height = s.height := rfl
@[simp] theorem State.raise_errInfo (e : ErrorKind) (k : Nat) (b : Bool) : (s.raise e k b).errInfo = BitVec.ofNat 64 k := rfl
@[simp] theorem State.raise_mcmd (e : ErrorKind) (k : Nat) (b : Bool) : (s.raise e k b).mcmd = s.mcmd := rfl
@[simp] theorem State.raise_mstatus (e : ErrorKind) (k : Nat) (b : Bool) : (s.raise e k b).mstatus = s.mstatus := rfl
@[simp] theorem State.raise_mapW (e : ErrorKind) (k : Nat) (b : Bool) : (s.raise e k b).mapW = s.mapW := rfl
@[simp] theorem State.raise_mapH (e : ErrorKind) (k : Nat) (b : Bool) : (s.raise e k b).mapH = s.mapH := rfl
@[simp] theorem State.raise_mapX (e : ErrorKind) (k : Nat) (b : Bool) : (s.raise e k b).mapX = s.mapX := rfl
@[simp] theorem State.raise_mapY (e : ErrorKind) (k : Nat) (b : Bool) : (s.raise e k b).mapY = s.mapY := rfl
@[simp] theorem State.raise_mapOffset (e : ErrorKind) (k : Nat) (b : Bool) : (s.raise e k b).mapOffset = s.mapOffset := rfl
@[simp] theorem State.raise_mapBit (e : ErrorKind) (k : Nat) (b : Bool) : (s.raise e k b).mapBit = s.mapBit := rfl
@[simp] theorem State.raise_strLen (e : ErrorKind) (k : Nat) (b : Bool) : (s.raise e k b).strLen = s.strLen := rfl
@[simp] theorem State.raise_eng (e : ErrorKind) (k : Nat) (b : Bool) : (s.raise e k b).eng = { s.eng with phase := .idle } := rfl
@[simp] theorem State.raise_src (e : ErrorKind) (k : Nat) (b : Bool) : (s.raise e k b).src = s.src := rfl
@[simp] theorem State.raise_pal (e : ErrorKind) (k : Nat) (b : Bool) : (s.raise e k b).pal = s.pal := rfl
@[simp] theorem State.raise_pix (e : ErrorKind) (k : Nat) (b : Bool) : (s.raise e k b).pix = s.pix := rfl
@[simp] theorem State.raise_fb (e : ErrorKind) (k : Nat) (b : Bool) : (s.raise e k b).fb = s.fb := rfl
@[simp] theorem State.raise_str (e : ErrorKind) (k : Nat) (b : Bool) : (s.raise e k b).str = s.str := rfl
@[simp] theorem State.raise_agenda (e : ErrorKind) (k : Nat) (b : Bool) : (s.raise e k b).agenda = s.agenda := rfl
@[simp] theorem State.raise_readData (e : ErrorKind) (k : Nat) (b : Bool) : (s.raise e k b).readData = s.readData := rfl
@[simp] theorem State.raise_freeCount (e : ErrorKind) (k : Nat) (b : Bool) : (s.raise e k b).freeCount = s.freeCount := rfl

/-! The end of an engine command (R206). -/

@[simp] theorem State.complete_cfg (k : Ending) (b : Bool) : (s.complete k b).cfg = s.cfg := rfl
@[simp] theorem State.complete_cmd (k : Ending) (b : Bool) : (s.complete k b).cmd = s.cmd := rfl
@[simp] theorem State.complete_status (k : Ending) (b : Bool) : (s.complete k b).status = s.status.completed k := rfl
@[simp] theorem State.complete_ctrl (k : Ending) (b : Bool) : (s.complete k b).ctrl = s.ctrl := rfl
@[simp] theorem State.complete_progress (k : Ending) (b : Bool) : (s.complete k b).progress = s.progress := rfl
@[simp] theorem State.complete_srcLen (k : Ending) (b : Bool) : (s.complete k b).srcLen = s.srcLen := rfl
@[simp] theorem State.complete_palLen (k : Ending) (b : Bool) : (s.complete k b).palLen = s.palLen := rfl
@[simp] theorem State.complete_pixCount (k : Ending) (b : Bool) : (s.complete k b).pixCount = if b then BitVec.ofNat 64 s.eng.out else s.pixCount := rfl
@[simp] theorem State.complete_width (k : Ending) (b : Bool) : (s.complete k b).width = s.width := rfl
@[simp] theorem State.complete_height (k : Ending) (b : Bool) : (s.complete k b).height = s.height := rfl
@[simp] theorem State.complete_errInfo (k : Ending) (b : Bool) : (s.complete k b).errInfo = s.errInfo := rfl
@[simp] theorem State.complete_mcmd (k : Ending) (b : Bool) : (s.complete k b).mcmd = s.mcmd := rfl
@[simp] theorem State.complete_mstatus (k : Ending) (b : Bool) : (s.complete k b).mstatus = s.mstatus := rfl
@[simp] theorem State.complete_mapW (k : Ending) (b : Bool) : (s.complete k b).mapW = s.mapW := rfl
@[simp] theorem State.complete_mapH (k : Ending) (b : Bool) : (s.complete k b).mapH = s.mapH := rfl
@[simp] theorem State.complete_mapX (k : Ending) (b : Bool) : (s.complete k b).mapX = s.mapX := rfl
@[simp] theorem State.complete_mapY (k : Ending) (b : Bool) : (s.complete k b).mapY = s.mapY := rfl
@[simp] theorem State.complete_mapOffset (k : Ending) (b : Bool) : (s.complete k b).mapOffset = s.mapOffset := rfl
@[simp] theorem State.complete_mapBit (k : Ending) (b : Bool) : (s.complete k b).mapBit = s.mapBit := rfl
@[simp] theorem State.complete_strLen (k : Ending) (b : Bool) : (s.complete k b).strLen = s.strLen := rfl
@[simp] theorem State.complete_eng (k : Ending) (b : Bool) : (s.complete k b).eng = { s.eng with phase := .idle } := rfl
@[simp] theorem State.complete_src (k : Ending) (b : Bool) : (s.complete k b).src = s.src := rfl
@[simp] theorem State.complete_pal (k : Ending) (b : Bool) : (s.complete k b).pal = s.pal := rfl
@[simp] theorem State.complete_pix (k : Ending) (b : Bool) : (s.complete k b).pix = s.pix := rfl
@[simp] theorem State.complete_fb (k : Ending) (b : Bool) : (s.complete k b).fb = s.fb := rfl
@[simp] theorem State.complete_str (k : Ending) (b : Bool) : (s.complete k b).str = s.str := rfl
@[simp] theorem State.complete_agenda (k : Ending) (b : Bool) : (s.complete k b).agenda = s.agenda := rfl
@[simp] theorem State.complete_readData (k : Ending) (b : Bool) : (s.complete k b).readData = s.readData := rfl
@[simp] theorem State.complete_freeCount (k : Ending) (b : Bool) : (s.complete k b).freeCount = s.freeCount := rfl

/-! Acceptance of a mapper word (R200). -/

@[simp] theorem State.acceptMapper_cfg (w : Word) : (s.acceptMapper w).cfg = s.cfg := rfl
@[simp] theorem State.acceptMapper_cmd (w : Word) : (s.acceptMapper w).cmd = s.cmd := rfl
@[simp] theorem State.acceptMapper_status (w : Word) : (s.acceptMapper w).status = s.status := rfl
@[simp] theorem State.acceptMapper_ctrl (w : Word) : (s.acceptMapper w).ctrl = s.ctrl := rfl
@[simp] theorem State.acceptMapper_progress (w : Word) : (s.acceptMapper w).progress = s.progress := rfl
@[simp] theorem State.acceptMapper_srcLen (w : Word) : (s.acceptMapper w).srcLen = s.srcLen := rfl
@[simp] theorem State.acceptMapper_palLen (w : Word) : (s.acceptMapper w).palLen = s.palLen := rfl
@[simp] theorem State.acceptMapper_pixCount (w : Word) : (s.acceptMapper w).pixCount = s.pixCount := rfl
@[simp] theorem State.acceptMapper_width (w : Word) : (s.acceptMapper w).width = s.width := rfl
@[simp] theorem State.acceptMapper_height (w : Word) : (s.acceptMapper w).height = s.height := rfl
@[simp] theorem State.acceptMapper_errInfo (w : Word) : (s.acceptMapper w).errInfo = s.errInfo := rfl
@[simp] theorem State.acceptMapper_mcmd (w : Word) : (s.acceptMapper w).mcmd = w := rfl
@[simp] theorem State.acceptMapper_mstatus (w : Word) : (s.acceptMapper w).mstatus = MStatus.accepted (opField w) := rfl
@[simp] theorem State.acceptMapper_mapW (w : Word) : (s.acceptMapper w).mapW = s.mapW := rfl
@[simp] theorem State.acceptMapper_mapH (w : Word) : (s.acceptMapper w).mapH = s.mapH := rfl
@[simp] theorem State.acceptMapper_mapX (w : Word) : (s.acceptMapper w).mapX = s.mapX := rfl
@[simp] theorem State.acceptMapper_mapY (w : Word) : (s.acceptMapper w).mapY = s.mapY := rfl
@[simp] theorem State.acceptMapper_mapOffset (w : Word) : (s.acceptMapper w).mapOffset = s.mapOffset := rfl
@[simp] theorem State.acceptMapper_mapBit (w : Word) : (s.acceptMapper w).mapBit = s.mapBit := rfl
@[simp] theorem State.acceptMapper_strLen (w : Word) : (s.acceptMapper w).strLen = s.strLen := rfl
@[simp] theorem State.acceptMapper_eng (w : Word) : (s.acceptMapper w).eng = s.eng := rfl
@[simp] theorem State.acceptMapper_src (w : Word) : (s.acceptMapper w).src = s.src := rfl
@[simp] theorem State.acceptMapper_pal (w : Word) : (s.acceptMapper w).pal = s.pal := rfl
@[simp] theorem State.acceptMapper_pix (w : Word) : (s.acceptMapper w).pix = s.pix := rfl
@[simp] theorem State.acceptMapper_fb (w : Word) : (s.acceptMapper w).fb = s.fb := rfl
@[simp] theorem State.acceptMapper_str (w : Word) : (s.acceptMapper w).str = s.str := rfl
@[simp] theorem State.acceptMapper_agenda (w : Word) : (s.acceptMapper w).agenda = s.agenda := rfl
@[simp] theorem State.acceptMapper_readData (w : Word) : (s.acceptMapper w).readData = s.readData := rfl
@[simp] theorem State.acceptMapper_freeCount (w : Word) : (s.acceptMapper w).freeCount = s.freeCount := rfl

/-! A mapper error (R204). -/

@[simp] theorem State.mraise_cfg (e : ErrorKind) : (s.mraise e).cfg = s.cfg := rfl
@[simp] theorem State.mraise_cmd (e : ErrorKind) : (s.mraise e).cmd = s.cmd := rfl
@[simp] theorem State.mraise_status (e : ErrorKind) : (s.mraise e).status = s.status := rfl
@[simp] theorem State.mraise_ctrl (e : ErrorKind) : (s.mraise e).ctrl = s.ctrl := rfl
@[simp] theorem State.mraise_progress (e : ErrorKind) : (s.mraise e).progress = s.progress := rfl
@[simp] theorem State.mraise_srcLen (e : ErrorKind) : (s.mraise e).srcLen = s.srcLen := rfl
@[simp] theorem State.mraise_palLen (e : ErrorKind) : (s.mraise e).palLen = s.palLen := rfl
@[simp] theorem State.mraise_pixCount (e : ErrorKind) : (s.mraise e).pixCount = s.pixCount := rfl
@[simp] theorem State.mraise_width (e : ErrorKind) : (s.mraise e).width = s.width := rfl
@[simp] theorem State.mraise_height (e : ErrorKind) : (s.mraise e).height = s.height := rfl
@[simp] theorem State.mraise_errInfo (e : ErrorKind) : (s.mraise e).errInfo = s.errInfo := rfl
@[simp] theorem State.mraise_mcmd (e : ErrorKind) : (s.mraise e).mcmd = s.mcmd := rfl
@[simp] theorem State.mraise_mstatus (e : ErrorKind) : (s.mraise e).mstatus = s.mstatus.raised e := rfl
@[simp] theorem State.mraise_mapW (e : ErrorKind) : (s.mraise e).mapW = s.mapW := rfl
@[simp] theorem State.mraise_mapH (e : ErrorKind) : (s.mraise e).mapH = s.mapH := rfl
@[simp] theorem State.mraise_mapX (e : ErrorKind) : (s.mraise e).mapX = s.mapX := rfl
@[simp] theorem State.mraise_mapY (e : ErrorKind) : (s.mraise e).mapY = s.mapY := rfl
@[simp] theorem State.mraise_mapOffset (e : ErrorKind) : (s.mraise e).mapOffset = s.mapOffset := rfl
@[simp] theorem State.mraise_mapBit (e : ErrorKind) : (s.mraise e).mapBit = s.mapBit := rfl
@[simp] theorem State.mraise_strLen (e : ErrorKind) : (s.mraise e).strLen = s.strLen := rfl
@[simp] theorem State.mraise_eng (e : ErrorKind) : (s.mraise e).eng = s.eng := rfl
@[simp] theorem State.mraise_src (e : ErrorKind) : (s.mraise e).src = s.src := rfl
@[simp] theorem State.mraise_pal (e : ErrorKind) : (s.mraise e).pal = s.pal := rfl
@[simp] theorem State.mraise_pix (e : ErrorKind) : (s.mraise e).pix = s.pix := rfl
@[simp] theorem State.mraise_fb (e : ErrorKind) : (s.mraise e).fb = s.fb := rfl
@[simp] theorem State.mraise_str (e : ErrorKind) : (s.mraise e).str = s.str := rfl
@[simp] theorem State.mraise_agenda (e : ErrorKind) : (s.mraise e).agenda = s.agenda := rfl
@[simp] theorem State.mraise_readData (e : ErrorKind) : (s.mraise e).readData = s.readData := rfl
@[simp] theorem State.mraise_freeCount (e : ErrorKind) : (s.mraise e).freeCount = s.freeCount := rfl

/-! The start of an ENCODE (R100). -/

@[simp] theorem State.startEncode_cfg (p : Packing) : (s.startEncode p).cfg = s.cfg := rfl
@[simp] theorem State.startEncode_cmd (p : Packing) : (s.startEncode p).cmd = s.cmd := rfl
@[simp] theorem State.startEncode_status (p : Packing) : (s.startEncode p).status = s.status.started := rfl
@[simp] theorem State.startEncode_ctrl (p : Packing) : (s.startEncode p).ctrl = s.ctrl := rfl
@[simp] theorem State.startEncode_progress (p : Packing) : (s.startEncode p).progress = 0 := rfl
@[simp] theorem State.startEncode_srcLen (p : Packing) : (s.startEncode p).srcLen = s.srcLen := rfl
@[simp] theorem State.startEncode_palLen (p : Packing) : (s.startEncode p).palLen = s.palLen := rfl
@[simp] theorem State.startEncode_pixCount (p : Packing) : (s.startEncode p).pixCount = s.pixCount := rfl
@[simp] theorem State.startEncode_width (p : Packing) : (s.startEncode p).width = s.width := rfl
@[simp] theorem State.startEncode_height (p : Packing) : (s.startEncode p).height = s.height := rfl
@[simp] theorem State.startEncode_errInfo (p : Packing) : (s.startEncode p).errInfo = s.errInfo := rfl
@[simp] theorem State.startEncode_mcmd (p : Packing) : (s.startEncode p).mcmd = s.mcmd := rfl
@[simp] theorem State.startEncode_mstatus (p : Packing) : (s.startEncode p).mstatus = s.mstatus := rfl
@[simp] theorem State.startEncode_mapW (p : Packing) : (s.startEncode p).mapW = s.mapW := rfl
@[simp] theorem State.startEncode_mapH (p : Packing) : (s.startEncode p).mapH = s.mapH := rfl
@[simp] theorem State.startEncode_mapX (p : Packing) : (s.startEncode p).mapX = s.mapX := rfl
@[simp] theorem State.startEncode_mapY (p : Packing) : (s.startEncode p).mapY = s.mapY := rfl
@[simp] theorem State.startEncode_mapOffset (p : Packing) : (s.startEncode p).mapOffset = s.mapOffset := rfl
@[simp] theorem State.startEncode_mapBit (p : Packing) : (s.startEncode p).mapBit = s.mapBit := rfl
@[simp] theorem State.startEncode_strLen (p : Packing) : (s.startEncode p).strLen = s.strLen := rfl
@[simp] theorem State.startEncode_eng (p : Packing) : (s.startEncode p).eng = { s.eng with
      phase := .encoding, sch := p, L := s.srcLen, PL := s.palLen
      G := groupCount s.cfg.lenMode p s.srcLen.toNat, ppg := pixelsPerGroup p, i := 0, out := 0 } := rfl
@[simp] theorem State.startEncode_src (p : Packing) : (s.startEncode p).src = s.src := rfl
@[simp] theorem State.startEncode_pal (p : Packing) : (s.startEncode p).pal = s.pal := rfl
@[simp] theorem State.startEncode_pix (p : Packing) : (s.startEncode p).pix = s.pix := rfl
@[simp] theorem State.startEncode_fb (p : Packing) : (s.startEncode p).fb = s.fb := rfl
@[simp] theorem State.startEncode_str (p : Packing) : (s.startEncode p).str = s.str := rfl
@[simp] theorem State.startEncode_agenda (p : Packing) : (s.startEncode p).agenda = s.agenda := rfl
@[simp] theorem State.startEncode_readData (p : Packing) : (s.startEncode p).readData = s.readData := rfl
@[simp] theorem State.startEncode_freeCount (p : Packing) : (s.startEncode p).freeCount = s.freeCount := rfl

/-! A group step (R102). -/

@[simp] theorem State.storeGroup_cfg (px : List Pixel) : (s.storeGroup px).cfg = s.cfg := rfl
@[simp] theorem State.storeGroup_cmd (px : List Pixel) : (s.storeGroup px).cmd = s.cmd := rfl
@[simp] theorem State.storeGroup_status (px : List Pixel) : (s.storeGroup px).status = s.status := rfl
@[simp] theorem State.storeGroup_ctrl (px : List Pixel) : (s.storeGroup px).ctrl = s.ctrl := rfl
@[simp] theorem State.storeGroup_progress (px : List Pixel) : (s.storeGroup px).progress = if hasCheckpoint s.eng.sch then BitVec.ofNat 32 (s.eng.i * 100 / s.eng.L.toNat) else s.progress := rfl
@[simp] theorem State.storeGroup_srcLen (px : List Pixel) : (s.storeGroup px).srcLen = s.srcLen := rfl
@[simp] theorem State.storeGroup_palLen (px : List Pixel) : (s.storeGroup px).palLen = s.palLen := rfl
@[simp] theorem State.storeGroup_pixCount (px : List Pixel) : (s.storeGroup px).pixCount = s.pixCount := rfl
@[simp] theorem State.storeGroup_width (px : List Pixel) : (s.storeGroup px).width = s.width := rfl
@[simp] theorem State.storeGroup_height (px : List Pixel) : (s.storeGroup px).height = s.height := rfl
@[simp] theorem State.storeGroup_errInfo (px : List Pixel) : (s.storeGroup px).errInfo = s.errInfo := rfl
@[simp] theorem State.storeGroup_mcmd (px : List Pixel) : (s.storeGroup px).mcmd = s.mcmd := rfl
@[simp] theorem State.storeGroup_mstatus (px : List Pixel) : (s.storeGroup px).mstatus = s.mstatus := rfl
@[simp] theorem State.storeGroup_mapW (px : List Pixel) : (s.storeGroup px).mapW = s.mapW := rfl
@[simp] theorem State.storeGroup_mapH (px : List Pixel) : (s.storeGroup px).mapH = s.mapH := rfl
@[simp] theorem State.storeGroup_mapX (px : List Pixel) : (s.storeGroup px).mapX = s.mapX := rfl
@[simp] theorem State.storeGroup_mapY (px : List Pixel) : (s.storeGroup px).mapY = s.mapY := rfl
@[simp] theorem State.storeGroup_mapOffset (px : List Pixel) : (s.storeGroup px).mapOffset = s.mapOffset := rfl
@[simp] theorem State.storeGroup_mapBit (px : List Pixel) : (s.storeGroup px).mapBit = s.mapBit := rfl
@[simp] theorem State.storeGroup_strLen (px : List Pixel) : (s.storeGroup px).strLen = s.strLen := rfl
@[simp] theorem State.storeGroup_eng (px : List Pixel) : (s.storeGroup px).eng = { s.eng with out := s.eng.out + s.eng.ppg, i := s.eng.i + 1 } := rfl
@[simp] theorem State.storeGroup_src (px : List Pixel) : (s.storeGroup px).src = s.src := rfl
@[simp] theorem State.storeGroup_pal (px : List Pixel) : (s.storeGroup px).pal = s.pal := rfl
@[simp] theorem State.storeGroup_pix (px : List Pixel) : (s.storeGroup px).pix = s.pix.writeList s.eng.out px := rfl
@[simp] theorem State.storeGroup_fb (px : List Pixel) : (s.storeGroup px).fb = s.fb := rfl
@[simp] theorem State.storeGroup_str (px : List Pixel) : (s.storeGroup px).str = s.str := rfl
@[simp] theorem State.storeGroup_agenda (px : List Pixel) : (s.storeGroup px).agenda = s.agenda := rfl
@[simp] theorem State.storeGroup_readData (px : List Pixel) : (s.storeGroup px).readData = s.readData := rfl
@[simp] theorem State.storeGroup_freeCount (px : List Pixel) : (s.storeGroup px).freeCount = s.freeCount := rfl

/-! The start of an ASSEMBLE (R140). -/

@[simp] theorem State.startAssemble_cfg : (s.startAssemble).cfg = s.cfg := rfl
@[simp] theorem State.startAssemble_cmd : (s.startAssemble).cmd = s.cmd := rfl
@[simp] theorem State.startAssemble_status : (s.startAssemble).status = s.status.started := rfl
@[simp] theorem State.startAssemble_ctrl : (s.startAssemble).ctrl = s.ctrl := rfl
@[simp] theorem State.startAssemble_progress : (s.startAssemble).progress = 0 := rfl
@[simp] theorem State.startAssemble_srcLen : (s.startAssemble).srcLen = s.srcLen := rfl
@[simp] theorem State.startAssemble_palLen : (s.startAssemble).palLen = s.palLen := rfl
@[simp] theorem State.startAssemble_pixCount : (s.startAssemble).pixCount = s.pixCount := rfl
@[simp] theorem State.startAssemble_width : (s.startAssemble).width = s.width := rfl
@[simp] theorem State.startAssemble_height : (s.startAssemble).height = s.height := rfl
@[simp] theorem State.startAssemble_errInfo : (s.startAssemble).errInfo = s.errInfo := rfl
@[simp] theorem State.startAssemble_mcmd : (s.startAssemble).mcmd = s.mcmd := rfl
@[simp] theorem State.startAssemble_mstatus : (s.startAssemble).mstatus = s.mstatus := rfl
@[simp] theorem State.startAssemble_mapW : (s.startAssemble).mapW = s.mapW := rfl
@[simp] theorem State.startAssemble_mapH : (s.startAssemble).mapH = s.mapH := rfl
@[simp] theorem State.startAssemble_mapX : (s.startAssemble).mapX = s.mapX := rfl
@[simp] theorem State.startAssemble_mapY : (s.startAssemble).mapY = s.mapY := rfl
@[simp] theorem State.startAssemble_mapOffset : (s.startAssemble).mapOffset = s.mapOffset := rfl
@[simp] theorem State.startAssemble_mapBit : (s.startAssemble).mapBit = s.mapBit := rfl
@[simp] theorem State.startAssemble_strLen : (s.startAssemble).strLen = s.strLen := rfl
@[simp] theorem State.startAssemble_eng : (s.startAssemble).eng = { s.eng with
      phase := .assembling, n := s.pixCount, w := s.width, h := s.height, stride := 4 * s.width.toNat, r := 0 } := rfl
@[simp] theorem State.startAssemble_src : (s.startAssemble).src = s.src := rfl
@[simp] theorem State.startAssemble_pal : (s.startAssemble).pal = s.pal := rfl
@[simp] theorem State.startAssemble_pix : (s.startAssemble).pix = s.pix := rfl
@[simp] theorem State.startAssemble_fb : (s.startAssemble).fb = s.fb.writeList 0 (List.replicate (s.height.toNat * (4 * s.width.toNat)) 0) := rfl
@[simp] theorem State.startAssemble_str : (s.startAssemble).str = s.str := rfl
@[simp] theorem State.startAssemble_agenda : (s.startAssemble).agenda = s.agenda := rfl
@[simp] theorem State.startAssemble_readData : (s.startAssemble).readData = s.readData := rfl
@[simp] theorem State.startAssemble_freeCount : (s.startAssemble).freeCount = s.freeCount := rfl

/-! A row step (R142). -/

@[simp] theorem State.storeRow_cfg (bs : List Byte) : (s.storeRow bs).cfg = s.cfg := rfl
@[simp] theorem State.storeRow_cmd (bs : List Byte) : (s.storeRow bs).cmd = s.cmd := rfl
@[simp] theorem State.storeRow_status (bs : List Byte) : (s.storeRow bs).status = s.status := rfl
@[simp] theorem State.storeRow_ctrl (bs : List Byte) : (s.storeRow bs).ctrl = s.ctrl := rfl
@[simp] theorem State.storeRow_progress (bs : List Byte) : (s.storeRow bs).progress = BitVec.ofNat 32 (s.eng.r * 100 / s.eng.h.toNat) := rfl
@[simp] theorem State.storeRow_srcLen (bs : List Byte) : (s.storeRow bs).srcLen = s.srcLen := rfl
@[simp] theorem State.storeRow_palLen (bs : List Byte) : (s.storeRow bs).palLen = s.palLen := rfl
@[simp] theorem State.storeRow_pixCount (bs : List Byte) : (s.storeRow bs).pixCount = s.pixCount := rfl
@[simp] theorem State.storeRow_width (bs : List Byte) : (s.storeRow bs).width = s.width := rfl
@[simp] theorem State.storeRow_height (bs : List Byte) : (s.storeRow bs).height = s.height := rfl
@[simp] theorem State.storeRow_errInfo (bs : List Byte) : (s.storeRow bs).errInfo = s.errInfo := rfl
@[simp] theorem State.storeRow_mcmd (bs : List Byte) : (s.storeRow bs).mcmd = s.mcmd := rfl
@[simp] theorem State.storeRow_mstatus (bs : List Byte) : (s.storeRow bs).mstatus = s.mstatus := rfl
@[simp] theorem State.storeRow_mapW (bs : List Byte) : (s.storeRow bs).mapW = s.mapW := rfl
@[simp] theorem State.storeRow_mapH (bs : List Byte) : (s.storeRow bs).mapH = s.mapH := rfl
@[simp] theorem State.storeRow_mapX (bs : List Byte) : (s.storeRow bs).mapX = s.mapX := rfl
@[simp] theorem State.storeRow_mapY (bs : List Byte) : (s.storeRow bs).mapY = s.mapY := rfl
@[simp] theorem State.storeRow_mapOffset (bs : List Byte) : (s.storeRow bs).mapOffset = s.mapOffset := rfl
@[simp] theorem State.storeRow_mapBit (bs : List Byte) : (s.storeRow bs).mapBit = s.mapBit := rfl
@[simp] theorem State.storeRow_strLen (bs : List Byte) : (s.storeRow bs).strLen = s.strLen := rfl
@[simp] theorem State.storeRow_eng (bs : List Byte) : (s.storeRow bs).eng = { s.eng with r := s.eng.r + 1 } := rfl
@[simp] theorem State.storeRow_src (bs : List Byte) : (s.storeRow bs).src = s.src := rfl
@[simp] theorem State.storeRow_pal (bs : List Byte) : (s.storeRow bs).pal = s.pal := rfl
@[simp] theorem State.storeRow_pix (bs : List Byte) : (s.storeRow bs).pix = s.pix := rfl
@[simp] theorem State.storeRow_fb (bs : List Byte) : (s.storeRow bs).fb = s.fb.writeList (s.eng.r * s.eng.stride) bs := rfl
@[simp] theorem State.storeRow_str (bs : List Byte) : (s.storeRow bs).str = s.str := rfl
@[simp] theorem State.storeRow_agenda (bs : List Byte) : (s.storeRow bs).agenda = s.agenda := rfl
@[simp] theorem State.storeRow_readData (bs : List Byte) : (s.storeRow bs).readData = s.readData := rfl
@[simp] theorem State.storeRow_freeCount (bs : List Byte) : (s.storeRow bs).freeCount = s.freeCount := rfl

/-! The STR write of FORMAT (R183). -/

@[simp] theorem State.writeStr_cfg (t : List Byte) : (s.writeStr t).cfg = s.cfg := rfl
@[simp] theorem State.writeStr_cmd (t : List Byte) : (s.writeStr t).cmd = s.cmd := rfl
@[simp] theorem State.writeStr_status (t : List Byte) : (s.writeStr t).status = s.status := rfl
@[simp] theorem State.writeStr_ctrl (t : List Byte) : (s.writeStr t).ctrl = s.ctrl := rfl
@[simp] theorem State.writeStr_progress (t : List Byte) : (s.writeStr t).progress = s.progress := rfl
@[simp] theorem State.writeStr_srcLen (t : List Byte) : (s.writeStr t).srcLen = s.srcLen := rfl
@[simp] theorem State.writeStr_palLen (t : List Byte) : (s.writeStr t).palLen = s.palLen := rfl
@[simp] theorem State.writeStr_pixCount (t : List Byte) : (s.writeStr t).pixCount = s.pixCount := rfl
@[simp] theorem State.writeStr_width (t : List Byte) : (s.writeStr t).width = s.width := rfl
@[simp] theorem State.writeStr_height (t : List Byte) : (s.writeStr t).height = s.height := rfl
@[simp] theorem State.writeStr_errInfo (t : List Byte) : (s.writeStr t).errInfo = s.errInfo := rfl
@[simp] theorem State.writeStr_mcmd (t : List Byte) : (s.writeStr t).mcmd = s.mcmd := rfl
@[simp] theorem State.writeStr_mstatus (t : List Byte) : (s.writeStr t).mstatus = s.mstatus := rfl
@[simp] theorem State.writeStr_mapW (t : List Byte) : (s.writeStr t).mapW = s.mapW := rfl
@[simp] theorem State.writeStr_mapH (t : List Byte) : (s.writeStr t).mapH = s.mapH := rfl
@[simp] theorem State.writeStr_mapX (t : List Byte) : (s.writeStr t).mapX = s.mapX := rfl
@[simp] theorem State.writeStr_mapY (t : List Byte) : (s.writeStr t).mapY = s.mapY := rfl
@[simp] theorem State.writeStr_mapOffset (t : List Byte) : (s.writeStr t).mapOffset = s.mapOffset := rfl
@[simp] theorem State.writeStr_mapBit (t : List Byte) : (s.writeStr t).mapBit = s.mapBit := rfl
@[simp] theorem State.writeStr_strLen (t : List Byte) : (s.writeStr t).strLen = BitVec.ofNat 32 t.length := rfl
@[simp] theorem State.writeStr_eng (t : List Byte) : (s.writeStr t).eng = s.eng := rfl
@[simp] theorem State.writeStr_src (t : List Byte) : (s.writeStr t).src = s.src := rfl
@[simp] theorem State.writeStr_pal (t : List Byte) : (s.writeStr t).pal = s.pal := rfl
@[simp] theorem State.writeStr_pix (t : List Byte) : (s.writeStr t).pix = s.pix := rfl
@[simp] theorem State.writeStr_fb (t : List Byte) : (s.writeStr t).fb = s.fb := rfl
@[simp] theorem State.writeStr_str (t : List Byte) : (s.writeStr t).str = s.str.writeList 0 (t ++ List.replicate (strCap - t.length) 0) := rfl
@[simp] theorem State.writeStr_agenda (t : List Byte) : (s.writeStr t).agenda = s.agenda := rfl
@[simp] theorem State.writeStr_readData (t : List Byte) : (s.writeStr t).readData = s.readData := rfl
@[simp] theorem State.writeStr_freeCount (t : List Byte) : (s.writeStr t).freeCount = s.freeCount := rfl

end Sys2Proof.Machine
end

