-- ==== Sys2Proof/Laws/Operands.lean ====
section
/-! SUPPORT. What the operand forms deliver: lists read in order, the pixels of a group, the bytes of a row, integer
square roots, numerals. -/

namespace Sys2Proof.Machine

/-! ### Lists read in order -/

section
variable {α β ε : Type} (f : α → Except ε β)

/-- `collect` answers exactly when every element does, with their values in order. -/
theorem collect_eq_ok (xs : List α) (ys : List β) :
    collect f xs = .ok ys ↔ List.Forall₂ (fun x y => f x = .ok y) xs ys := by
  induction xs generalizing ys with
  | nil => cases ys <;> simp [collect]
  | cons x xs ih =>
    cases ys with
    | nil =>
      simp only [collect]
      split
      · simp
      · split <;> simp
    | cons y ys =>
      simp only [collect, List.forall₂_cons, ← ih]
      split
      · next e h => simp [h]
      · next z h =>
        split
        · next e h' => simp [h, h']
        · next zs h' => simp [h, h']

/-- `collect` stops exactly at the first element that does. -/
theorem collect_eq_error (xs : List α) (e : ε) :
    collect f xs = .error e ↔
      ∃ (j : Nat) (x : α), xs[j]? = some x ∧ f x = .error e ∧ ∀ k y, k < j → xs[k]? = some y → ∃ z, f y = .ok z := by
  induction xs with
  | nil => simp [collect]
  | cons x xs ih =>
    simp only [collect]
    split
    · next e' h =>
      constructor
      · rintro ⟨⟩
        exact ⟨0, x, rfl, h, by simp⟩
      · rintro ⟨j, y, hj, hy, hk⟩
        cases j with
        | zero =>
          obtain rfl : x = y := by simpa using hj
          simpa [h] using hy
        | succ j =>
          obtain ⟨z, hz⟩ := hk 0 x (by omega) rfl
          simp [h] at hz
    · next z h =>
      have shift : (∃ (j : Nat) (y : α), (x :: xs)[j]? = some y ∧ f y = .error e ∧
            ∀ k y', k < j → (x :: xs)[k]? = some y' → ∃ z, f y' = .ok z) ↔
          ∃ (j : Nat) (y : α), xs[j]? = some y ∧ f y = .error e ∧
            ∀ k y', k < j → xs[k]? = some y' → ∃ z, f y' = .ok z := by
        constructor
        · rintro ⟨j, y, hj, hy, hk⟩
          cases j with
          | zero =>
            obtain rfl : x = y := by simpa using hj
            simp [h] at hy
          | succ j => exact ⟨j, y, by simpa using hj, hy, fun k y' hk' hy' => hk (k + 1) y' (by omega) (by simpa using hy')⟩
        · rintro ⟨j, y, hj, hy, hk⟩
          refine ⟨j + 1, y, by simpa using hj, hy, fun k y' hk' hy' => ?_⟩
          cases k with
          | zero =>
            obtain rfl : x = y' := by simpa using hy'
            exact ⟨z, h⟩
          | succ k => exact hk k y' (by omega) (by simpa using hy')
      rw [shift, ← ih]
      split
      · next e' h' => simp [h']
      · next zs h' => simp [h']

theorem collect_length {xs : List α} {ys : List β} (h : collect f xs = .ok ys) : ys.length = xs.length :=
  (List.Forall₂.length_eq ((collect_eq_ok f xs ys).1 h)).symm

/-- `collect` answers when every element does. -/
theorem collect_total {xs : List α} (h : ∀ x ∈ xs, ∃ y, f x = .ok y) : ∃ ys, collect f xs = .ok ys := by
  induction xs with
  | nil => exact ⟨[], rfl⟩
  | cons x xs ih =>
    obtain ⟨y, hy⟩ := h x (by simp)
    obtain ⟨ys, hys⟩ := ih fun z hz => h z (by simp [hz])
    exact ⟨y :: ys, by simp [collect, hy, hys]⟩

/-- Reading a concatenation in order. -/
theorem collect_append (xs ys : List α) :
    collect f (xs ++ ys) =
      match collect f xs with
      | .error e => .error e
      | .ok us =>
        match collect f ys with
        | .error e => .error e
        | .ok vs => .ok (us ++ vs) := by
  induction xs with
  | nil =>
    simp only [List.nil_append, collect]
    cases collect f ys <;> rfl
  | cons x xs ih =>
    simp only [List.cons_append, collect, ih]
    cases f x with
    | error e => rfl
    | ok y =>
      cases collect f xs with
      | error e => rfl
      | ok us => cases collect f ys <;> rfl

end

/-! ### Source bytes and palette entries -/

/-- The three outcomes of a source read. -/
theorem srcByte_cases (s : State) (a : Nat) :
    (∃ b, s.src.read a = some b ∧ srcByte s a = .ok b) ∨
      (s.src.read a = none ∧ srcByte s a = .error (.unwritten (.unwrittenSrc a))) := by
  unfold srcByte
  cases h : s.src.read a with
  | none => exact .inr ⟨rfl, rfl⟩
  | some b => exact .inl ⟨b, rfl, rfl⟩

theorem srcByteOr0_beyond {s : State} {a : Nat} (h : s.eng.L.toNat ≤ a) : srcByteOr0 s a = .ok 0 := by
  simp [srcByteOr0, Nat.not_lt.2 h]

theorem srcByteOr0_within {s : State} {a : Nat} (h : a < s.eng.L.toNat) : srcByteOr0 s a = srcByte s a := by
  simp [srcByteOr0, h]

/-- The three outcomes of a palette lookup (R105). -/
theorem palEntry_cases (s : State) (k : Nat) :
    (s.eng.PL.toNat ≤ k ∧ palEntry s k = .error (.paletteTooSmall k)) ∨
      (k < s.eng.PL.toNat ∧ s.pal.read k = none ∧ palEntry s k = .error (.unwritten (.unwrittenPal k))) ∨
        (k < s.eng.PL.toNat ∧ ∃ p, s.pal.read k = some p ∧ palEntry s k = .ok p) := by
  unfold palEntry
  by_cases h : s.eng.PL.toNat ≤ k
  · exact .inl ⟨h, by simp [h]⟩
  · right
    cases hp : s.pal.read k with
    | none => exact .inl ⟨by omega, rfl, by simp [h]⟩
    | some p => exact .inr ⟨by omega, p, rfl, by simp [h]⟩

theorem palEntry_tooSmall {s : State} {k j : Nat} (h : palEntry s k = .error (.paletteTooSmall j)) :
    j = k ∧ s.eng.PL.toNat ≤ k := by
  rcases palEntry_cases s k with ⟨hk, e⟩ | ⟨-, -, e⟩ | ⟨-, p, -, e⟩ <;> rw [e] at h
  · injection h with h; injection h with h; exact ⟨h.symm, hk⟩
  · injection h with h; injection h
  · injection h

theorem bitField_lt (x : Byte) (lo n : Nat) : bitField x lo n < 2 ^ n := (x.extractLsb' lo n).isLt

/-- A bit field as a quotient and a remainder (R7). -/
theorem bitField_eq (x : Byte) (lo n : Nat) : bitField x lo n = x.toNat / 2 ^ lo % 2 ^ n := by
  simp [bitField, BitVec.extractLsb'_toNat, Nat.shiftRight_eq_div_pow]

theorem index16bpp_eq (hi lo : Byte) : index16bpp hi lo = hi.toNat * 256 + lo.toNat := by
  have := lo.isLt
  rw [index16bpp, BitVec.toNat_append, ← Nat.shiftLeft_add_eq_or_of_lt (by omega), Nat.shiftLeft_eq]

theorem index16bpp_lt (hi lo : Byte) : index16bpp hi lo < 65536 := (hi ++ lo).isLt

/-- Every group delivers `eng.ppg`'s number of pixels (R101). -/
theorem group_length {s : State} {i : Nat} {px : List Pixel} (h : group s i = .ok px) :
    px.length = pixelsPerGroup s.eng.sch := by
  cases hs : s.eng.sch <;> simp only [group, hs] at h
  · simp only [group1bpp] at h
    split at h
    · simp at h
    · rw [collect_length _ h]; rfl
  · simp only [group2bpp] at h
    split at h
    · simp at h
    · rw [collect_length _ h]; rfl
  · simp only [group4bpp] at h
    split at h
    · simp at h
    · rw [collect_length _ h]; rfl
  · simp only [group8bpp] at h
    split at h
    · simp at h
    · rw [collect_length _ h]; rfl
  · simp only [group16bpp] at h
    split at h
    · simp at h
    · split at h
      · simp at h
      · rw [collect_length _ h]; rfl
  · rw [group32bpp] at h
    cases hc : collect (srcByteOr0 s) [4 * i, 4 * i + 1, 4 * i + 2, 4 * i + 3] with
    | error e => simp [hc, Except.map] at h
    | ok bs =>
      have hl := collect_length _ hc
      obtain ⟨a, r, g, b, rfl⟩ : ∃ a r g b, bs = [a, r, g, b] := by
        match bs, hl with
        | [a, r, g, b], _ => exact ⟨a, r, g, b, rfl⟩
      simp only [hc, Except.map, argbOf, Except.ok.injEq] at h
      rw [← h]
      rfl

/-! ### Raster rows -/

/-- The three outcomes of a raster cell (R142, R144). -/
theorem cellPixel_cases (s : State) (k : Nat) :
    (s.eng.n.toNat ≤ k ∧ cellPixel s k = .ok 0) ∨
      (k < s.eng.n.toNat ∧ s.pix.read k = none ∧ cellPixel s k = .error (.unwrittenPix k)) ∨
        (k < s.eng.n.toNat ∧ ∃ p, s.pix.read k = some p ∧ cellPixel s k = .ok p) := by
  unfold cellPixel
  by_cases h : k < s.eng.n.toNat
  · right
    cases hp : s.pix.read k with
    | none => exact .inl ⟨h, rfl, by simp [h]⟩
    | some p => exact .inr ⟨h, p, rfl, by simp [h]⟩
  · exact .inl ⟨by omega, by simp [h]⟩

@[simp] theorem bgra_length (p : Pixel) : (bgra p).length = 4 := rfl

theorem flatMap_bgra_length (ps : List Pixel) : (ps.flatMap bgra).length = 4 * ps.length := by
  induction ps with
  | nil => rfl
  | cons p ps ih => simp [ih]; omega

/-- Byte `4 * c + t` of a row of pixels is byte `t` of pixel `c` (R147). -/
theorem flatMap_bgra_get (ps : List Pixel) (c t : Nat) (ht : t < 4) :
    (ps.flatMap bgra)[4 * c + t]? = (ps[c]?).bind fun p => (bgra p)[t]? := by
  induction ps generalizing c with
  | nil => simp
  | cons p ps ih =>
    cases c with
    | zero =>
      rw [List.flatMap_cons, List.getElem?_append_left (by simpa using ht)]
      simp
    | succ c =>
      rw [List.flatMap_cons, List.getElem?_append_right (by simp; omega)]
      have : 4 * (c + 1) + t - (bgra p).length = 4 * c + t := by simp; omega
      rw [this, ih]
      simp

theorem rowBytes_length {s : State} {row : Nat} {bs : List Byte} (h : rowBytes s row = .ok bs) :
    bs.length = 4 * s.eng.w.toNat := by
  unfold rowBytes at h
  cases hc : collect (cellPixel s) (List.range' (row * s.eng.w.toNat) s.eng.w.toNat) with
  | error e => simp [hc, Except.map] at h
  | ok ps =>
    simp only [hc, Except.map, Except.ok.injEq] at h
    rw [← h, flatMap_bgra_length, collect_length _ hc, List.length_range']

/-! ### Integer square roots -/

theorem sqrtBits_spec (n b acc : Nat) (hlo : acc * acc ≤ n) (hhi : n < (acc + 2 ^ b) * (acc + 2 ^ b)) :
    sqrtBits n b acc * sqrtBits n b acc ≤ n ∧ n < (sqrtBits n b acc + 1) * (sqrtBits n b acc + 1) := by
  induction b generalizing acc with
  | zero => exact ⟨hlo, by simpa [sqrtBits] using hhi⟩
  | succ b ih =>
    unfold sqrtBits
    split
    · next h => exact ih _ h (by rwa [pow_succ, Nat.mul_two, ← Nat.add_assoc] at hhi)
    · next h => exact ih _ hlo (by omega)

/-- `isqrt(n)` is the greatest `s` with `s * s <= n` (R8). -/
theorem isqrt_spec (n : Nat) : isqrt n * isqrt n ≤ n ∧ n < (isqrt n + 1) * (isqrt n + 1) := by
  refine sqrtBits_spec n _ 0 (by simp) ?_
  have h : n < 2 ^ (n.log2 + 1) := Nat.lt_log2_self
  calc n < 2 ^ (n.log2 + 1) := h
    _ ≤ 2 ^ ((n.log2 / 2 + 1) + (n.log2 / 2 + 1)) := Nat.pow_le_pow_right (by omega) (by omega)
    _ = _ := by rw [pow_add]; simp

theorem isqrt_pos {n : Nat} (h : 0 < n) : 0 < isqrt n := by
  rcases Nat.eq_zero_or_pos (isqrt n) with h0 | h0
  · have := (isqrt_spec n).2
    rw [h0] at this
    omega
  · exact h0

/-! ### Numerals -/

theorem digits_length_le (base fuel n : Nat) : (digits base fuel n).length ≤ fuel := by
  induction fuel generalizing n with
  | zero => simp [digits]
  | succ fuel ih =>
    unfold digits
    split
    · simp
    · have := ih (n / base)
      simp only [List.length_append, List.length_cons, List.length_nil]
      omega

theorem hexUpper_length_le (v : BitVec 64) : (hexUpper v).length ≤ 16 := by
  have := digits_length_le 16 16 v.toNat
  simp [hexUpper, List.leftpad]
  omega

theorem decimal_length_le (n : Nat) : (decimal n).length ≤ 10 := by
  simpa [decimal] using digits_length_le 10 10 n

/-- The longest formatted string has 29 characters (R183). -/
theorem addressText_length_le (off : BitVec 64) (bit : BitVec 32) : (addressText off bit).length ≤ 29 := by
  have h1 := hexUpper_length_le off
  have h2 := decimal_length_le bit.toInt.toNat
  unfold addressText
  split <;> simp <;> omega

end Sys2Proof.Machine
end

