-- ==== Sys2Proof/Laws/Engine.lean ====
section
/-! SUPPORT. What each shared operation of the commands and each engine step can do, said once. -/

namespace Sys2Proof.Machine

/-- A CMD write is an overrun or an accepted command (R200). -/
theorem issueEngine_cases (s : State) (w : Word) (act : State → State) :
    (s.status.busy = true ∧ s.issueEngine w act = s.overrun) ∨
      (s.status.busy = false ∧ s.issueEngine w act = act (s.accept w)) := by
  unfold State.issueEngine
  cases h : s.status.busy <;> simp

/-- The acceptance of an ENCODE: an error of the scheme, a capacity error, or the start (R100). -/
theorem acceptEncode_cases (sch : Scheme) (s : State) :
    (∃ e, packingOf sch = .error e ∧ (e = .invalidScheme ∨ e = .unsupportedScheme) ∧
        acceptEncode sch s = s.raise e 0 true) ∨
      (∃ p, packingOf sch = .ok p ∧ acceptEncode sch s = s.raise .capacityExceeded 0 true) ∨
        ∃ p, packingOf sch = .ok p ∧ s.srcLen.toNat ≤ s.cfg.srcCap ∧
          (p ≠ .thirtyTwo → s.palLen.toNat ≤ palCap) ∧
          groupCount s.cfg.lenMode p s.srcLen.toNat * pixelsPerGroup p ≤ s.cfg.pixCap ∧
          acceptEncode sch s = s.startEncode p := by
  unfold acceptEncode
  split
  · next e h =>
    refine .inl ⟨e, h, ?_, rfl⟩
    cases sch <;> simp_all [packingOf]
  · next p h =>
    right
    split
    · exact .inl ⟨p, h, rfl⟩
    · split
      · exact .inl ⟨p, h, rfl⟩
      · split
        · exact .inl ⟨p, h, rfl⟩
        · next h1 h2 h3 =>
          refine .inr ⟨p, h, by omega, fun hp => ?_, by omega, rfl⟩
          by_contra hc
          exact h2 ⟨hp, by omega⟩

/-- The acceptance of SIZE: ZeroPixelCount or the raster size (R130, R133). -/
theorem acceptSize_cases (s : State) :
    (s.pixCount = 0 ∧ acceptSize s = s.raise .zeroPixelCount 0 false) ∨
      (s.pixCount ≠ 0 ∧ acceptSize s =
        State.complete { s with width := BitVec.ofNat 64 (rasterSize s.pixCount.toNat).1
                                height := BitVec.ofNat 64 (rasterSize s.pixCount.toNat).2 } .normal false) := by
  unfold acceptSize
  split
  · next h => exact .inl ⟨h, rfl⟩
  · next h => exact .inr ⟨h, rfl⟩

/-- The acceptance of ASSEMBLE: CapacityExceeded or the start (R140). -/
theorem acceptAssemble_cases (s : State) :
    acceptAssemble s = s.raise .capacityExceeded 0 false ∨
      (s.pixCount.toNat ≤ s.cfg.pixCap ∧ 4 * s.width.toNat * s.height.toNat ≤ s.cfg.fbCap ∧
        acceptAssemble s = s.startAssemble) := by
  unfold acceptAssemble
  split
  · exact .inl rfl
  · split
    · exact .inl rfl
    · exact .inr ⟨by omega, by omega, rfl⟩

/-- A MAP ends with an error in MSTATUS or with an address (R160). -/
theorem acceptMap_cases (sch : Scheme) (s : State) :
    (∃ e, acceptMap sch s = s.mraise e) ∨
      ∃ off bi, sourceAddress sch s.mapW.toNat s.mapX.toNat s.mapY.toNat = some (off, bi) ∧ off < 2 ^ 64 ∧
        s.mapX.toNat < s.mapW.toNat ∧ s.mapY.toNat < s.mapH.toNat ∧
        acceptMap sch s = { s with mapOffset := BitVec.ofNat 64 off, mapBit := BitVec.ofInt 32 bi } := by
  unfold acceptMap
  split
  · exact .inl ⟨_, rfl⟩
  · next off bi h =>
    split
    · exact .inl ⟨_, rfl⟩
    · next hxy =>
      split
      · exact .inl ⟨_, rfl⟩
      · next ho =>
        rw [not_not] at hxy
        exact .inr ⟨off, bi, h, by omega, hxy.1, hxy.2, rfl⟩

/-- One engine step of a running ENCODE (R102): the end, a checkpoint that saw CANCEL, an error, a stored group, or an
unwritten element. -/
theorem stepEncode_cases (s : State) :
    (s.eng.i = s.eng.G ∧ stepEncode s = .next (s.complete .normal true)) ∨
      (s.eng.i ≠ s.eng.G ∧ hasCheckpoint s.eng.sch = true ∧ s.ctrl.cancel = true ∧
        stepEncode s = .next (s.complete .cancelled true)) ∨
      (s.eng.i ≠ s.eng.G ∧ (hasCheckpoint s.eng.sch && s.ctrl.cancel) = false ∧
        ((∃ k, group s s.eng.i = .error (.paletteTooSmall k) ∧
            stepEncode s = .next (s.raise .paletteTooSmall k true)) ∨
          (∃ f, group s s.eng.i = .error (.unwritten f) ∧ stepEncode s = .fault f) ∨
          ∃ px, group s s.eng.i = .ok px ∧ stepEncode s = .next (s.storeGroup px))) := by
  unfold stepEncode
  split
  · next h => exact .inl ⟨h, rfl⟩
  · next h =>
    right
    split
    · next hc =>
      rw [Bool.and_eq_true] at hc
      exact .inl ⟨h, hc.1, hc.2, rfl⟩
    · next hc =>
      refine .inr ⟨h, by simpa using hc, ?_⟩
      split
      · next k hg => exact .inl ⟨k, hg, rfl⟩
      · next f hg => exact .inr (.inl ⟨f, hg, rfl⟩)
      · next px hg => exact .inr (.inr ⟨px, hg, rfl⟩)

/-- One engine step of a running ASSEMBLE (R142). -/
theorem stepAssemble_cases (s : State) :
    (s.eng.r = s.eng.h.toNat ∧ stepAssemble s = .next (s.complete .normal false)) ∨
      (s.eng.r ≠ s.eng.h.toNat ∧ s.ctrl.cancel = true ∧ stepAssemble s = .next (s.complete .cancelled false)) ∨
      (s.eng.r ≠ s.eng.h.toNat ∧ s.ctrl.cancel = false ∧
        ((∃ f, rowBytes s s.eng.r = .error f ∧ stepAssemble s = .fault f) ∨
          ∃ bs, rowBytes s s.eng.r = .ok bs ∧ stepAssemble s = .next (s.storeRow bs))) := by
  unfold stepAssemble
  split
  · next h => exact .inl ⟨h, rfl⟩
  · next h =>
    right
    split
    · next hc => exact .inl ⟨h, hc, rfl⟩
    · next hc =>
      refine .inr ⟨h, by simpa using hc, ?_⟩
      split
      · next f hg => exact .inl ⟨f, hg, rfl⟩
      · next bs hg => exact .inr ⟨bs, hg, rfl⟩

/-- The engine's turn by its phase (R24). -/
theorem engineTurn_cases (s : State) :
    (s.eng.phase = .idle ∧ engineTurn s = .next s) ∨
      (s.eng.phase = .encoding ∧ engineTurn s = stepEncode s) ∨
        (s.eng.phase = .assembling ∧ engineTurn s = stepAssemble s) := by
  unfold engineTurn
  cases h : s.eng.phase
  · exact .inl ⟨rfl, rfl⟩
  · exact .inr (.inl ⟨rfl, rfl⟩)
  · exact .inr (.inr ⟨rfl, rfl⟩)

/-- What any command does: it is an engine command issued over one of the three acceptances, or a mapper command over
one of its two (R200). No command faults or is refused. -/
theorem exec_cases (i : Instr) (s : State) :
    (∃ sch, i.port = .cmd ∧ i.opcode = 1 ∧ exec i s = .next (s.issueEngine (encode i) (acceptEncode sch))) ∨
      (i = .size ∧ exec i s = .next (s.issueEngine (encode i) acceptSize)) ∨
      (i = .assemble ∧ exec i s = .next (s.issueEngine (encode i) acceptAssemble)) ∨
      (∃ sch, i.port = .mcmd ∧ i.opcode = 4 ∧ exec i s = .next (acceptMap sch (s.acceptMapper (encode i)))) ∨
      (i = .format ∧ exec i s =
        .next ((s.acceptMapper (encode i)).writeStr (addressText s.mapOffset s.mapBit))) := by
  cases i <;> first
    | exact .inl ⟨_, rfl, rfl, rfl⟩
    | exact .inr (.inl ⟨rfl, rfl⟩)
    | exact .inr (.inr (.inl ⟨rfl, rfl⟩))
    | exact .inr (.inr (.inr (.inl ⟨_, rfl, rfl, rfl⟩)))
    | exact .inr (.inr (.inr (.inr ⟨rfl, rfl⟩)))

/-- A host write of a register: a port, a stored register, or an unused number (R21). -/
theorem hostWriteReg_cases (n : BitVec 5) (v : BitVec 64) (s : State) :
    (∃ p, portOfNumber n = some p ∧ hostWriteReg n v s = writePort p (low32 v) s) ∨
      (∃ r, portOfNumber n = none ∧ regOfNumber n = some r ∧ hostWriteReg n v s = .next (s.storeRegister r v)) ∨
        (portOfNumber n = none ∧ regOfNumber n = none ∧ hostWriteReg n v s = .next s) := by
  unfold hostWriteReg
  split
  · next p h => exact .inl ⟨_, h, rfl⟩
  · next r h h' => exact .inr (.inl ⟨_, h, h', rfl⟩)
  · next h h' => exact .inr (.inr ⟨h, h', rfl⟩)

/-- A host write to an STR element is stored or has no effect on STR; the free choice is used up (R50; log 8). -/
theorem hostWriteStr_cases (a : Nat) (v : Byte) (s : State) :
    hostWriteStr a v s = { s with freeCount := s.freeCount + 1 } ∨
      hostWriteStr a v s = { s with str := s.str.write a v, freeCount := s.freeCount + 1 } := by
  unfold hostWriteStr
  cases Config.hostStoresStr s.freeCount
  · exact .inl rfl
  · exact .inr rfl

/-- A host write of a byte element: beyond the capacity nothing, else the element of its space (R55). -/
theorem hostWriteByte_cases (sp : ByteSpace) (a : Nat) (v : Byte) (s : State) :
    (sp.capacity s.cfg ≤ a ∧ hostWriteByte sp a v s = s) ∨
      (a < sp.capacity s.cfg ∧
        ((sp = .src ∧ hostWriteByte sp a v s = { s with src := s.src.write a v }) ∨
          (sp = .fb ∧ hostWriteByte sp a v s = { s with fb := s.fb.write a v }) ∨
          (sp = .str ∧ hostWriteByte sp a v s = hostWriteStr a v s))) := by
  unfold hostWriteByte
  split
  · next h => cases sp <;> simp [h]
  · next h => exact .inl ⟨by omega, rfl⟩

/-- A word on a port: the decoded command or IllegalCommand (R75, R200). -/
theorem writePort_cases (p : Port) (w : Word) (s : State) :
    (∃ i, decode p w = .ok i ∧ writePort p w s = exec i s) ∨
      (∃ e, decode p w = .error e ∧ writePort p w s = .next (illegalWord p w s)) := by
  unfold writePort
  split
  · next i h => exact .inl ⟨i, h, rfl⟩
  · next e h => exact .inr ⟨e, h, rfl⟩

/-- A step is the engine's turn or the first pending move. -/
theorem step_cases (s : State) :
    (s.agenda = [] ∧ step s = engineTurn s) ∨
      ∃ e rest, s.agenda = e :: rest ∧ step s = perform e { s with agenda := rest } := by
  unfold step advance
  cases h : s.agenda with
  | nil => exact .inl ⟨rfl, rfl⟩
  | cons e rest => exact .inr ⟨e, rest, rfl, rfl⟩

end Sys2Proof.Machine
end

