-- ==== Sys2Proof/Laws/Flags.lean ====
section
/-! SUPPORT. The status words and narrow registers as numbers: the value of each word by its fields (10_state.md R23, R29,
R32). -/

namespace Sys2Proof.Machine

theorem toNat_append (m n : Nat) (x : BitVec m) (y : BitVec n) : (x ++ y).toNat = x.toNat * 2 ^ n + y.toNat := by
  rw [BitVec.toNat_append, ← Nat.shiftLeft_add_eq_or_of_lt y.isLt, Nat.shiftLeft_eq]

theorem toNat_ofBool (b : Bool) : (BitVec.ofBool b).toNat = b.toNat := by cases b <;> rfl

/-- STATUS by its fields (R23). -/
theorem Status.word_toNat (st : Status) :
    st.word.toNat = st.busy.toNat + 2 * st.done.toNat + 4 * st.cancelled.toNat + 8 * st.ovr.toNat +
      16 * st.err.toNat + 256 * st.lastOp.toNat := by
  simp only [Status.word, toNat_append, toNat_ofBool, BitVec.toNat_ofNat]
  omega

/-- MSTATUS by its fields (R32). -/
theorem MStatus.word_toNat (st : MStatus) : st.word.toNat = 16 * st.err.toNat + 256 * st.lastOp.toNat := by
  simp only [MStatus.word, toNat_append, BitVec.toNat_ofNat]
  omega

/-- CTRL by its one field (R29). -/
theorem Ctrl.word_toNat (c : Ctrl) : c.word.toNat = c.cancel.toNat := by
  simp only [Ctrl.word, toNat_append, toNat_ofBool, BitVec.toNat_ofNat]
  omega

/-- A 32-bit register keeps its value on the read path (log 7). -/
theorem widen_toNat (v : BitVec 32) : (widen v).toNat = v.toNat := by
  have := v.isLt
  simp [widen]
  omega

end Sys2Proof.Machine
end

