-- ==== Sys2Proof/Laws/PerInstr.lean ====
section
/-! SUPPORT. One lemma per command about its syntax: the fields of its word (30_encoding.md R70, R72, R73). -/

namespace Sys2Proof.Laws

theorem opField_commandWord (sch op : BitVec 4) : opField (commandWord sch op) = op := by
  revert sch op; decide

theorem schField_commandWord (sch op : BitVec 4) : schField (commandWord sch op) = sch := by
  revert sch op; decide

theorem rsvField_commandWord (sch op : BitVec 4) : rsvField (commandWord sch op) = 0 := by
  revert sch op; decide

/-- The word of a command holds its opcode, its scheme code and zeros. -/
def WordFields.Statement (i : Instr) : Prop :=
  opField (encode i) = i.opcode ∧ schField (encode i) = i.schemeCode ∧ rsvField (encode i) = 0

theorem wordFields_of (i : Instr) : WordFields.Statement i :=
  ⟨opField_commandWord _ _, schField_commandWord _ _, rsvField_commandWord _ _⟩

theorem WordFields.encode1bpp : WordFields.Statement .encode1bpp := wordFields_of _
theorem WordFields.encode2bpp : WordFields.Statement .encode2bpp := wordFields_of _
theorem WordFields.encode4bpp : WordFields.Statement .encode4bpp := wordFields_of _
theorem WordFields.encode8bpp : WordFields.Statement .encode8bpp := wordFields_of _
theorem WordFields.encode16bpp : WordFields.Statement .encode16bpp := wordFields_of _
theorem WordFields.encode24bpp : WordFields.Statement .encode24bpp := wordFields_of _
theorem WordFields.encode32bpp : WordFields.Statement .encode32bpp := wordFields_of _
theorem WordFields.encodeInvalid : WordFields.Statement .encodeInvalid := wordFields_of _
theorem WordFields.encodeInvalidSch (sch : BitVec 4) : WordFields.Statement (.encodeInvalidSch sch) := wordFields_of _
theorem WordFields.size : WordFields.Statement .size := wordFields_of _
theorem WordFields.assemble : WordFields.Statement .assemble := wordFields_of _
theorem WordFields.map1bpp : WordFields.Statement .map1bpp := wordFields_of _
theorem WordFields.map2bpp : WordFields.Statement .map2bpp := wordFields_of _
theorem WordFields.map4bpp : WordFields.Statement .map4bpp := wordFields_of _
theorem WordFields.map8bpp : WordFields.Statement .map8bpp := wordFields_of _
theorem WordFields.map16bpp : WordFields.Statement .map16bpp := wordFields_of _
theorem WordFields.map24bpp : WordFields.Statement .map24bpp := wordFields_of _
theorem WordFields.map32bpp : WordFields.Statement .map32bpp := wordFields_of _
theorem WordFields.mapInvalid : WordFields.Statement .mapInvalid := wordFields_of _
theorem WordFields.mapInvalidSch (sch : BitVec 4) : WordFields.Statement (.mapInvalidSch sch) := wordFields_of _
theorem WordFields.format : WordFields.Statement .format := wordFields_of _

end Sys2Proof.Laws
end

