-- ==== Sys2Proof/Laws/Reference.lean ====
section
/-! SUPPORT. Runs with the host idle, and the agreement of one engine group with the reference pixels. -/

namespace Sys2Proof.Machine

/-- With nothing pending a step is the engine's turn. -/
theorem step_idleHost {s : State} (h : s.agenda = []) : step s = engineTurn s := by
  simp [step, advance, h]

/-- With the host and the engine idle nothing moves. -/
theorem run_idle {s : State} (h : s.eng.phase = .idle) (ha : s.agenda = []) (k : Nat) : run k s = .next s := by
  induction k with
  | zero => rfl
  | succ k ih => simp [run, step_idleHost ha, engineTurn, h, andThen, ih]

/-- The engine's latches and memories hold a stream and, where the packing uses one, a palette. -/
structure Loaded (s : State) (p : Packing) (b : List Byte) (pal : List Pixel) : Prop where
  sch : s.eng.sch = p
  L : s.eng.L.toNat = b.length
  src : ∀ j, j < b.length → s.src.read j = b[j]?
  pal : p ≠ .thirtyTwo → s.eng.PL.toNat = pal.length ∧ ∀ j, j < pal.length → s.pal.read j = pal[j]?

/-- A source byte of a loaded stream. -/
theorem srcByte_loaded {s p b pal} (h : Loaded s p b pal) {j} (hj : j < b.length) :
    srcByte s j = .ok (b.getD j 0) := by
  have := h.src j hj
  simp [srcByte, this, List.getElem?_eq_getElem hj]

/-- A source byte of a loaded stream, 0 beyond its end (R9). -/
theorem srcByteOr0_loaded {s p b pal} (h : Loaded s p b pal) (j) : srcByteOr0 s j = .ok (b.getD j 0) := by
  unfold srcByteOr0; split
  · next hj => rw [h.L] at hj; exact srcByte_loaded h hj
  · next hj => rw [h.L] at hj; simp at hj; simp [List.getD, List.getElem?_eq_none hj]

/-- A palette lookup in a loaded palette (R105). -/
theorem palEntry_loaded {s p b pal} (h : Loaded s p b pal) (hp : p ≠ .thirtyTwo) (k) :
    palEntry s k = match pal[k]? with | some v => .ok v | none => .error (.paletteTooSmall k) := by
  obtain ⟨h1, h2⟩ := h.pal hp
  unfold palEntry; rw [h1]; split
  · next hk => simp [List.getElem?_eq_none hk]
  · next hk =>
    have := h2 k (by omega)
    simp [this, List.getElem?_eq_getElem (show k < pal.length by omega)]

/-- A color index beyond the palette as the engine's stop (R105). -/
def asStop {α} : Except Nat α → Except Stop α
  | .ok x => .ok x
  | .error k => .error (.paletteTooSmall k)

/-- Reading in order commutes with naming the stop. -/
theorem collect_asStop {α β} (f : α → Except Nat β) (xs : List α) :
    collect (fun x => asStop (f x)) xs = asStop (collect f xs) := by
  induction xs with
  | nil => rfl
  | cons x xs ih =>
    simp only [collect, ih]
    cases f x <;> simp [asStop]
    cases collect f xs <;> simp

/-- Reading the images of a list. -/
theorem collect_map {α β γ ε} (f : β → Except ε γ) (g : α → β) (xs : List α) :
    collect f (xs.map g) = collect (fun x => f (g x)) xs := by
  induction xs with
  | nil => rfl
  | cons x xs ih => simp only [List.map_cons, collect, ih]

/-- Reading a list depends on its own elements alone. -/
theorem collect_congr {α γ ε} {f g : α → Except ε γ} {xs : List α} (h : ∀ x ∈ xs, f x = g x) :
    collect f xs = collect g xs := by
  induction xs with
  | nil => rfl
  | cons x xs ih => simp only [collect]; rw [h x (by simp), ih fun y hy => h y (by simp [hy])]

/-- The palette entry of a pixel's reference index is the reference pixel. -/
theorem palEntry_refIndex {s p b pal} (h : Loaded s p b pal) (hp : p ≠ .thirtyTwo) (k) :
    palEntry s (refIndex p b k) = asStop (refPixel p b pal k) := by
  rw [palEntry_loaded h hp]
  cases p <;> simp only [refPixel] <;> first | (cases pal[refIndex _ b k]? <;> rfl) | exact absurd rfl hp

/-- Palette entries of the reference indices of a run of pixels. -/
theorem collect_refIndex {s p b pal} (h : Loaded s p b pal) (hp : p ≠ .thirtyTwo) (ks js : List Nat)
    (hj : js = ks.map (refIndex p b)) :
    collect (palEntry s) js = asStop (collect (refPixel p b pal) ks) := by
  rw [hj, collect_map, ← collect_asStop]
  exact collect_congr fun x _ => palEntry_refIndex h hp x

/-- A group of a loaded stream delivers its reference pixels, or the first index beyond the palette (R110 to R115). -/
theorem group_reference {s p b pal} (h : Loaded s p b pal) {mode} {i} (hi : i < groupCount mode p b.length) :
    group s i = asStop (collect (refPixel p b pal) (List.range' (i * pixelsPerGroup p) (pixelsPerGroup p))) := by
  unfold group; rw [h.sch]
  cases p <;> simp only [groupCount] at hi <;> simp only
  · simp only [group1bpp, srcByte_loaded h hi]
    apply collect_refIndex h (by simp)
    simp only [indices1bpp, pixelsPerGroup, List.range', bitField_eq, refIndex, refByte, List.map]
    have d : ∀ c, c < 8 → (i * 8 + c) / 8 = i ∧ (i * 8 + c) % 8 = c := fun c hc => by omega
    simp [Nat.add_assoc, d]
  · simp only [group2bpp, srcByte_loaded h hi]
    apply collect_refIndex h (by simp)
    simp only [indices2bpp, pixelsPerGroup, List.range', bitField_eq, refIndex, refByte, List.map]
    have d : ∀ c, c < 4 → (i * 4 + c) / 4 = i ∧ (i * 4 + c) % 4 = c := fun c hc => by omega
    simp [Nat.add_assoc, d]
  · simp only [group4bpp, srcByte_loaded h hi]
    apply collect_refIndex h (by simp)
    have hb := (b.getD i 0).isLt
    have e1 : (i * 2 + 1) % 2 = 1 := by omega
    have e2 : (i * 2 + 1) / 2 = i := by omega
    simp [indices4bpp, pixelsPerGroup, List.range', bitField_eq, refIndex, refByte, e1, e2]
    simp at hb; omega
  · simp only [group8bpp, srcByte_loaded h hi]
    apply collect_refIndex h (by simp)
    simp [pixelsPerGroup, refIndex, refByte]
  · simp only [ceilDiv] at hi
    simp only [group16bpp, srcByte_loaded h (show 2 * i < b.length by omega), srcByteOr0_loaded h]
    apply collect_refIndex h (by simp)
    simp [pixelsPerGroup, refIndex, refByte, index16bpp_eq]
  · simp only [group32bpp, collect, srcByteOr0_loaded h, Except.map, argbOf]
    simp [pixelsPerGroup, refPixel, collect, asStop, refByte]
    apply BitVec.eq_of_toNat_eq
    have h0 := (b.getD (4*i) 0).isLt
    have h1 := (b.getD (4*i+1) 0).isLt
    have h2 := (b.getD (4*i+2) 0).isLt
    have h3 := (b.getD (4*i+3) 0).isLt
    simp only [List.getD_eq_getElem?_getD] at *
    generalize b[4*i]?.getD 0 = x0 at *
    generalize b[4*i+1]?.getD 0 = x1 at *
    generalize b[4*i+2]?.getD 0 = x2 at *
    generalize b[4*i+3]?.getD 0 = x3 at *
    simp only [argb, BitVec.toNat_append, BitVec.toNat_ofNat]
    rw [← Nat.shiftLeft_add_eq_or_of_lt h3, ← Nat.shiftLeft_add_eq_or_of_lt h2,
      ← Nat.shiftLeft_add_eq_or_of_lt h1]
    simp only [Nat.shiftLeft_eq]
    omega

/-- Reading one more group of pixels after those before it. -/
theorem collect_range_split {β : Type} (f : Nat → Except Nat β) (a n m : Nat) (h : a + n ≤ m) {us : List β}
    (hu : collect f (List.range a) = .ok us) :
    (∀ k, collect f (List.range' a n) = .error k → collect f (List.range m) = .error k) ∧
    (∀ vs, collect f (List.range' a n) = .ok vs → collect f (List.range (a + n)) = .ok (us ++ vs)) := by
  have e : List.range (a + n) = List.range a ++ List.range' a n := by
    rw [List.range_eq_range', List.range_eq_range']
    simpa using (List.range'_append (s := 0) (m := a) (n := n) (step := 1)).symm
  constructor
  · intro k hk
    obtain ⟨d, rfl⟩ : ∃ d, m = (a + n) + d := ⟨m - (a+n), by omega⟩
    have e2 : List.range (a + n + d) = List.range (a + n) ++ List.range' (a+n) d := by
      rw [List.range_eq_range', List.range_eq_range']
      simpa using (List.range'_append (s := 0) (m := a + n) (n := d) (step := 1)).symm
    rw [e2, e, collect_append, collect_append, hu, hk]
  · intro vs hv
    rw [e, collect_append, hu, hv]

end Sys2Proof.Machine
end

