-- ==== Sys2Proof/Tests/Slice0.lean ====
section
/-! SUPPORT. Tests by evaluation: the check of ill-formed terms, the words of 30_encoding.md R76, a few vectors of
95_test_vectors.md, and for each statement with hypotheses a state that meets them. -/

namespace Sys2Proof.Tests

open Sys2Proof Sys2Proof.Machine

/-! ### Small states -/

/-- A block of small capacities right after reset. -/
def tiny : State := State.resetWith { srcCap := 16, pixCap := 64, fbCap := 64, lenMode := .exact }

/-- A stream and a palette loaded, with their lengths. -/
def loaded (b : List Byte) (pal : List Pixel) : State :=
  { tiny with
    src := Memory.block 0 b, srcLen := BitVec.ofNat 64 b.length
    pal := Memory.block 0 pal, palLen := BitVec.ofNat 32 pal.length }

/-- An ENCODE of a loaded stream right after its acceptance. -/
def encoding (p : Packing) (b : List Byte) (pal : List Pixel) : State :=
  ((loaded b pal).accept 0x01).startEncode p

/-- Pixels and raster dimensions loaded. -/
def raster (px : List Pixel) (n w h : Nat) : State :=
  { tiny with
    pix := Memory.block 0 px, pixCount := BitVec.ofNat 64 n
    width := BitVec.ofNat 64 w, height := BitVec.ofNat 64 h }

/-- An ASSEMBLE right after its acceptance. -/
def assembling (px : List Pixel) (n w h : Nat) : State := ((raster px n w h).accept 0x03).startAssemble

/-- A mapper with its operands. -/
def mapper (w h x y : Nat) : State :=
  { tiny with
    mapW := BitVec.ofNat 32 w, mapH := BitVec.ofNat 32 h, mapX := BitVec.ofNat 32 x, mapY := BitVec.ofNat 32 y }

/-- What a step leaves, if it answers a next state. -/
def after {α : Type} (o : Host.Outcome State Fault Refusal) (f : State → α) : Option α :=
  match o with
  | .next t => some (f t)
  | .fault _ => none
  | .refused _ => none

/-- The palette [P0, P1] of 95_test_vectors.md. -/
def palB : List Pixel := [0xFF000000#32, 0xFFFFFFFF#32]

/-- The palette palI(n) of 95_test_vectors.md, for n up to 256. -/
def palI (n : Nat) : List Pixel := (List.range n).map fun k => BitVec.ofNat 32 (0xFF000000 + k)

/-! ### Well-formed terms and words -/

theorem test_wellFormed_encodeInvalidSch_low : (Instr.encodeInvalidSch 7).wellFormed = false := by decide
theorem test_wellFormed_mapInvalidSch_low : (Instr.mapInvalidSch 0).wellFormed = false := by decide

-- Words written out from R76: bits 3:0 OP, bits 7:4 SCH, bits 31:8 zero.
theorem test_decode_encode :
    decode .cmd 0b00000001#32 = .ok .encode1bpp ∧ decode .cmd 0b00010001#32 = .ok .encode2bpp ∧
    decode .cmd 0b00100001#32 = .ok .encode4bpp ∧ decode .cmd 0b00110001#32 = .ok .encode8bpp ∧
    decode .cmd 0b01000001#32 = .ok .encode16bpp ∧ decode .cmd 0b01010001#32 = .ok .encode24bpp ∧
    decode .cmd 0b01100001#32 = .ok .encode32bpp ∧ decode .cmd 0b01110001#32 = .ok .encodeInvalid ∧
    decode .cmd 0b10000001#32 = .ok (.encodeInvalidSch 8) ∧ decode .cmd 0b11110001#32 = .ok (.encodeInvalidSch 15) := by
  decide

theorem test_decode_size_assemble_format :
    decode .cmd 0b00000010#32 = .ok .size ∧ decode .cmd 0b00000011#32 = .ok .assemble ∧
    decode .mcmd 0b00000101#32 = .ok .format := by decide

theorem test_decode_map :
    decode .mcmd 0b00000100#32 = .ok .map1bpp ∧ decode .mcmd 0b00010100#32 = .ok .map2bpp ∧
    decode .mcmd 0b00100100#32 = .ok .map4bpp ∧ decode .mcmd 0b00110100#32 = .ok .map8bpp ∧
    decode .mcmd 0b01000100#32 = .ok .map16bpp ∧ decode .mcmd 0b01010100#32 = .ok .map24bpp ∧
    decode .mcmd 0b01100100#32 = .ok .map32bpp ∧ decode .mcmd 0b01110100#32 = .ok .mapInvalid ∧
    decode .mcmd 0b10000100#32 = .ok (.mapInvalidSch 8) ∧ decode .mcmd 0b11110100#32 = .ok (.mapInvalidSch 15) := by
  decide

-- The IllegalCommand words of 95_test_vectors.md 2.1.
theorem test_decode_illegal :
    decode .cmd 0x12#32 = .error .schemeNonzero ∧ decode .cmd 0x04#32 = .error .wrongPort ∧
    decode .cmd 0x00#32 = .error .illegalOpcode ∧ decode .cmd 0x06#32 = .error .illegalOpcode ∧
    decode .cmd 0x101#32 = .error .reservedNonzero ∧ decode .cmd 0x80000031#32 = .error .reservedNonzero ∧
    decode .mcmd 0x15#32 = .error .schemeNonzero ∧ decode .mcmd 0x01#32 = .error .wrongPort := by decide

theorem test_encode_words :
    encode .encode32bpp = 0x61#32 ∧ encode (.encodeInvalidSch 15) = 0xF1#32 ∧ encode .assemble = 0x03#32 ∧
    encode .map4bpp = 0x24#32 ∧ encode .format = 0x05#32 := by decide

-- R79: the disassembler's listing.
theorem test_listing :
    disassemble .cmd 0xF1#32 = .withCode "ENCODE.INVALID" 15 ∧ disassemble .mcmd 0x34#32 = .command "MAP.8BPP" ∧
    disassemble .cmd 0x101#32 = .word 0x101#32 := by decide

/-! ### Vectors of 95_test_vectors.md, one step each -/

-- N1, N6
theorem test_encode1bpp_bits :
    after (engineTurn (encoding .one [0xA0] palB)) (fun t => (t.pix.map Prod.snd, t.eng.i, t.eng.out)) =
      some ([0xFF000000, 0xFF000000, 0xFF000000, 0xFF000000, 0xFF000000, 0xFFFFFFFF, 0xFF000000, 0xFFFFFFFF], 1, 8) := by
  decide
theorem test_encode1bpp_paletteTooSmall :
    after (engineTurn (encoding .one [0x02] (palI 1))) (fun t => (t.status.word, t.errInfo, t.pixCount)) =
      some (0x122, 1, 0) := by decide

-- N9, N11
theorem test_encode2bpp_pairs :
    after (engineTurn (encoding .two [0xE4] (palI 4))) (fun t => t.pix.map Prod.snd) =
      some [0xFF000000, 0xFF000001, 0xFF000002, 0xFF000003] := by decide
theorem test_encode2bpp_paletteTooSmall :
    after (engineTurn (encoding .two [0xC0] (palI 3))) (fun t => (t.status.word, t.errInfo, t.pix)) =
      some (0x122, 3, []) := by decide

-- N15 and N17 by R112, on the palette palI
theorem test_encode4bpp_nibbles :
    after (engineTurn (encoding .four [0xAB] (palI 16))) (fun t => t.pix) =
      some [(0, 0xFF00000A), (1, 0xFF00000B)] := by decide
theorem test_encode4bpp_paletteTooSmall :
    after (engineTurn (encoding .four [0xAB] (palI 11))) (fun t => (t.errInfo, t.pix)) = some (11, []) := by decide

-- T20's first pixel: CANCEL is not read; N23
theorem test_encode8bpp_ignores_cancel :
    after (engineTurn { encoding .eight [1, 0] (palI 2) with ctrl := { cancel := true } })
      (fun t => (t.pix, t.progress, t.status.word)) = some ([(0, 0xFF000001)], 0, 0x101) := by decide
theorem test_encode8bpp_paletteTooSmall :
    after (engineTurn (encoding .eight [5] (palI 2))) (fun t => (t.status.word, t.errInfo)) = some (0x122, 5) := by
  decide

-- E6 by rule R114: a missing low byte is 0; N30
theorem test_encode16bpp_missing_low_byte :
    after (engineTurn (encoding .sixteen [0] (palI 1))) (fun t => t.pix) = some [(0, 0xFF000000)] := by decide
theorem test_encode16bpp_big_endian :
    after (engineTurn (encoding .sixteen [1, 2] (palI 1))) (fun t => t.errInfo) = some 0x102 := by decide

-- T1, and the second group of T3
theorem test_encode32bpp_argb :
    after (engineTurn (encoding .thirtyTwo [0x10, 0x20, 0x30, 0x40] [])) (fun t => t.pix) =
      some [(0, 0x10203040)] := by decide
theorem test_encode32bpp_tail :
    after (engineTurn { encoding .thirtyTwo [1, 2, 3, 4, 5] [] with
      eng := { (encoding .thirtyTwo [1, 2, 3, 4, 5] []).eng with i := 1, out := 1 } }) (fun t => t.pix) =
      some [(1, 0x05000000)] := by decide

-- T9, T10 and the word 0xF1 of 2.1
theorem test_encode24bpp_unsupported :
    after (exec .encode24bpp (loaded [1, 2, 3] [])) (fun t => (t.status.word, t.pixCount)) = some (0x132, 0) := by
  decide
theorem test_encodeInvalid : after (exec .encodeInvalid tiny) (fun t => t.status.word) = some 0x112 := by decide
theorem test_encodeInvalidSch :
    after (exec (.encodeInvalidSch 15) tiny) (fun t => (t.cmd, t.status.word)) = some (0xF1, 0x112) := by decide

-- 2.4
theorem test_size_7 :
    after (exec .size { tiny with pixCount := 7 }) (fun t => (t.width, t.height, t.status.word)) =
      some (2, 4, 0x202) := by decide
theorem test_size_largest :
    after (exec .size { tiny with pixCount := 0xFFFFFFFFFFFFFFFF }) (fun t => (t.width, t.height)) =
      some (4294967295, 4294967297) := by decide

-- A1, A13
theorem test_assemble_bgra :
    after (engineTurn (assembling [0xFF112233] 1 1 1)) (fun t => t.fb.map Prod.snd) =
      some [0x33, 0x22, 0x11, 0xFF] := by decide
theorem test_assemble_capacity :
    after (exec .assemble { raster [] 0 2 2 with cfg := { tiny.cfg with fbCap := 12 } })
      (fun t => (t.status.word, t.fb)) = some (0x372, []) := by decide

-- M3, M21
theorem test_map1bpp :
    after (exec .map1bpp (mapper 4 4 3 2)) (fun t => (t.mapOffset, t.mapBit, t.mstatus.word)) =
      some (1, 3, 0x400) := by decide
theorem test_map1bpp_range :
    after (exec .map1bpp (mapper 3 3 3 0)) (fun t => (t.mapOffset, t.mstatus.word)) = some (0, 0x460) := by decide

-- M5, M11, M1, M13, M15, M17
theorem test_map2bpp :
    after (exec .map2bpp (mapper 3 3 1 1)) (fun t => (t.mapOffset, t.mapBit)) = some (1, 0) := by decide
theorem test_map4bpp :
    after (exec .map4bpp (mapper 2 2 1 1)) (fun t => (t.mapOffset, t.mapBit)) = some (1, 4) := by decide
theorem test_map8bpp :
    after (exec .map8bpp (mapper 4 4 2 1)) (fun t => (t.mapOffset, t.mapBit)) = some (6, 0xFFFFFFFF) := by decide
theorem test_map16bpp :
    after (exec .map16bpp (mapper 3 3 2 1)) (fun t => (t.mapOffset, t.mapBit)) = some (10, 0xFFFFFFFF) := by decide
theorem test_map24bpp :
    after (exec .map24bpp (mapper 3 3 2 1)) (fun t => (t.mapOffset, t.mapBit)) = some (15, 0xFFFFFFFF) := by decide
theorem test_map32bpp :
    after (exec .map32bpp (mapper 2 2 1 1)) (fun t => (t.mapOffset, t.mapBit)) = some (12, 0xFFFFFFFF) := by decide

-- M28, M27
theorem test_map32bpp_overflow :
    after (exec .map32bpp (mapper 0xFFFFFFFF 0xFFFFFFFF 0xFFFFFFFE 0xFFFFFFFE)) (fun t => t.mstatus.word) =
      some 0x480 := by decide
theorem test_map8bpp_largest :
    after (exec .map8bpp (mapper 0xFFFFFFFF 0xFFFFFFFF 0xFFFFFFFE 0xFFFFFFFE)) (fun t => t.mapOffset) =
      some 0xFFFFFFFE00000000 := by decide

-- M20, M19
theorem test_mapInvalid : after (exec .mapInvalid (mapper 0 0 5 5)) (fun t => t.mstatus.word) = some 0x410 := by
  decide
theorem test_mapInvalidSch :
    after (exec (.mapInvalidSch 9) (mapper 3 3 2 1)) (fun t => t.mstatus.word) = some 0x410 := by decide

-- F2, F6
theorem test_format_bit :
    after (exec .format { tiny with mapOffset := 1, mapBit := 4 }) (fun t => (t.strLen, (t.str.map Prod.snd).take 13)) =
      some (12, [0x30, 0x78, 0x30, 0x30, 0x30, 0x30, 0x30, 0x30, 0x30, 0x31, 0x3A, 0x34, 0x00]) := by decide
theorem test_format_longest :
    after (exec .format { tiny with mapOffset := 0xFFFFFFFFFFFFFFFF, mapBit := 0x7FFFFFFF })
      (fun t => (t.strLen, t.mstatus.word, (t.str.map Prod.snd).drop 18)) =
      some (29, 0x500, [0x3A, 0x32, 0x31, 0x34, 0x37, 0x34, 0x38, 0x33, 0x36, 0x34, 0x37, 0, 0, 0]) := by decide

/-! ### States that meet the hypotheses of the statements -/

/-- The reset block with the given moves pending. -/
def pending (es : List Event) : State := { tiny with agenda := es }

/-- A block with an engine command running. -/
def busy (es : List Event) : State := { encoding .one [0xA0] palB with agenda := es }

/-- The host sets CANCEL after `j` engine steps. -/
def cancelAfter (j : Nat) (s : State) : State :=
  { s with agenda := List.replicate j .engine ++ [.writeReg 2 1, .engine] }

theorem test_witness_DecodeOfEncodeIsTheCommand :
    (Instr.encodeInvalidSch 8).wellFormed = true ∧ (Instr.mapInvalidSch 15).wellFormed = true ∧
    Instr.format.wellFormed = true := by decide

theorem test_witness_EncodeOfDecodeIsTheWord :
    decode .cmd 0x81#32 = .ok (.encodeInvalidSch 8) ∧ decode .mcmd 0x05#32 = .ok .format := by decide

theorem test_witness_TableWordsDecode :
    8 ≤ (8#4).toNat ∧ BitVec.ofNat 32 (16 * (8#4).toNat + 1) = 0x81#32 ∧ 8 ≤ (15#4).toNat ∧
    BitVec.ofNat 32 (16 * (15#4).toNat + 4) = 0xF4#32 := by decide

-- One word for each condition of R74, and an illegal word on each port.
theorem test_witness_IllegalWordsEndAtOnceWithErrorFour :
    (0x100#32).extractLsb' 8 24 ≠ 0 ∧ (0x10#32).extractLsb' 0 4 = 0 ∧ 6 ≤ ((0x06#32).extractLsb' 0 4).toNat ∧
    (0x04#32).extractLsb' 0 4 = 4 ∧ (0x01#32).extractLsb' 0 4 = 1 ∧
    ((0x12#32).extractLsb' 0 4 = 2 ∧ (0x12#32).extractLsb' 4 4 ≠ 0) ∧
    ((pending [.writeReg 0 0x12]).agenda = .writeReg 0 0x12 :: [] ∧
      decode .cmd ((0x12#64).setWidth 32) = .error .schemeNonzero ∧ tiny.status.busy = false) ∧
    ((pending [.writeReg 10 0x1FFFFFFFF]).agenda = .writeReg 10 0x1FFFFFFFF :: [] ∧
      decode .mcmd ((0x1FFFFFFFF#64).setWidth 32) = .error .reservedNonzero) := by decide

theorem test_witness_StepRunsTheDecodedCommand :
    ((pending [.writeReg 0 0xF1]).agenda = .writeReg 0 0xF1 :: [] ∧
      decode .cmd ((0xF1#64).setWidth 32) = .ok (.encodeInvalidSch 15) ∧
      (Instr.encodeInvalidSch 15).wellFormed = true) ∧
    ((pending [.writeReg 10 0x64, .engine]).agenda = .writeReg 10 0x64 :: [.engine] ∧
      decode .mcmd ((0x64#64).setWidth 32) = .ok .map32bpp ∧ Instr.map32bpp.wellFormed = true) := by decide

theorem test_witness_PlacedWordRunsItsCommand :
    decodeTableWord 32 0x61 = some .encode32bpp ∧ decodeTableWord 32 0xF4 = some (.mapInvalidSch 15) := by decide

theorem test_witness_OverrunSetsOvrAndNothingElse :
    (busy [.writeReg 0 0x02]).status.busy = true ∧
    (busy [.writeReg 0 0x02]).agenda = .writeReg 0 0x02 :: [] := by decide

-- Each capacity exactly full: 16 bytes of 32 bpp with a PAL_LEN beyond the palette, 8 bytes of 1 bpp with 65536.
theorem test_witness_EncodeStartsWithLatchedOperands :
    (encodePacking .encode1bpp = some .one ∧ tiny.status.busy = false ∧ (8#64).toNat ≤ tiny.cfg.srcCap ∧
      (65536#32).toNat ≤ 65536 ∧ groupCount .exact .one (8#64).toNat * pixelsPerGroup .one = tiny.cfg.pixCap) ∧
    (encodePacking .encode32bpp = some .thirtyTwo ∧ (16#64).toNat = tiny.cfg.srcCap ∧
      groupCount .exact .thirtyTwo (16#64).toNat * pixelsPerGroup .thirtyTwo ≤ tiny.cfg.pixCap) := by decide

theorem test_witness_EncodeBeyondCapacityEndsWithErrorSeven :
    encodePacking .encode8bpp = some .eight ∧ tiny.status.busy = false ∧ tiny.cfg.srcCap < (17#64).toNat ∧
    65536 < (65537#32).toNat ∧ tiny.cfg.pixCap < groupCount .exact .one (9#64).toNat * pixelsPerGroup .one := by
  decide

theorem test_witness_EncodeWithoutPackingEndsWithItsError :
    tiny.status.busy = false ∧ 8 ≤ (8#4).toNat ∧ 8 ≤ (15#4).toNat := by decide

theorem test_witness_EncodeStepStoresTheGroup :
    ((encoding .four [0xAB] (palI 16)).eng.phase = .encoding ∧
      (encoding .four [0xAB] (palI 16)).eng.i ≠ (encoding .four [0xAB] (palI 16)).eng.G ∧
      (encoding .four [0xAB] (palI 16)).ctrl.cancel = false ∧
      group (encoding .four [0xAB] (palI 16)) 0 = .ok [0xFF00000A, 0xFF00000B]) ∧
    ((encoding .eight [1] palB).eng.i ≠ (encoding .eight [1] palB).eng.G ∧
      group (encoding .eight [1] palB) 0 = .ok [0xFFFFFFFF]) := by decide

theorem test_witness_EncodeStepRaisesPaletteTooSmall :
    (encoding .two [0xC0] (palI 3)).eng.phase = .encoding ∧
    (encoding .two [0xC0] (palI 3)).eng.i ≠ (encoding .two [0xC0] (palI 3)).eng.G ∧
    (encoding .two [0xC0] (palI 3)).ctrl.cancel = false ∧
    group (encoding .two [0xC0] (palI 3)) 0 = .error (.paletteTooSmall 3) := by decide

theorem test_witness_EncodeEndsNormallyOrAtACheckpoint :
    ((encoding .one [] []).eng.phase = .encoding ∧ (encoding .one [] []).eng.i = (encoding .one [] []).eng.G) ∧
    ({ encoding .two [0] [] with ctrl := { cancel := true } }.eng.phase = .encoding ∧
      (encoding .two [0] []).eng.i ≠ (encoding .two [0] []).eng.G ∧ (encoding .two [0] []).eng.sch = .two ∧
      { encoding .two [0] [] with ctrl := { cancel := true } }.ctrl.cancel = true) := by decide

-- The shortest palette that each depth's premise admits.
theorem test_witness_SubByteGroupsFollowTheBitOrders :
    (encoding .one [0xA0] (palI 2)).src.read 0 = some 0xA0 ∧
    (∀ j, j < 2 → j < (encoding .one [0xA0] (palI 2)).eng.PL.toNat ∧
      (encoding .one [0xA0] (palI 2)).pal.read j = some (BitVec.ofNat 32 (0xFF000000 + j))) ∧
    (∀ j, j < 4 → j < (encoding .two [0xE4] (palI 4)).eng.PL.toNat ∧
      (encoding .two [0xE4] (palI 4)).pal.read j = some (BitVec.ofNat 32 (0xFF000000 + j))) ∧
    (∀ j, j < 16 → j < (encoding .four [0xAB] (palI 16)).eng.PL.toNat ∧
      (encoding .four [0xAB] (palI 16)).pal.read j = some (BitVec.ofNat 32 (0xFF000000 + j))) := by decide

-- The index one below PAL_LEN; at 16 bpp once with the low byte and once without.
theorem test_witness_ByteAndPairGroupsIndexThePalette :
    ((encoding .eight [5] (palI 6)).eng.sch = .eight ∧ (encoding .eight [5] (palI 6)).src.read 0 = some 5 ∧
      (5#8).toNat < (encoding .eight [5] (palI 6)).eng.PL.toNat ∧
      (encoding .eight [5] (palI 6)).pal.read (5#8).toNat = some 0xFF000005) ∧
    ((encoding .sixteen [0, 5] (palI 6)).src.read (2 * 0) = some 0 ∧
      (encoding .sixteen [0, 5] (palI 6)).src.read (2 * 0 + 1) = some 5 ∧
      (0#8).toNat * 256 + (5#8).toNat < (encoding .sixteen [0, 5] (palI 6)).eng.PL.toNat ∧
      (encoding .sixteen [0, 5] (palI 6)).pal.read ((0#8).toNat * 256 + (5#8).toNat) = some 0xFF000005) ∧
    ((encoding .sixteen [0] (palI 1)).src.read (2 * 0) = some 0 ∧
      ¬2 * 0 + 1 < (encoding .sixteen [0] (palI 1)).eng.L.toNat ∧
      (0#8).toNat * 256 + (0#8).toNat < (encoding .sixteen [0] (palI 1)).eng.PL.toNat ∧
      (encoding .sixteen [0] (palI 1)).pal.read ((0#8).toNat * 256 + (0#8).toNat) = some 0xFF000000) := by decide

-- A group with one byte present and three missing.
theorem test_witness_QuadGroupsAssembleArgb :
    (encoding .thirtyTwo [7] []).eng.sch = .thirtyTwo ∧
    ∀ t, t < 4 → if 4 * 0 + t < (encoding .thirtyTwo [7] []).eng.L.toNat then
      (encoding .thirtyTwo [7] []).src.read (4 * 0 + t) = some (if t = 0 then 7#8 else 0#8)
      else (if t = 0 then 7#8 else 0#8) = 0 := by decide

-- For each depth a group whose premise holds: its indices in production order, the last or only one offending.
theorem test_witness_FirstOffendingIndexIsReported :
    ((encoding .one [0x80] (palI 1)).src.read 0 = some 0x80 ∧
      group (encoding .one [0x80] (palI 1)) 0 = .error (.paletteTooSmall ((0x80#8).toNat / 2 ^ 7 % 2)) ∧
      ∀ k, k < 7 → (0x80#8).toNat / 2 ^ k % 2 < (encoding .one [0x80] (palI 1)).eng.PL.toNat) ∧
    ((encoding .two [0xC0] (palI 3)).src.read 0 = some 0xC0 ∧
      group (encoding .two [0xC0] (palI 3)) 0 = .error (.paletteTooSmall ((0xC0#8).toNat / 2 ^ (2 * 3) % 4))) ∧
    ((encoding .four [0xAB] (palI 11)).src.read 0 = some 0xAB ∧
      group (encoding .four [0xAB] (palI 11)) 0 = .error (.paletteTooSmall ((0xAB#8).toNat % 16))) ∧
    ((encoding .eight [1] (palI 1)).src.read 0 = some 1 ∧
      group (encoding .eight [1] (palI 1)) 0 = .error (.paletteTooSmall 1)) ∧
    ((encoding .sixteen [1] (palI 1)).src.read (2 * 0) = some 1 ∧
      ¬2 * 0 + 1 < (encoding .sixteen [1] (palI 1)).eng.L.toNat ∧
      group (encoding .sixteen [1] (palI 1)) 0 = .error (.paletteTooSmall ((1#8).toNat * 256 + (0#8).toNat))) := by
  decide

theorem test_witness_ByteSchemesIgnoreCancel :
    (encoding .sixteen [0] (palI 1)).eng.phase = .encoding ∧
    hasCheckpoint (encoding .sixteen [0] (palI 1)).eng.sch = false := by decide

theorem test_witness_EncodedLengthsAreTheStatedCounts :
    refEncode .exact .oneBpp [1] palB = .ok (0xFFFFFFFF :: List.replicate 7 0xFF000000) ∧
    refEncode .exact .sixteenBpp [0] palB = .ok [0xFF000000] ∧
    refEncode .exact .thirtyTwoBpp [0xAA] [] = .ok [0xAA000000, 0, 0, 0] ∧
    refEncode .floor .thirtyTwoBpp [0xAA] [] = .ok [] := by decide

-- A run that ends with the reference pixels, one that ends with PaletteTooSmall, and one that reads no palette.
theorem test_witness_EncodeRunMeetsTheReference :
    (encodePacking .encode2bpp = some .two ∧ tiny.cfg.valid ∧ (loaded [0xE4] (palI 4)).status.busy = false ∧
      (loaded [0xE4] (palI 4)).agenda = [] ∧ (loaded [0xE4] (palI 4)).srcLen.toNat = 1 ∧
      (∀ j, j < 1 → (loaded [0xE4] (palI 4)).src.read j = [0xE4#8][j]?) ∧
      (loaded [0xE4] (palI 4)).palLen.toNat = (palI 4).length ∧
      (∀ j, j < (palI 4).length → (loaded [0xE4] (palI 4)).pal.read j = (palI 4)[j]?) ∧
      pixelTotal .exact .two 1 ≤ tiny.cfg.pixCap ∧ (loaded [0xE4] (palI 4)).ctrl.cancel = false) ∧
    refPixels .exact .two [0xE4] (palI 3) = .error 3 ∧
    (encodePacking .encode32bpp = some .thirtyTwo ∧ (loaded [7] []).srcLen.toNat = 1 ∧
      (∀ j, j < 1 → (loaded [7] []).src.read j = [7#8][j]?) ∧ pixelTotal .exact .thirtyTwo 1 ≤ tiny.cfg.pixCap) := by
  decide

-- The host cancels before the first of two groups and before the last.
theorem test_witness_CancelledEncodeIsAPrefixOfTheReference :
    encodePacking .encode4bpp = some .four ∧ hasCheckpoint .four = true ∧ tiny.cfg.valid ∧
    (loaded [0x01, 0x10] palB).status.busy = false ∧ (loaded [0x01, 0x10] palB).ctrl.cancel = false ∧
    (cancelAfter 1 (loaded [0x01, 0x10] palB)).agenda = List.replicate 1 .engine ++ [.writeReg 2 1, .engine] ∧
    (loaded [0x01, 0x10] palB).srcLen.toNat = 2 ∧
    (∀ k, k < 2 → (loaded [0x01, 0x10] palB).src.read k = [0x01#8, 0x10#8][k]?) ∧
    (loaded [0x01, 0x10] palB).palLen.toNat = palB.length ∧
    (∀ k, k < palB.length → (loaded [0x01, 0x10] palB).pal.read k = palB[k]?) ∧
    2 ≤ tiny.cfg.srcCap ∧ pixelTotal .exact .four 2 ≤ tiny.cfg.pixCap ∧
    collect (refPixel .four [0x01, 0x10] palB) (List.range (0 * pixelsPerGroup .four)) = .ok [] ∧
    collect (refPixel .four [0x01, 0x10] palB) (List.range (1 * pixelsPerGroup .four)) =
      .ok [0xFF000000, 0xFFFFFFFF] := by decide

theorem test_witness_SizeWritesWidthAndHeight :
    { tiny with pixCount := 1 }.status.busy = false ∧ { tiny with pixCount := 1 }.pixCount ≠ 0 := by decide

theorem test_witness_SizeOfZeroEndsWithErrorFive : tiny.status.busy = false ∧ tiny.pixCount = 0 := by decide

-- The least square, the least non-square, and the largest 64-bit count.
theorem test_witness_RasterSizeFollowsTheAlgorithm :
    (1 ≤ 1 ∧ 1 * 1 ≤ 1 ∧ 1 < (1 + 1) * (1 + 1)) ∧ (1 * 1 ≤ 3 ∧ 3 < (1 + 1) * (1 + 1)) ∧
    (4294967295 * 4294967295 ≤ 2 ^ 64 - 1 ∧ 2 ^ 64 - 1 < (4294967295 + 1) * (4294967295 + 1)) := by decide

-- The same three, and a remainder equal to the width.
theorem test_witness_RasterSizeLaws :
    rasterSize 1 = (1, 1) ∧ rasterSize 2 = (1, 2) ∧ rasterSize 3 = (1, 3) ∧
    rasterSize (2 ^ 64 - 1) = (4294967295, 4294967297) := by decide

-- 16 cells fill FB exactly.
theorem test_witness_AssembleStartsWithClearedFrame :
    (raster [] 64 4 4).status.busy = false ∧ (raster [] 64 4 4).pixCount.toNat = tiny.cfg.pixCap ∧
    4 * (raster [] 64 4 4).width.toNat * (raster [] 64 4 4).height.toNat = tiny.cfg.fbCap := by decide

theorem test_witness_AssembleBeyondCapacityEndsWithErrorSeven :
    (raster [] 65 1 1).status.busy = false ∧ tiny.cfg.pixCap < (raster [] 65 1 1).pixCount.toNat ∧
    tiny.cfg.fbCap < 4 * (raster [] 1 17 1).width.toNat * (raster [] 1 17 1).height.toNat := by decide

-- A row with its last cell a padding cell.
theorem test_witness_AssembleStepStoresTheRow :
    (assembling [5] 1 2 1).eng.phase = .assembling ∧
    (assembling [5] 1 2 1).eng.r ≠ (assembling [5] 1 2 1).eng.h.toNat ∧
    (assembling [5] 1 2 1).ctrl.cancel = false ∧
    (assembling [5] 1 2 1).eng.stride = 4 * (assembling [5] 1 2 1).eng.w.toNat ∧
    ∀ col, col < (assembling [5] 1 2 1).eng.w.toNat →
      if 0 * 2 + col < (assembling [5] 1 2 1).eng.n.toNat then
        (assembling [5] 1 2 1).pix.read (0 * 2 + col) = some (if col = 0 then 5#32 else 0#32)
      else (if col = 0 then 5#32 else 0#32) = 0 := by decide

theorem test_witness_AssembleEndsNormallyOrAtACheckpoint :
    ((assembling [] 0 3 0).eng.phase = .assembling ∧
      (assembling [] 0 3 0).eng.r = (assembling [] 0 3 0).eng.h.toNat) ∧
    ({ assembling [] 0 1 1 with ctrl := { cancel := true } }.eng.phase = .assembling ∧
      (assembling [] 0 1 1).eng.r ≠ (assembling [] 0 1 1).eng.h.toNat ∧
      { assembling [] 0 1 1 with ctrl := { cancel := true } }.ctrl.cancel = true) := by decide

theorem test_witness_AssembleRunMeetsTheReference :
    (raster [1, 2, 3] 3 2 2).status.busy = false ∧ (raster [1, 2, 3] 3 2 2).agenda = [] ∧
    (raster [1, 2, 3] 3 2 2).ctrl.cancel = false ∧
    (raster [1, 2, 3] 3 2 2).pixCount.toNat = [1#32, 2#32, 3#32].length ∧
    (∀ k, k < 3 → (raster [1, 2, 3] 3 2 2).pix.read k = [1#32, 2#32, 3#32][k]?) ∧ 3 ≤ tiny.cfg.pixCap ∧
    4 * (raster [1, 2, 3] 3 2 2).width.toNat * (raster [1, 2, 3] 3 2 2).height.toNat ≤ tiny.cfg.fbCap := by decide

-- The host cancels before the first of two rows and before the last.
theorem test_witness_CancelledAssembleLeavesZeroRows :
    ∀ j, j < (raster [1, 2, 3] 3 2 2).height.toNat →
      (raster [1, 2, 3] 3 2 2).status.busy = false ∧ (raster [1, 2, 3] 3 2 2).ctrl.cancel = false ∧
      (cancelAfter j (raster [1, 2, 3] 3 2 2)).agenda =
        List.replicate j .engine ++ [.writeReg 2 1, .engine] ∧
      (raster [1, 2, 3] 3 2 2).pixCount.toNat = [1#32, 2#32, 3#32].length ∧
      (∀ k, k < 3 → (raster [1, 2, 3] 3 2 2).pix.read k = [1#32, 2#32, 3#32][k]?) ∧ 3 ≤ tiny.cfg.pixCap ∧
      4 * (raster [1, 2, 3] 3 2 2).width.toNat * (raster [1, 2, 3] 3 2 2).height.toNat ≤ tiny.cfg.fbCap := by decide

/-- The largest raster, at its last cell. -/
def lastCell : State := mapper 0xFFFFFFFF 0xFFFFFFFF 0xFFFFFFFE 0xFFFFFFFE

theorem test_witness_BitAddressedMapsWriteOffsetAndBit :
    lastCell.mapX.toNat < lastCell.mapW.toNat ∧ lastCell.mapY.toNat < lastCell.mapH.toNat ∧
    18446744065119617024 = lastCell.mapY.toNat * lastCell.mapW.toNat + lastCell.mapX.toNat ∧
    (mapper 1 1 0 0).mapX.toNat < (mapper 1 1 0 0).mapW.toNat := by decide

-- m = 1 at the last cell, m = 4 at the cell whose offset is the last below 2^64.
theorem test_witness_ByteAddressedMapsWriteOffset :
    (mapBytesPerPixel .map8bpp = some 1 ∧ lastCell.mapX.toNat < lastCell.mapW.toNat ∧
      lastCell.mapY.toNat < lastCell.mapH.toNat) ∧
    (mapBytesPerPixel .map32bpp = some 4 ∧
      (mapper 0x80000000 0x80000000 0x7FFFFFFF 0x7FFFFFFF).mapX.toNat < 0x80000000 ∧
      4 * (0x7FFFFFFF * 0x80000000 + 0x7FFFFFFF) < 2 ^ 64 ∧
      2 ^ 64 ≤ 4 * (0x7FFFFFFF * 0x80000000 + 0x7FFFFFFF + 1)) := by decide

theorem test_witness_OverflowingMapEndsWithErrorEight :
    mapBytesPerPixel .map16bpp = some 2 ∧ lastCell.mapX.toNat < lastCell.mapW.toNat ∧
    lastCell.mapY.toNat < lastCell.mapH.toNat ∧
    2 ^ 64 ≤ 2 * (lastCell.mapY.toNat * lastCell.mapW.toNat + lastCell.mapX.toNat) := by decide

theorem test_witness_OutOfRangeMapEndsWithErrorSix :
    mapBytesPerPixel .map24bpp ≠ none ∧ mapBitsPerPixel .map2bpp ≠ none ∧
    (mapper 3 3 3 0).mapW.toNat ≤ (mapper 3 3 3 0).mapX.toNat ∧
    (mapper 3 3 0 3).mapH.toNat ≤ (mapper 3 3 0 3).mapY.toNat := by decide

theorem test_witness_InvalidMapEndsWithErrorOne : 8 ≤ (8#4).toNat ∧ 8 ≤ (15#4).toNat := by decide

theorem test_witness_MapInvertsThePackingUpToFourBpp : 0 < 1 ∧ 0 < 0xFFFFFFFF := by decide

theorem test_witness_DecimalSuffixOnlyWhenNonNegative :
    (0xFFFFFFFF#32).toInt < 0 ∧ (0x80000000#32).toInt < 0 ∧ 0 ≤ (0#32).toInt ∧ 0 ≤ (0x7FFFFFFF#32).toInt := by
  decide

/-- The invariant of a small state, from the checks of its parts. -/
theorem tiny_inv : Inv tiny :=
  ⟨by decide, ⟨by decide, by decide, by decide, by decide, by decide, by decide, by decide, by decide, by decide,
    by decide⟩, ⟨by decide, by decide, by decide, by decide, by decide, by decide, by decide, by decide, by decide⟩,
    by decide, fun h => absurd h (by decide), fun h => absurd h (by decide)⟩

/-- A running ENCODE whose inputs are written, in the invariant. -/
theorem encoding_inv (b : List Byte) (pal : List Pixel) (hb : b = [0xA0] ∨ b = []) (hp : pal = palB ∨ pal = []) :
    Inv { encoding .one [0xA0] palB with src := Memory.block 0 b, pal := Memory.block 0 pal } := by
  rcases hb with rfl | rfl <;> rcases hp with rfl | rfl <;>
    exact ⟨by decide, ⟨by decide, by decide, by decide, by decide, by decide, by decide, by decide, by decide,
      by decide, by decide⟩, ⟨by decide, by decide, by decide, by decide, by decide, by decide, by decide, by decide,
      by decide⟩, by decide, fun _ => ⟨by decide, by decide, by decide, by decide, by decide, by decide, by decide⟩,
      fun h => absurd h (by decide)⟩

/-- A running ASSEMBLE in the invariant, its one pixel written or not. -/
theorem assembling_inv (px : List Pixel) (h : px = [5] ∨ px = []) : Inv (assembling px 1 1 1) := by
  rcases h with rfl | rfl <;>
    exact ⟨by decide, ⟨by decide, by decide, by decide, by decide, by decide, by decide, by decide, by decide,
      by decide, by decide⟩, ⟨by decide, by decide, by decide, by decide, by decide, by decide, by decide, by decide,
      by decide⟩, by decide, fun h => absurd h (by decide),
      fun _ => ⟨by decide, by decide, by decide, by decide⟩⟩

/-- The inputs of the running ENCODE are written. -/
theorem encoding_written : InputsWritten (encoding .one [0xA0] palB) :=
  ⟨fun _ a ha => by
      obtain rfl : a = 0 := Nat.lt_one_iff.1 ha
      exact ⟨0xA0, rfl⟩,
    fun _ _ a ha => by
      rcases Nat.lt_succ_iff_lt_or_eq.1 (show a < 2 from ha) with h | rfl
      · obtain rfl : a = 0 := Nat.lt_one_iff.1 h
        exact ⟨0xFF000000, rfl⟩
      · exact ⟨0xFFFFFFFF, rfl⟩,
    fun h => absurd h (by decide)⟩

-- Parameters at the bounds of R6.
theorem test_witness_ResetMeetsTheInvariant :
    Config.valid { srcCap := 2 ^ 61 - 1, pixCap := 1, fbCap := 4, lenMode := .floor } ∧
    Config.valid { srcCap := 0, pixCap := 2 ^ 64 - 1, fbCap := 4, lenMode := .exact } := by decide

theorem test_witness_EveryStepKeepsTheInvariant :
    Inv tiny ∧ step tiny = .next tiny ∧ Inv (encoding .one [0xA0] palB) ∧
    (after (step (encoding .one [0xA0] palB)) fun t => t.eng.i) = some 1 :=
  ⟨tiny_inv, rfl, encoding_inv _ _ (.inl rfl) (.inl rfl), by decide⟩

theorem test_witness_RunningCommandTerminates :
    Inv (encoding .one [0xA0] palB) ∧ InputsWritten (encoding .one [0xA0] palB) ∧
    (encoding .one [0xA0] palB).agenda = [] ∧ (encoding .one [0xA0] palB).status.busy = true :=
  ⟨encoding_inv _ _ (.inl rfl) (.inl rfl), encoding_written, rfl, rfl⟩

theorem test_witness_EngineRunsOnWrittenInputs :
    Inv (encoding .one [0xA0] palB) ∧ InputsWritten (encoding .one [0xA0] palB) :=
  ⟨encoding_inv _ _ (.inl rfl) (.inl rfl), encoding_written⟩

-- An unwritten byte, an unwritten entry, an unwritten pixel.
theorem test_witness_EngineFaultsNameUnwrittenElements :
    (Inv { encoding .one [0xA0] palB with src := Memory.block 0 [], pal := Memory.block 0 palB } ∧
      engineTurn { encoding .one [0xA0] palB with src := Memory.block 0 [], pal := Memory.block 0 palB } =
        .fault (.unwrittenSrc 0)) ∧
    (Inv { encoding .one [0xA0] palB with src := Memory.block 0 [0xA0], pal := Memory.block 0 [] } ∧
      engineTurn { encoding .one [0xA0] palB with src := Memory.block 0 [0xA0], pal := Memory.block 0 [] } =
        .fault (.unwrittenPal 0)) ∧
    (Inv (assembling [] 1 1 1) ∧ engineTurn (assembling [] 1 1 1) = .fault (.unwrittenPix 0)) :=
  ⟨⟨encoding_inv _ _ (.inr rfl) (.inl rfl), rfl⟩, ⟨encoding_inv _ _ (.inl rfl) (.inr rfl), rfl⟩,
    assembling_inv _ (.inr rfl), rfl⟩

theorem test_witness_OnlyTheOwningCommandWritesAMemory :
    (after (engineTurn (encoding .one [0xA0] palB)) fun t => t.eng.i) = some 1 ∧
    (encoding .one [0xA0] palB).eng.phase ≠ .assembling ∧
    (after (engineTurn (assembling [5] 1 1 1)) fun t => t.eng.r) = some 1 ∧
    (assembling [5] 1 1 1).eng.phase ≠ .encoding ∧
    (after (exec .map8bpp tiny) fun t => t.mcmd) = some 0x34 := by decide

theorem test_witness_CancelChangesOnlyByHostOrReset :
    (after (step (pending [.writeReg 2 1])) fun t => t.ctrl) = some { cancel := true } ∧
    (pending [.writeReg 2 1]).ctrl = { cancel := false } ∧
    (after (step { pending [.reset] with ctrl := { cancel := true } }) fun t => t.ctrl) =
      some { cancel := false } := by decide

-- A step that ends an ENCODE, one that does not, and one of an ASSEMBLE.
theorem test_witness_RunningCommandReadsOnlyLatches :
    ((encoding .one [] []).eng.phase = .encoding ∧
      (after (engineTurn (encoding .one [] [])) fun t => t.eng.phase) = some .idle) ∧
    (after (engineTurn (encoding .one [0xA0] palB)) fun t => t.eng.phase) = some .encoding ∧
    (after (engineTurn (assembling [] 0 3 0)) fun t => t.eng.phase) = some .idle := by decide

theorem test_witness_MapperAndEngineCommute :
    (Instr.mapInvalidSch 8).port = .mcmd ∧ Instr.format.port = .mcmd := by decide

theorem test_witness_MapperAndEngineStateAreSeparate :
    Instr.map1bpp.port = .mcmd ∧ Instr.assemble.port = .cmd ∧
    (after (exec .assemble (raster [5] 1 1 1)) fun t => t.eng.phase) = some .assembling ∧
    (after (engineTurn (assembling [5] 1 1 1)) fun t => t.eng.r) = some 1 := by decide

-- The last element within a capacity and the first beyond it.
theorem test_witness_HostReadsHaveNoSideEffect :
    (pending [.readReg 19]).agenda = .readReg 19 :: [] ∧
    (∀ n : BitVec 5, (pending [.readReg n]).agenda = .readReg n :: []) ∧
    (pending [.readReg 31]).agenda = .readReg 31 :: [] ∧
    (pending [.readByte .str 32]).agenda = .readByte .str 32 :: [] ∧ ByteSpace.str.capacity tiny.cfg ≤ 32 ∧
    15 < ByteSpace.src.capacity tiny.cfg ∧ (Memory.block 15 [7#8]).read 15 = some 7 ∧
    (pending [.readWord .pal 65536]).agenda = .readWord .pal 65536 :: [] ∧
    WordSpace.pal.capacity tiny.cfg ≤ 65536 ∧ 63 < WordSpace.pix.capacity tiny.cfg ∧
    (Memory.block 63 [7#32]).read 63 = some 7 := by decide

-- One register of each class: 64 bits, 32 bits, CTRL, read-only, unused.
theorem test_witness_HostRegisterWritesStoreByWidth :
    ∀ n ∈ [16#5, 17#5, 2#5, 18#5, 19#5, 31#5],
      (pending [.writeReg n 0xFFFFFFFFFFFFFFFE]).agenda = .writeReg n 0xFFFFFFFFFFFFFFFE :: [] ∧ n ≠ 0 ∧ n ≠ 10 := by
  decide

-- The last STR index and the first beyond it; the last and the first beyond of the other spaces.
theorem test_witness_HostElementWritesStoreWithinCapacity :
    ((pending [.writeByte .str 31 1]).agenda = .writeByte .str 31 1 :: [] ∧ 31 < ByteSpace.str.capacity tiny.cfg) ∧
    ((pending [.writeByte .str 32 1]).agenda = .writeByte .str 32 1 :: [] ∧ 32 ≤ 32) ∧
    (pending [.writeByte .src 15 1]).agenda = .writeByte .src 15 1 :: [] ∧ ByteSpace.src ≠ .str ∧
    (pending [.writeByte .fb 64 1]).agenda = .writeByte .fb 64 1 :: [] ∧
    (pending [.writeWord .pal 65535 1]).agenda = .writeWord .pal 65535 1 :: [] ∧
    (pending [.writeWord .pix 64 1]).agenda = .writeWord .pix 64 1 :: [] := by decide

-- R55, U17: a host write to STR[32] is ignored.
theorem test_write_str_beyond_capacity :
    step (pending [.writeByte .str 32 1]) = .next (pending []) := rfl

theorem test_witness_MemWriteThenRead :
    1 < [1#8, 2#8].length ∧ 4 < 5 ∧ 5 + [1#8, 2#8].length ≤ 7 ∧ (Memory.block 3 [1#8, 2#8]).wf := by decide

theorem test_witness_ResetClearsRegistersAndAbandonsTheCommand :
    (busy [.reset]).agenda = .reset :: [] ∧ (busy [.reset]).status.busy = true := by decide

theorem test_witness_WaitPollsUntilNotBusy :
    ((busy [.poll]).agenda = .poll :: [] ∧ (busy [.poll]).status.busy = true) ∧
    ((pending [.poll]).agenda = .poll :: [] ∧ (pending [.poll]).status.busy = false) := by decide

theorem test_witness_IdleEngineTakesNoStep : tiny.eng.phase = .idle ∧ tiny.agenda = [] := by decide

end Sys2Proof.Tests
end

section
/-! SUPPORT. The mapper and the engine share no state (00_scope.md R5, 10_state.md R32, 60_exceptions.md R214): the
mapper's part of the state as a value of its own, that mapper commands depend on and change this part alone, and that
the engine's turn neither reads nor changes it. -/

namespace Sys2Proof.Machine

/-! ### The mapper's part of the state -/

/-- The mapper registers (R32) and the string memory: all that mapper commands read and write. -/
structure MapperPart where
  mcmd : BitVec 32
  mstatus : MStatus
  mapW : BitVec 32
  mapH : BitVec 32
  mapX : BitVec 32
  mapY : BitVec 32
  mapOffset : BitVec 64
  mapBit : BitVec 32
  strLen : BitVec 32
  str : Memory 8

/-- The mapper's part of a state. -/
def State.mapper (s : State) : MapperPart :=
  { mcmd := s.mcmd, mstatus := s.mstatus, mapW := s.mapW, mapH := s.mapH, mapX := s.mapX, mapY := s.mapY
    mapOffset := s.mapOffset, mapBit := s.mapBit, strLen := s.strLen, str := s.str }

/-- A state with its mapper's part replaced. -/
def State.withMapper (s : State) (m : MapperPart) : State :=
  { s with
    mcmd := m.mcmd, mstatus := m.mstatus, mapW := m.mapW, mapH := m.mapH, mapX := m.mapX, mapY := m.mapY
    mapOffset := m.mapOffset, mapBit := m.mapBit, strLen := m.strLen, str := m.str }

section
variable (s : State) (m : MapperPart)

@[simp] theorem State.withMapper_mapper_self : s.withMapper s.mapper = s := rfl
@[simp] theorem State.mapper_withMapper : (s.withMapper m).mapper = m := rfl
@[simp] theorem State.withMapper_eng : (s.withMapper m).eng = s.eng := rfl
@[simp] theorem State.withMapper_ctrl : (s.withMapper m).ctrl = s.ctrl := rfl
@[simp] theorem State.withMapper_mapW : (s.withMapper m).mapW = m.mapW := rfl
@[simp] theorem State.mapper_mapW : s.mapper.mapW = s.mapW := rfl
@[simp] theorem State.withMapper_mapH : (s.withMapper m).mapH = m.mapH := rfl
@[simp] theorem State.mapper_mapH : s.mapper.mapH = s.mapH := rfl
@[simp] theorem State.withMapper_mapX : (s.withMapper m).mapX = m.mapX := rfl
@[simp] theorem State.mapper_mapX : s.mapper.mapX = s.mapX := rfl
@[simp] theorem State.withMapper_mapY : (s.withMapper m).mapY = m.mapY := rfl
@[simp] theorem State.mapper_mapY : s.mapper.mapY = s.mapY := rfl

end

/-! ### Mapper commands -/

/-- An operation that depends on the mapper's part of the state alone and changes nothing else. -/
def MapperLocal (f : State → State) : Prop :=
  ∀ s t : State, f (t.withMapper s.mapper) = t.withMapper (f s).mapper

namespace MapperLocal

variable {f g : State → State}

/-- A mapper-local operation changes the mapper's part alone. -/
theorem eq_withMapper (hf : MapperLocal f) (s : State) : f s = s.withMapper (f s).mapper := hf s s

theorem comp (hg : MapperLocal g) (hf : MapperLocal f) : MapperLocal fun s => g (f s) := fun s t =>
  calc g (f (t.withMapper s.mapper))
      = g (t.withMapper (f s).mapper) := by rw [hf s t]
    _ = t.withMapper (g (f s)).mapper := hg (f s) t

end MapperLocal

theorem acceptMapper_mapperLocal (w : Word) : MapperLocal fun s => s.acceptMapper w := fun _ _ => rfl

/-- A MAP reads MAP_W, MAP_H, MAP_X and MAP_Y and writes MSTATUS or the address (R160). -/
theorem acceptMap_mapperLocal (sch : Scheme) : MapperLocal (acceptMap sch) := fun s t => by
  simp only [acceptMap, State.withMapper_mapW, State.withMapper_mapH, State.withMapper_mapX, State.withMapper_mapY,
    State.mapper_mapW, State.mapper_mapH, State.mapper_mapX, State.mapper_mapY]
  rcases sourceAddress sch s.mapW.toNat s.mapX.toNat s.mapY.toNat with _ | ⟨off, bi⟩
  · rfl
  · by_cases hcoord : s.mapX.toNat < s.mapW.toNat ∧ s.mapY.toNat < s.mapH.toNat
    · by_cases hoff : 2 ^ 64 ≤ off <;> simp only [hcoord, hoff, not_true_eq_false, and_self, ↓reduceIte] <;> rfl
    · simp only [hcoord, not_false_eq_true, ↓reduceIte]; rfl

/-- FORMAT reads MAP_OFFSET and MAP_BIT and writes STR and STR_LEN (R180, R183). -/
theorem writeAddress_mapperLocal :
    MapperLocal fun s => s.writeStr (addressText s.mapOffset s.mapBit) := fun _ _ => rfl

/-- A mapper command is FORMAT or a MAP of one scheme, in every state. -/
theorem mapperCommand_cases {i : Instr} (hi : i.port = .mcmd) :
    i = .format ∨ ∃ sch, ∀ s, exec i s = .next (acceptMap sch (s.acceptMapper (encode i))) := by
  cases i with
  | format => exact .inl rfl
  | map1bpp | map2bpp | map4bpp | map8bpp | map16bpp | map24bpp | map32bpp | mapInvalid | mapInvalidSch =>
    exact .inr ⟨_, fun _ => rfl⟩
  | _ => cases hi

/-- A mapper command is a mapper-local operation, without fault or refusal (R32, R204). -/
theorem exec_mapperLocal {i : Instr} (hi : i.port = .mcmd) :
    ∃ f, MapperLocal f ∧ ∀ s, exec i s = .next (f s) := by
  obtain rfl | ⟨sch, hexec⟩ := mapperCommand_cases hi
  · exact ⟨_, writeAddress_mapperLocal.comp (acceptMapper_mapperLocal _), fun _ => rfl⟩
  · exact ⟨_, (acceptMap_mapperLocal sch).comp (acceptMapper_mapperLocal _), hexec⟩

/-! ### Engine steps -/

/-- A group is read from SRC, PAL and the latches (R102). -/
theorem group_withMapper (s : State) (m : MapperPart) (i : Nat) : group (s.withMapper m) i = group s i := rfl

/-- A row is read from PIX and the latches (R142). -/
theorem rowBytes_withMapper (s : State) (m : MapperPart) (row : Nat) :
    rowBytes (s.withMapper m) row = rowBytes s row := rfl

theorem stepEncode_withMapper (s : State) (m : MapperPart) :
    stepEncode (s.withMapper m) = andThen (stepEncode s) fun t => .next (t.withMapper m) := by
  simp only [stepEncode, State.withMapper_eng, State.withMapper_ctrl, group_withMapper]
  by_cases hend : s.eng.i = s.eng.G
  · simp only [hend, ↓reduceIte]; rfl
  · by_cases hcancel : (hasCheckpoint s.eng.sch && s.ctrl.cancel) = true
    · simp only [hend, hcancel, ↓reduceIte]; rfl
    · simp only [hend, hcancel, ↓reduceIte]
      rcases group s s.eng.i with (_ | _) | _ <;> rfl

theorem stepAssemble_withMapper (s : State) (m : MapperPart) :
    stepAssemble (s.withMapper m) = andThen (stepAssemble s) fun t => .next (t.withMapper m) := by
  simp only [stepAssemble, State.withMapper_eng, State.withMapper_ctrl, rowBytes_withMapper]
  by_cases hend : s.eng.r = s.eng.h.toNat
  · simp only [hend, ↓reduceIte]; rfl
  · by_cases hcancel : s.ctrl.cancel = true
    · simp only [hend, hcancel, ↓reduceIte]; rfl
    · simp only [hend, hcancel, ↓reduceIte]
      rcases rowBytes s s.eng.r with _ | _ <;> rfl

/-- The engine does not read the mapper's part and passes it on (R32, R214). -/
theorem engineTurn_withMapper (s : State) (m : MapperPart) :
    engineTurn (s.withMapper m) = andThen (engineTurn s) fun t => .next (t.withMapper m) := by
  unfold engineTurn
  rw [State.withMapper_eng]
  cases s.eng.phase with
  | idle => rfl
  | encoding => exact stepEncode_withMapper s m
  | assembling => exact stepAssemble_withMapper s m

/-- An engine turn leaves the mapper's part as it was (R32). -/
theorem engineTurn_mapper {s t : State} (h : engineTurn s = .next t) : t.mapper = s.mapper := by
  have hpass := engineTurn_withMapper s s.mapper
  rw [State.withMapper_mapper_self, h] at hpass
  have ht : t = t.withMapper s.mapper := Host.Outcome.next.inj hpass
  rw [ht, State.mapper_withMapper]

/-! ### Either order -/

/-- A mapper-local operation after the engine's turn does what it does before it. -/
theorem engineTurn_mapperLocal {f : State → State} (hf : MapperLocal f) (s : State) :
    engineTurn (f s) = andThen (engineTurn s) fun t => .next (f t) := by
  rw [hf.eq_withMapper s, engineTurn_withMapper]
  cases h : engineTurn s with
  | next t =>
    have hft : f t = t.withMapper (f s).mapper := by
      rw [← hf s t, ← engineTurn_mapper h, State.withMapper_mapper_self]
    simp only [andThen, hft]
  | fault r => rfl
  | refused r => rfl

/-- Settles O50: the command is mapper-local, and the engine's turn commutes with every mapper-local operation. -/
theorem mapperAndEngineCommute : Obligations.MapperAndEngineCommute := by
  intro i s hi
  obtain ⟨f, hf, hexec⟩ := exec_mapperLocal hi
  calc andThen (exec i s) engineTurn
      = engineTurn (f s) := by rw [hexec]; rfl
    _ = andThen (engineTurn s) fun t => .next (f t) := engineTurn_mapperLocal hf s
    _ = andThen (engineTurn s) (exec i) := by rw [← funext hexec]

end Sys2Proof.Machine
end

section
/-! SUPPORT. What a command and an engine turn can leave, said once with the conditions under which they leave it
(60_exceptions.md R200; 40_encode.md R102; 42_assemble.md R142). -/

namespace Sys2Proof.Machine

/-! ### The port of a decoded word -/

theorem encodeOfCode_port (sch : BitVec 4) : (encodeOfCode sch).port = .cmd := by
  unfold encodeOfCode
  split <;> rfl

theorem mapOfCode_port (sch : BitVec 4) : (mapOfCode sch).port = .mcmd := by
  unfold mapOfCode
  split <;> rfl

theorem withoutScheme_eq_ok {sch : BitVec 4} {i j : Instr} (h : withoutScheme sch i = .ok j) : j = i := by
  unfold withoutScheme at h
  split at h <;> cases h
  rfl

/-- A word decodes to a command of the port it is decoded on (R71). -/
theorem decode_port {p : Port} {w : Word} {i : Instr} (h : decode p w = .ok i) : i.port = p := by
  obtain ⟨-, e⟩ | ⟨-, e⟩ := decode_cases p w <;> rw [e] at h
  · unfold decodeFields at h
    split at h
    case h_1 => cases h; exact encodeOfCode_port _
    case h_4 => cases h; exact mapOfCode_port _
    case h_2 | h_3 | h_5 => rw [withoutScheme_eq_ok h]; rfl
    all_goals cases h
  · cases h

/-! ### Commands -/

/-- What an accepted engine word leaves of the state `s` that accepted it (R100, R130, R140, R203). -/
inductive Accepted (s : State) : State → Prop where
  | error (e : ErrorKind) (ofEncode : Bool) : Accepted s (s.raise e 0 ofEncode)
  | size (w h : BitVec 64) : Accepted s (State.complete { s with width := w, height := h } .normal false)
  | encode (p : Packing) (hlen : s.srcLen.toNat ≤ s.cfg.srcCap) (hpal : p ≠ .thirtyTwo → s.palLen.toNat ≤ palCap)
      (hfits : groupCount s.cfg.lenMode p s.srcLen.toNat * pixelsPerGroup p ≤ s.cfg.pixCap) :
      Accepted s (s.startEncode p)
  | assemble (hcount : s.pixCount.toNat ≤ s.cfg.pixCap)
      (hfits : 4 * s.width.toNat * s.height.toNat ≤ s.cfg.fbCap) : Accepted s s.startAssemble

theorem acceptEncode_accepted (sch : Scheme) (s : State) : Accepted s (acceptEncode sch s) := by
  obtain ⟨e, -, -, h⟩ | ⟨p, -, h⟩ | ⟨p, -, hlen, hpal, hfits, h⟩ := acceptEncode_cases sch s <;> rw [h]
  · exact .error _ _
  · exact .error _ _
  · exact .encode p hlen hpal hfits

theorem acceptSize_accepted (s : State) : Accepted s (acceptSize s) := by
  obtain ⟨-, h⟩ | ⟨-, h⟩ := acceptSize_cases s <;> rw [h]
  · exact .error _ _
  · exact .size _ _

theorem acceptAssemble_accepted (s : State) : Accepted s (acceptAssemble s) := by
  obtain h | ⟨hcount, hfits, h⟩ := acceptAssemble_cases s <;> rw [h]
  · exact .error _ _
  · exact .assemble hcount hfits

/-- What a write to CMD leaves: the overrun of a busy block, or what the accepted word leaves (R200). -/
inductive CmdWrite (s : State) : State → Prop where
  | overrun : CmdWrite s s.overrun
  | accepted {t : State} (w : Word) (hbusy : s.status.busy = false) (ht : Accepted (s.accept w) t) : CmdWrite s t

theorem issueEngine_cmdWrite {act : State → State} (hact : ∀ s, Accepted s (act s)) (s : State) (w : Word) :
    CmdWrite s (s.issueEngine w act) := by
  obtain ⟨-, h⟩ | ⟨hbusy, h⟩ := issueEngine_cases s w act <;> rw [h]
  · exact .overrun
  · exact .accepted w hbusy (hact _)

/-- An engine command is issued over one of the three acceptances. -/
theorem exec_cmdWrite {i : Instr} (hi : i.port = .cmd) (s : State) : ∃ t, exec i s = .next t ∧ CmdWrite s t := by
  obtain ⟨sch, -, -, h⟩ | ⟨-, h⟩ | ⟨-, h⟩ | ⟨sch, hport, -⟩ | ⟨rfl, -⟩ := exec_cases i s
  · exact ⟨_, h, issueEngine_cmdWrite (acceptEncode_accepted sch) s _⟩
  · exact ⟨_, h, issueEngine_cmdWrite acceptSize_accepted s _⟩
  · exact ⟨_, h, issueEngine_cmdWrite acceptAssemble_accepted s _⟩
  · rw [hi] at hport; cases hport
  · cases hi

/-- What a write to MCMD leaves of the state `s` that accepted it (R160, R180, R204). -/
inductive McmdWrite (s : State) : State → Prop where
  | error (e : ErrorKind) : McmdWrite s (s.mraise e)
  | address (off : BitVec 64) (bit : BitVec 32) : McmdWrite s { s with mapOffset := off, mapBit := bit }
  | text (t : List Byte) (ht : t.length ≤ 29) : McmdWrite s (s.writeStr t)

theorem acceptMap_mcmdWrite (sch : Scheme) (s : State) : McmdWrite s (acceptMap sch s) := by
  obtain ⟨e, h⟩ | ⟨off, bi, -, -, -, -, h⟩ := acceptMap_cases sch s <;> rw [h]
  · exact .error e
  · exact .address _ _

/-- A mapper command is accepted and is a MAP or FORMAT. -/
theorem exec_mcmdWrite {i : Instr} (hi : i.port = .mcmd) (s : State) :
    ∃ t, exec i s = .next t ∧ McmdWrite (s.acceptMapper (encode i)) t := by
  obtain rfl | ⟨sch, h⟩ := mapperCommand_cases hi
  · exact ⟨_, rfl, .text _ (addressText_length_le _ _)⟩
  · exact ⟨_, h s, acceptMap_mcmdWrite sch _⟩

/-- A write of any word to CMD, legal or not. -/
theorem writePort_cmdWrite (w : Word) (s : State) : ∃ t, writePort .cmd w s = .next t ∧ CmdWrite s t := by
  obtain ⟨i, hdecode, h⟩ | ⟨-, -, h⟩ := writePort_cases .cmd w s <;> rw [h]
  · exact exec_cmdWrite (decode_port hdecode) s
  · exact ⟨_, rfl, issueEngine_cmdWrite (fun _ => .error _ _) s w⟩

/-- A write of any word to MCMD, legal or not. -/
theorem writePort_mcmdWrite (w : Word) (s : State) :
    ∃ t w', writePort .mcmd w s = .next t ∧ McmdWrite (s.acceptMapper w') t := by
  obtain ⟨i, hdecode, h⟩ | ⟨-, -, h⟩ := writePort_cases .mcmd w s <;> rw [h]
  · obtain ⟨t, ht, hwrite⟩ := exec_mcmdWrite (decode_port hdecode) s
    exact ⟨t, _, ht, hwrite⟩
  · exact ⟨_, w, rfl, .error _⟩

/-- What a write of any word to a port leaves. -/
theorem writePort_write {p : Port} {w : Word} {s t : State} (h : writePort p w s = .next t) :
    CmdWrite s t ∨ ∃ w', McmdWrite (s.acceptMapper w') t := by
  cases p with
  | cmd =>
    obtain ⟨t', ht', hwrite⟩ := writePort_cmdWrite w s
    cases ht'.symm.trans h
    exact .inl hwrite
  | mcmd =>
    obtain ⟨t', w', ht', hwrite⟩ := writePort_mcmdWrite w s
    cases ht'.symm.trans h
    exact .inr ⟨w', hwrite⟩

/-! ### Engine turns -/

/-- What an engine turn leaves, if it leaves a state (R24, R102, R142). -/
inductive EngineMove (s : State) : State → Prop where
  | idle (hphase : s.eng.phase = .idle) : EngineMove s s
  | complete (k : Ending) (ofEncode : Bool) (hphase : s.eng.phase ≠ .idle) : EngineMove s (s.complete k ofEncode)
  | paletteTooSmall (idx : Nat) (hphase : s.eng.phase ≠ .idle) : EngineMove s (s.raise .paletteTooSmall idx true)
  | group (px : List Pixel) (hphase : s.eng.phase = .encoding) (hi : s.eng.i ≠ s.eng.G)
      (hpx : px.length = pixelsPerGroup s.eng.sch) : EngineMove s (s.storeGroup px)
  | row (bs : List Byte) (hphase : s.eng.phase = .assembling) (hr : s.eng.r ≠ s.eng.h.toNat)
      (hbs : bs.length = 4 * s.eng.w.toNat) : EngineMove s (s.storeRow bs)

theorem stepEncode_move {s t : State} (hphase : s.eng.phase = .encoding) (h : stepEncode s = .next t) :
    EngineMove s t := by
  have hrun : s.eng.phase ≠ .idle := by simp [hphase]
  obtain ⟨-, e⟩ | ⟨-, -, -, e⟩ | ⟨hi, -, ⟨k, -, e⟩ | ⟨f, -, e⟩ | ⟨px, hpx, e⟩⟩ := stepEncode_cases s <;>
    rw [e] at h <;> cases h
  · exact .complete _ _ hrun
  · exact .complete _ _ hrun
  · exact .paletteTooSmall k hrun
  · exact .group px hphase hi (group_length hpx)

theorem stepAssemble_move {s t : State} (hphase : s.eng.phase = .assembling) (h : stepAssemble s = .next t) :
    EngineMove s t := by
  have hrun : s.eng.phase ≠ .idle := by simp [hphase]
  obtain ⟨-, e⟩ | ⟨-, -, e⟩ | ⟨hr, -, ⟨f, -, e⟩ | ⟨bs, hbs, e⟩⟩ := stepAssemble_cases s <;> rw [e] at h <;> cases h
  · exact .complete _ _ hrun
  · exact .complete _ _ hrun
  · exact .row bs hphase hr (rowBytes_length hbs)

theorem engineTurn_move {s t : State} (h : engineTurn s = .next t) : EngineMove s t := by
  obtain ⟨hphase, e⟩ | ⟨hphase, e⟩ | ⟨hphase, e⟩ := engineTurn_cases s <;> rw [e] at h
  · cases h
    exact .idle hphase
  · exact stepEncode_move hphase h
  · exact stepAssemble_move hphase h

/-! ### Host accesses, and polls -/

/-- The registers have distinct numbers (R20). -/
theorem regOfNumber_eq_some_iff {n : BitVec 5} {r : RegName} : regOfNumber n = some r ↔ n = r.number := by
  revert n; cases r <;> decide

/-- A host write of a word element: beyond the capacity nothing, else the element of its space (R55). -/
theorem hostWriteWord_cases (sp : WordSpace) (a : Nat) (v : Pixel) (s : State) :
    (sp.capacity s.cfg ≤ a ∧ hostWriteWord sp a v s = s) ∨
      (a < sp.capacity s.cfg ∧
        ((sp = .pal ∧ hostWriteWord sp a v s = { s with pal := s.pal.write a v }) ∨
          (sp = .pix ∧ hostWriteWord sp a v s = { s with pix := s.pix.write a v }))) := by
  unfold hostWriteWord
  split
  · next ha => cases sp <;> simp [ha]
  · next ha => exact .inl ⟨by omega, rfl⟩

/-- `t` is what a host read of element `a` of the memory `m` leaves of `s`: the value read, 0 beyond the capacity and
any value for an unwritten element, which may use up a free value (R55, R56; log 5). -/
def ReadsElement {w : Nat} (cap : Nat) (m : Memory w) (a : Nat) (s t : State) : Prop :=
  ∃ v c, t = { s with readData := v, freeCount := c } ∧ (cap ≤ a → v = 0) ∧
    ∀ x, a < cap → m.read a = some x → v = x.setWidth 64

section
variable {w cap a : Nat} {m : Memory w} {s : State}

theorem readsElement_written {v : BitVec w} (ha : a < cap) (hm : m.read a = some v) :
    ReadsElement cap m a s { s with readData := v.setWidth 64 } :=
  ⟨_, _, rfl, fun hge => absurd ha (Nat.not_lt.2 hge), fun _ _ hx => by rw [Option.some.inj (hm.symm.trans hx)]⟩

theorem readsElement_unwritten (ha : a < cap) (hm : m.read a = none) (v : BitVec 64) (c : Nat) :
    ReadsElement cap m a s { s with readData := v, freeCount := c } :=
  ⟨_, _, rfl, fun hge => absurd ha (Nat.not_lt.2 hge), fun _ _ hx => nomatch hm.symm.trans hx⟩

theorem readsElement_beyond (ha : ¬a < cap) : ReadsElement cap m a s { s with readData := 0 } :=
  ⟨_, _, rfl, fun _ => rfl, fun _ hlt => absurd hlt ha⟩

end

theorem hostReadByte_reads (sp : ByteSpace) (a : Nat) (s : State) :
    ReadsElement (sp.capacity s.cfg) (s.bytes sp) a s (hostReadByte sp a s) := by
  unfold hostReadByte
  split
  · next ha =>
    split
    · next v hm => exact readsElement_written ha hm
    · next hm => exact readsElement_unwritten ha hm _ _
  · next ha => exact readsElement_beyond ha

theorem hostReadWord_reads (sp : WordSpace) (a : Nat) (s : State) :
    ReadsElement (sp.capacity s.cfg) (s.words sp) a s (hostReadWord sp a s) := by
  unfold hostReadWord
  split
  · next ha =>
    split
    · next v hm => exact readsElement_written ha hm
    · next hm => exact readsElement_unwritten ha hm _ _
  · next ha => exact readsElement_beyond ha

/-- A poll reads STATUS and changes what the host does next, nothing else (R80; log 9). -/
theorem hostPoll_eq (s : State) :
    ∃ es, hostPoll s = { s with readData := s.readRegister .status, agenda := es } := by
  unfold hostPoll
  split
  · exact ⟨_, rfl⟩
  · exact ⟨s.agenda, rfl⟩

/-- With a pending move a step is that move. -/
theorem step_pending {s : State} {e : Event} {rest : List Event} (h : s.agenda = e :: rest) :
    step s = perform e { s with agenda := rest } := by
  simp [step, advance, h]

end Sys2Proof.Machine
end

section
/-! SUPPORT. Every step keeps the invariant (10_state.md R23, R30, R33; 20_memory.md R55): what it depends on, then
one lemma per operation, then the moves of the block and its host. -/

namespace Sys2Proof.Machine

variable {s t : State}

/-! ### What the invariant depends on -/

/-- With the parameters, the latches and BUSY as they were, the memories and the status registers decide. -/
theorem Inv.of_same_latches (h : Inv s) (hcfg : t.cfg = s.cfg) (heng : t.eng = s.eng)
    (hbusy : t.status.busy = s.status.busy) (hmem : MemoryInv t) (hstatus : StatusInv t) : Inv t where
  cfg := hcfg ▸ h.cfg
  memory := hmem
  status := hstatus
  phaseBusy := by rw [heng, hbusy, h.phaseBusy]
  encoding := fun hp => by
    obtain ⟨⟩ := h.encoding (heng ▸ hp)
    constructor <;> simpa only [heng, hcfg]
  assembling := fun hp => by
    obtain ⟨⟩ := h.assembling (heng ▸ hp)
    constructor <;> simpa only [heng, hcfg]

/-- With the engine idle the memories and the status registers decide. -/
theorem inv_of_idle (hcfg : t.cfg.valid) (hphase : t.eng.phase = .idle) (hbusy : t.status.busy = false)
    (hmem : MemoryInv t) (hstatus : StatusInv t) : Inv t where
  cfg := hcfg
  memory := hmem
  status := hstatus
  phaseBusy := by simp [hphase, hbusy]
  encoding := by simp [hphase]
  assembling := by simp [hphase]

/-! ### Acceptance and the end of a command -/

/-- STATUS of a command that runs or was just accepted: no result yet (R23, R200). -/
def Status.Clear (st : Status) : Prop := st.done = false ∧ st.cancelled = false ∧ st.err = 0

theorem State.accept_clear (s : State) (w : Word) : (s.accept w).status.Clear := ⟨rfl, rfl, rfl⟩

theorem Inv.clear_of_running (h : Inv s) (hphase : s.eng.phase ≠ .idle) : s.status.Clear :=
  h.status.busyClear (h.phaseBusy.1 hphase)

theorem Inv.overrun (h : Inv s) : Inv s.overrun :=
  h.of_same_latches rfl rfl rfl { h.memory with } { h.status with }

theorem Inv.accept (h : Inv s) (w : Word) : Inv (s.accept w) :=
  h.of_same_latches rfl rfl rfl { h.memory with }
    { h.status with
      busyClear := fun _ => s.accept_clear w
      notBoth := fun _ => rfl
      errLegal := Nat.zero_le 8
      lastOp := rfl
      errInfo := fun hinfo => absurd rfl hinfo }

theorem ErrorKind.code_toNat_le (e : ErrorKind) : e.code.toNat ≤ 8 := by cases e <;> decide

/-- An error that ends a command keeps the invariant: only PaletteTooSmall records an index (R202, R203). -/
theorem Inv.raise (h : Inv s) (hclear : s.status.Clear) {e : ErrorKind} {k : Nat}
    (hinfo : k = 0 ∨ e = .paletteTooSmall) (ofEncode : Bool) : Inv (s.raise e k ofEncode) :=
  inv_of_idle h.cfg rfl rfl { h.memory with }
    { h.status with
      busyClear := nofun
      notBoth := fun hcancelled => by
        obtain ⟨-, hnot, -⟩ := hclear
        exact absurd (hcancelled.symm.trans hnot) nofun
      errLegal := e.code_toNat_le
      errInfo := fun hne => by
        obtain rfl | rfl := hinfo
        · exact absurd rfl hne
        · rfl }

/-- The end of a command without an error keeps the invariant (R206). -/
theorem Inv.complete (h : Inv s) (hclear : s.status.Clear) (k : Ending) (ofEncode : Bool) :
    Inv (s.complete k ofEncode) := by
  obtain ⟨-, -, herr⟩ := hclear
  exact inv_of_idle h.cfg rfl rfl { h.memory with } { h.status with busyClear := nofun, notBoth := fun _ => herr }

/-! ### ENCODE -/

/-- The latches of an ENCODE that passed its checks (R100, R101). -/
theorem Inv.startEncode (h : Inv s) (hclear : s.status.Clear) {p : Packing} (hlen : s.srcLen.toNat ≤ s.cfg.srcCap)
    (hpal : p ≠ .thirtyTwo → s.palLen.toNat ≤ palCap)
    (hfits : groupCount s.cfg.lenMode p s.srcLen.toNat * pixelsPerGroup p ≤ s.cfg.pixCap) :
    Inv (s.startEncode p) where
  cfg := h.cfg
  memory := { h.memory with }
  status := { h.status with busyClear := fun _ => hclear, progress := Nat.zero_le 99 }
  phaseBusy := by simp [Status.started]
  encoding := fun _ =>
    { lenLe := hlen, palLe := hpal, groups := rfl, perGroup := rfl, fits := hfits, bound := Nat.zero_le _
      written := (Nat.zero_mul _).symm }
  assembling := by simp

/-- PROGRESS of step `i` of `n` is at most 99 (R30). -/
theorem percent_toNat_le {i n : Nat} (h : i < n) : (BitVec.ofNat 32 (i * 100 / n)).toNat ≤ 99 := by
  have hlt : i * 100 / n < 100 := (Nat.div_lt_iff_lt_mul (by omega)).2 (by omega)
  rw [BitVec.toNat_ofNat]
  exact (Nat.mod_le _ _).trans (Nat.le_of_lt_succ hlt)

/-- A scheme with checkpoints has one group per byte (R101, R103). -/
theorem groupCount_of_hasCheckpoint {p : Packing} (h : hasCheckpoint p = true) (mode : LenMode) (len : Nat) :
    groupCount mode p len = len := by
  cases p <;> first | rfl | cases h

/-- A stored group stays below PIX_CAP and the counters go on (R102, R103). -/
theorem Inv.storeGroup (h : Inv s) (hphase : s.eng.phase = .encoding) (hi : s.eng.i ≠ s.eng.G) {px : List Pixel}
    (hpx : px.length = pixelsPerGroup s.eng.sch) : Inv (s.storeGroup px) := by
  have henc := h.encoding hphase
  have hlt : s.eng.i < s.eng.G := lt_of_le_of_ne henc.bound hi
  have hroom : s.eng.out + px.length ≤ s.cfg.pixCap :=
    calc s.eng.out + px.length
        = (s.eng.i + 1) * s.eng.ppg := by rw [henc.written, hpx, ← henc.perGroup, Nat.succ_mul]
      _ ≤ s.eng.G * s.eng.ppg := Nat.mul_le_mul_right _ hlt
      _ ≤ s.cfg.pixCap := henc.fits
  have hprogress : (s.storeGroup px).progress.toNat ≤ 99 := by
    rw [State.storeGroup_progress]
    split
    · next hcheck =>
      rw [henc.groups, groupCount_of_hasCheckpoint hcheck] at hlt
      exact percent_toNat_le hlt
    · exact h.status.progress
  exact
    { h with
      memory := { h.memory with
        pixWf := Memory.writeList_wf h.memory.pixWf _ _
        pixBelow := Memory.writeList_below h.memory.pixBelow (.inr hroom) }
      status := { h.status with progress := hprogress }
      encoding := fun _ => { henc with
        bound := hlt
        written := by simp [henc.written, Nat.succ_mul] }
      assembling := fun hp => { h.assembling hp with } }

/-! ### ASSEMBLE -/

/-- The latches of an ASSEMBLE that passed its checks, its frame cleared within FB_CAP (R140, R141). -/
theorem Inv.startAssemble (h : Inv s) (hclear : s.status.Clear) (hcount : s.pixCount.toNat ≤ s.cfg.pixCap)
    (hfits : 4 * s.width.toNat * s.height.toNat ≤ s.cfg.fbCap) : Inv s.startAssemble where
  cfg := h.cfg
  memory := { h.memory with
    fbWf := Memory.writeList_wf h.memory.fbWf _ _
    fbBelow := Memory.writeList_below h.memory.fbBelow
      (.inr (by rw [List.length_replicate, Nat.zero_add, Nat.mul_comm]; exact hfits)) }
  status := { h.status with busyClear := fun _ => hclear, progress := Nat.zero_le 99 }
  phaseBusy := by simp [Status.started]
  encoding := by simp
  assembling := fun _ => { countLe := hcount, fits := hfits, stride := rfl, bound := Nat.zero_le _ }

/-- A stored row stays below FB_CAP and the row counter goes on (R142, R145). -/
theorem Inv.storeRow (h : Inv s) (hphase : s.eng.phase = .assembling) (hr : s.eng.r ≠ s.eng.h.toNat) {bs : List Byte}
    (hbs : bs.length = 4 * s.eng.w.toNat) : Inv (s.storeRow bs) := by
  have hasm := h.assembling hphase
  have hlt : s.eng.r < s.eng.h.toNat := lt_of_le_of_ne hasm.bound hr
  have hroom : s.eng.r * s.eng.stride + bs.length ≤ s.cfg.fbCap :=
    calc s.eng.r * s.eng.stride + bs.length
        = (s.eng.r + 1) * (4 * s.eng.w.toNat) := by rw [hasm.stride, hbs, Nat.succ_mul s.eng.r]
      _ ≤ s.eng.h.toNat * (4 * s.eng.w.toNat) := Nat.mul_le_mul_right _ hlt
      _ = 4 * s.eng.w.toNat * s.eng.h.toNat := Nat.mul_comm _ _
      _ ≤ s.cfg.fbCap := hasm.fits
  exact
    { h with
      memory := { h.memory with
        fbWf := Memory.writeList_wf h.memory.fbWf _ _
        fbBelow := Memory.writeList_below h.memory.fbBelow (.inr hroom) }
      status := { h.status with progress := percent_toNat_le hlt }
      encoding := fun hp => { h.encoding hp with }
      assembling := fun _ => { hasm with bound := hlt } }

/-! ### The mapper -/

theorem Inv.acceptMapper (h : Inv s) (w : Word) : Inv (s.acceptMapper w) :=
  h.of_same_latches rfl rfl rfl { h.memory with } { h.status with mErrLegal := Nat.zero_le 8, mLastOp := rfl }

theorem Inv.mraise (h : Inv s) (e : ErrorKind) : Inv (s.mraise e) :=
  h.of_same_latches rfl rfl rfl { h.memory with } { h.status with mErrLegal := e.code_toNat_le }

/-- FORMAT fills STR up to its capacity (R183). -/
theorem Inv.writeStr (h : Inv s) {text : List Byte} (htext : text.length ≤ 29) : Inv (s.writeStr text) :=
  h.of_same_latches rfl rfl rfl
    { h.memory with
      strWf := Memory.writeList_wf h.memory.strWf _ _
      strBelow := Memory.writeList_below h.memory.strBelow
        (.inr (by rw [List.length_append, List.length_replicate, strCap]; omega)) }
    { h.status with strLen := by rw [State.writeStr_strLen, BitVec.toNat_ofNat]; omega }

/-! ### Commands and engine turns -/

theorem Inv.of_accepted (h : Inv s) (hclear : s.status.Clear) (ht : Accepted s t) : Inv t := by
  cases ht with
  | error e ofEncode => exact h.raise hclear (.inl rfl) ofEncode
  | size w hgt =>
    have hsized : Inv { s with width := w, height := hgt } :=
      h.of_same_latches rfl rfl rfl { h.memory with } { h.status with }
    exact hsized.complete hclear _ _
  | encode p hlen hpal hfits => exact h.startEncode hclear hlen hpal hfits
  | assemble hcount hfits => exact h.startAssemble hclear hcount hfits

theorem Inv.of_cmdWrite (h : Inv s) (ht : CmdWrite s t) : Inv t := by
  cases ht with
  | overrun => exact h.overrun
  | accepted w _ ht => exact (h.accept w).of_accepted (s.accept_clear w) ht

theorem Inv.of_mcmdWrite (h : Inv s) (ht : McmdWrite s t) : Inv t := by
  cases ht with
  | error e => exact h.mraise e
  | address off bit => exact h.of_same_latches rfl rfl rfl { h.memory with } { h.status with }
  | text text htext => exact h.writeStr htext

theorem Inv.of_writePort (h : Inv s) {p : Port} {w : Word} (ht : writePort p w s = .next t) : Inv t := by
  obtain hwrite | ⟨w', hwrite⟩ := writePort_write ht
  · exact h.of_cmdWrite hwrite
  · exact (h.acceptMapper w').of_mcmdWrite hwrite

theorem Inv.of_engineMove (h : Inv s) (ht : EngineMove s t) : Inv t := by
  cases ht with
  | idle => exact h
  | complete k ofEncode hphase => exact h.complete (h.clear_of_running hphase) k ofEncode
  | paletteTooSmall idx hphase => exact h.raise (h.clear_of_running hphase) (.inr rfl) true
  | group px hphase hi hpx => exact h.storeGroup hphase hi hpx
  | row bs hphase hr hbs => exact h.storeRow hphase hr hbs

/-! ### The host's accesses and reset -/

theorem Inv.storeRegister (h : Inv s) (r : RegName) (v : BitVec 64) : Inv (s.storeRegister r v) := by
  cases r <;> exact h.of_same_latches rfl rfl rfl { h.memory with } { h.status with }

theorem Inv.of_hostWriteReg (h : Inv s) {n : BitVec 5} {v : BitVec 64} (ht : hostWriteReg n v s = .next t) : Inv t := by
  obtain ⟨p, -, e⟩ | ⟨r, -, -, e⟩ | ⟨-, -, e⟩ := hostWriteReg_cases n v s <;> rw [e] at ht
  · exact h.of_writePort ht
  · cases ht
    exact h.storeRegister r v
  · cases ht
    exact h

theorem Inv.hostWriteByte (h : Inv s) (sp : ByteSpace) (a : Nat) (v : Byte) : Inv (hostWriteByte sp a v s) := by
  have hmem := h.memory
  obtain ⟨-, e⟩ | ⟨ha, ⟨rfl, e⟩ | ⟨rfl, e⟩ | ⟨rfl, e⟩⟩ := hostWriteByte_cases sp a v s <;> rw [e]
  · exact h
  · exact h.of_same_latches rfl rfl rfl
      { hmem with srcWf := Memory.write_wf hmem.srcWf a v, srcBelow := Memory.write_below hmem.srcBelow ha v }
      { h.status with }
  · exact h.of_same_latches rfl rfl rfl
      { hmem with fbWf := Memory.write_wf hmem.fbWf a v, fbBelow := Memory.write_below hmem.fbBelow ha v }
      { h.status with }
  · obtain e | e := hostWriteStr_cases a v s <;> rw [e]
    · exact h.of_same_latches rfl rfl rfl { h.memory with } { h.status with }
    · exact h.of_same_latches rfl rfl rfl
        { hmem with strWf := Memory.write_wf hmem.strWf a v, strBelow := Memory.write_below hmem.strBelow ha v }
        { h.status with }

theorem Inv.hostWriteWord (h : Inv s) (sp : WordSpace) (a : Nat) (v : Pixel) : Inv (hostWriteWord sp a v s) := by
  have hmem := h.memory
  obtain ⟨-, e⟩ | ⟨ha, ⟨rfl, e⟩ | ⟨rfl, e⟩⟩ := hostWriteWord_cases sp a v s <;> rw [e]
  · exact h
  · exact h.of_same_latches rfl rfl rfl
      { hmem with palWf := Memory.write_wf hmem.palWf a v, palBelow := Memory.write_below hmem.palBelow ha v }
      { h.status with }
  · exact h.of_same_latches rfl rfl rfl
      { hmem with pixWf := Memory.write_wf hmem.pixWf a v, pixBelow := Memory.write_below hmem.pixBelow ha v }
      { h.status with }

theorem Inv.of_readsElement (h : Inv s) {w cap a : Nat} {m : Memory w} (ht : ReadsElement cap m a s t) : Inv t := by
  obtain ⟨v, c, rfl, -⟩ := ht
  exact h.of_same_latches rfl rfl rfl { h.memory with } { h.status with }

theorem Inv.hostPoll (h : Inv s) : Inv (hostPoll s) := by
  obtain ⟨es, e⟩ := hostPoll_eq s
  rw [e]
  exact h.of_same_latches rfl rfl rfl { h.memory with } { h.status with }

theorem inv_resetWith {c : Config} (hc : c.valid) : Inv (State.resetWith c) :=
  inv_of_idle hc rfl rfl
    { srcWf := .nil, palWf := .nil, pixWf := .nil, fbWf := .nil, strWf := .nil
      srcBelow := nofun, palBelow := nofun, pixBelow := nofun, fbBelow := nofun, strBelow := nofun }
    { busyClear := nofun, notBoth := nofun, errLegal := Nat.zero_le _, mErrLegal := Nat.zero_le _, lastOp := rfl
      mLastOp := rfl, errInfo := fun hne => absurd rfl hne, progress := Nat.zero_le _, strLen := Nat.zero_le _ }

theorem Inv.applyReset (h : Inv s) : Inv s.applyReset :=
  have hreset := inv_resetWith h.cfg
  hreset.of_same_latches rfl rfl rfl { hreset.memory with } { hreset.status with }

/-! ### Every move -/

theorem Inv.of_perform (h : Inv s) {e : Event} (ht : perform e s = .next t) : Inv t := by
  cases e with
  | writeReg n v => exact h.of_hostWriteReg ht
  | engine => exact h.of_engineMove (engineTurn_move ht)
  | readReg n => cases ht; exact h.of_same_latches rfl rfl rfl { h.memory with } { h.status with }
  | writeByte sp a v => cases ht; exact h.hostWriteByte sp a v
  | readByte sp a => cases ht; exact h.of_readsElement (hostReadByte_reads sp a s)
  | writeWord sp a v => cases ht; exact h.hostWriteWord sp a v
  | readWord sp a => cases ht; exact h.of_readsElement (hostReadWord_reads sp a s)
  | poll => cases ht; exact h.hostPoll
  | reset => cases ht; exact h.applyReset

/-- Settles O44: a step is an engine turn or a move of the host, and each keeps the invariant. -/
theorem everyStepKeepsTheInvariant : Obligations.EveryStepKeepsTheInvariant := by
  intro s t h ht
  obtain ⟨-, e⟩ | ⟨move, rest, -, e⟩ := step_cases s <;> rw [e] at ht
  · exact h.of_engineMove (engineTurn_move ht)
  · have hrest : Inv { s with agenda := rest } :=
      h.of_same_latches rfl rfl rfl { h.memory with } { h.status with }
    exact hrest.of_perform ht

end Sys2Proof.Machine
end

section
/-! SUPPORT. What the moves of the block leave unchanged: CTRL (10_state.md R29), and the mapper's part of the state by
the engine (R32); what they do to a busy or an idle block (R24, R27). -/

namespace Sys2Proof.Machine

variable {s t : State}

/-! ### The frame of commands and engine turns -/

theorem Accepted.frame (h : Accepted s t) : t.ctrl = s.ctrl ∧ t.mapper = s.mapper := by
  cases h <;> exact ⟨rfl, rfl⟩

/-- A CMD write changes neither CTRL nor the mapper's part. -/
theorem CmdWrite.frame (h : CmdWrite s t) : t.ctrl = s.ctrl ∧ t.mapper = s.mapper := by
  cases h with
  | overrun => exact ⟨rfl, rfl⟩
  | accepted w _ ht => exact ht.frame

theorem McmdWrite.ctrl (h : McmdWrite s t) : t.ctrl = s.ctrl := by cases h <;> rfl

theorem EngineMove.ctrl (h : EngineMove s t) : t.ctrl = s.ctrl := by cases h <;> rfl

theorem writePort_ctrl {p : Port} {w : Word} (h : writePort p w s = .next t) : t.ctrl = s.ctrl := by
  obtain hwrite | ⟨w', hwrite⟩ := writePort_write h
  · exact hwrite.frame.1
  · exact hwrite.ctrl

/-! ### CTRL -/

theorem storeRegister_ctrl {r : RegName} (hr : r ≠ .ctrl) (v : BitVec 64) :
    (s.storeRegister r v).ctrl = s.ctrl := by
  cases r <;> first | rfl | exact absurd rfl hr

/-- A host write to a register other than CTRL leaves CTRL as it was. -/
theorem hostWriteReg_ctrl {n : BitVec 5} {v : BitVec 64} (hn : n ≠ 2) (h : hostWriteReg n v s = .next t) :
    t.ctrl = s.ctrl := by
  obtain ⟨p, -, e⟩ | ⟨r, -, hr, e⟩ | ⟨-, -, e⟩ := hostWriteReg_cases n v s <;> rw [e] at h
  · exact writePort_ctrl h
  · cases h
    refine storeRegister_ctrl (fun hctrl => hn ?_) v
    exact regOfNumber_eq_some_iff.1 (hctrl ▸ hr)
  · cases h
    rfl

theorem hostWriteByte_ctrl (sp : ByteSpace) (a : Nat) (v : Byte) : (hostWriteByte sp a v s).ctrl = s.ctrl := by
  obtain ⟨-, e⟩ | ⟨-, ⟨-, e⟩ | ⟨-, e⟩ | ⟨-, e⟩⟩ := hostWriteByte_cases sp a v s <;> rw [e]
  obtain e | e := hostWriteStr_cases a v s <;> rw [e]

theorem hostWriteWord_ctrl (sp : WordSpace) (a : Nat) (v : Pixel) : (hostWriteWord sp a v s).ctrl = s.ctrl := by
  obtain ⟨-, e⟩ | ⟨-, ⟨-, e⟩ | ⟨-, e⟩⟩ := hostWriteWord_cases sp a v s <;> rw [e]

theorem ReadsElement.ctrl {w cap a : Nat} {m : Memory w} (h : ReadsElement cap m a s t) : t.ctrl = s.ctrl := by
  obtain ⟨v, c, rfl, -⟩ := h
  rfl

theorem hostPoll_ctrl : (hostPoll s).ctrl = s.ctrl := by
  obtain ⟨es, e⟩ := hostPoll_eq s
  rw [e]

/-- No move but a host write to CTRL and reset changes CTRL (R29). -/
theorem perform_ctrl {e : Event} (hwrite : ∀ v, e ≠ .writeReg 2 v) (hreset : e ≠ .reset)
    (h : perform e s = .next t) : t.ctrl = s.ctrl := by
  cases e with
  | writeReg n v => exact hostWriteReg_ctrl (fun hn => hwrite v (hn ▸ rfl)) h
  | engine => exact (engineTurn_move h).ctrl
  | readReg n => cases h; rfl
  | writeByte sp a v => cases h; exact hostWriteByte_ctrl sp a v
  | readByte sp a => cases h; exact (hostReadByte_reads sp a s).ctrl
  | writeWord sp a v => cases h; exact hostWriteWord_ctrl sp a v
  | readWord sp a => cases h; exact (hostReadWord_reads sp a s).ctrl
  | poll => cases h; exact hostPoll_ctrl
  | reset => exact absurd rfl hreset

/-- Settles O49: every other move leaves CTRL as it was. -/
theorem cancelChangesOnlyByHostOrReset : Obligations.CancelChangesOnlyByHostOrReset := by
  intro s t h hne
  obtain ⟨-, e⟩ | ⟨move, rest, hagenda, e⟩ := step_cases s <;> rw [e] at h
  · exact absurd (engineTurn_move h).ctrl hne
  · by_contra hother
    rw [not_or] at hother
    obtain ⟨hnoWrite, hnoReset⟩ := hother
    refine hne (perform_ctrl (s := { s with agenda := rest }) (fun v hv => hnoWrite ⟨v, rest, ?_⟩)
      (fun hr => hnoReset ⟨rest, ?_⟩) h)
    · rw [hagenda, hv]
    · rw [hagenda, hr]

/-! ### The mapper's part -/

/-- Settles O51: a mapper command is accepted and then writes its result registers or STR; no engine command and no
engine turn touches the mapper's part. -/
theorem mapperAndEngineStateAreSeparate : Obligations.MapperAndEngineStateAreSeparate := by
  constructor
  · intro i s hi
    obtain ⟨t, h, hwrite⟩ := exec_mcmdWrite hi s
    rw [h]
    cases hwrite <;> exact ⟨_, _, _, _, _, _, rfl⟩
  · intro i s t hi h
    have hmapper : t.mapper = s.mapper := by
      obtain h | h := h
      · obtain ⟨t', ht', hwrite⟩ := exec_cmdWrite hi s
        cases ht'.symm.trans h
        exact hwrite.frame.2
      · exact engineTurn_mapper h
    exact ⟨congrArg MapperPart.mcmd hmapper, congrArg MapperPart.mstatus hmapper, congrArg MapperPart.mapW hmapper,
      congrArg MapperPart.mapH hmapper, congrArg MapperPart.mapX hmapper, congrArg MapperPart.mapY hmapper,
      congrArg MapperPart.mapOffset hmapper, congrArg MapperPart.mapBit hmapper, congrArg MapperPart.str hmapper,
      congrArg MapperPart.strLen hmapper⟩

/-! ### A busy block and an idle engine -/

theorem CmdWrite.eq_overrun (h : CmdWrite s t) (hbusy : s.status.busy = true) : t = s.overrun := by
  cases h with
  | overrun => rfl
  | accepted w hidle _ => rw [hbusy] at hidle; cases hidle

/-- Settles O7: whatever the word, a CMD write is an overrun or is accepted, and a busy block accepts none. -/
theorem overrunSetsOvrAndNothingElse : Obligations.OverrunSetsOvrAndNothingElse := by
  intro s rest v hbusy hagenda
  obtain ⟨t, h, hwrite⟩ := writePort_cmdWrite (low32 v) { s with agenda := rest }
  calc step s = writePort .cmd (low32 v) { s with agenda := rest } := step_pending hagenda
    _ = .next t := h
    _ = .next (State.overrun { s with agenda := rest }) := by rw [hwrite.eq_overrun hbusy]

/-- Settles O59: the turn of an idle engine is over at once, and with no move pending it is the step. -/
theorem idleEngineTakesNoStep : Obligations.IdleEngineTakesNoStep := by
  intro s hphase
  have hturn : engineTurn s = .next s := by simp [engineTurn, hphase]
  exact ⟨hturn, fun hagenda => (step_idleHost hagenda).trans hturn⟩

end Sys2Proof.Machine
end

section
/-! SUPPORT. A running command reads its operands from the latches alone (10_state.md R33): the operand registers as a
value of their own, which an engine turn does not read and passes on, but for the PIX_COUNT that an ending ENCODE writes
(60_exceptions.md R203, R206). -/

namespace Sys2Proof.Machine

/-- The registers from which the engine commands latch their operands (R100, R140). -/
structure OperandPart where
  srcLen : BitVec 64
  palLen : BitVec 32
  pixCount : BitVec 64
  width : BitVec 64
  height : BitVec 64

/-- The operand registers of a state. -/
def State.operands (s : State) : OperandPart :=
  { srcLen := s.srcLen, palLen := s.palLen, pixCount := s.pixCount, width := s.width, height := s.height }

/-- A state with its operand registers replaced. -/
def State.withOperands (s : State) (o : OperandPart) : State :=
  { s with srcLen := o.srcLen, palLen := o.palLen, pixCount := o.pixCount, width := o.width, height := o.height }

/-- The operand registers after the engine turn from `s` to `t` that found them at `o`: an ENCODE that ended in it has
written PIX_COUNT. -/
def OperandPart.afterTurn (o : OperandPart) (s t : State) : OperandPart :=
  { o with pixCount := if s.eng.phase = .encoding ∧ t.eng.phase = .idle then t.pixCount else o.pixCount }

section
variable (s t : State) (o : OperandPart)

@[simp] theorem State.withOperands_eng : (s.withOperands o).eng = s.eng := rfl
@[simp] theorem State.withOperands_ctrl : (s.withOperands o).ctrl = s.ctrl := rfl

/-- A group is read from SRC, PAL and the latches (R102). -/
theorem group_withOperands (i : Nat) : group (s.withOperands o) i = group s i := rfl

/-- A row is read from PIX and the latches (R142). -/
theorem rowBytes_withOperands (row : Nat) : rowBytes (s.withOperands o) row = rowBytes s row := rfl

variable {s t}

theorem OperandPart.afterTurn_encodeEnded (hs : s.eng.phase = .encoding) (ht : t.eng.phase = .idle) :
    o.afterTurn s t = { o with pixCount := t.pixCount } := by
  simp [OperandPart.afterTurn, hs, ht]

theorem OperandPart.afterTurn_of_running (ht : t.eng.phase ≠ .idle) : o.afterTurn s t = o := by
  simp [OperandPart.afterTurn, ht]

theorem OperandPart.afterTurn_of_not_encoding (hs : s.eng.phase ≠ .encoding) : o.afterTurn s t = o := by
  simp [OperandPart.afterTurn, hs]

theorem complete_withOperands (hs : s.eng.phase = .encoding) (k : Ending) :
    (s.withOperands o).complete k true =
      (s.complete k true).withOperands (o.afterTurn s (s.complete k true)) := by
  rw [o.afterTurn_encodeEnded hs rfl]
  rfl

theorem raise_withOperands (hs : s.eng.phase = .encoding) (e : ErrorKind) (k : Nat) :
    (s.withOperands o).raise e k true = (s.raise e k true).withOperands (o.afterTurn s (s.raise e k true)) := by
  rw [o.afterTurn_encodeEnded hs rfl]
  rfl

theorem storeGroup_withOperands (hs : s.eng.phase = .encoding) (px : List Pixel) :
    (s.withOperands o).storeGroup px = (s.storeGroup px).withOperands (o.afterTurn s (s.storeGroup px)) := by
  rw [o.afterTurn_of_running (by simp [hs])]
  rfl

theorem stepEncode_withOperands (hs : s.eng.phase = .encoding) :
    stepEncode (s.withOperands o) = andThen (stepEncode s) fun t => .next (t.withOperands (o.afterTurn s t)) := by
  simp only [stepEncode, State.withOperands_eng, State.withOperands_ctrl, group_withOperands]
  by_cases hend : s.eng.i = s.eng.G
  · simp only [hend, ↓reduceIte]
    exact congrArg _ (complete_withOperands o hs .normal)
  · by_cases hcancel : (hasCheckpoint s.eng.sch && s.ctrl.cancel) = true
    · simp only [hend, hcancel, ↓reduceIte]
      exact congrArg _ (complete_withOperands o hs .cancelled)
    · simp only [hend, hcancel, ↓reduceIte, Bool.false_eq_true]
      rcases group s s.eng.i with (idx | f) | px
      · exact congrArg _ (raise_withOperands o hs .paletteTooSmall idx)
      · rfl
      · exact congrArg _ (storeGroup_withOperands o hs px)

theorem stepAssemble_withOperands (hs : s.eng.phase ≠ .encoding) :
    stepAssemble (s.withOperands o) = andThen (stepAssemble s) fun t => .next (t.withOperands (o.afterTurn s t)) := by
  simp only [stepAssemble, State.withOperands_eng, State.withOperands_ctrl, rowBytes_withOperands,
    o.afterTurn_of_not_encoding hs]
  by_cases hend : s.eng.r = s.eng.h.toNat
  · simp only [hend, ↓reduceIte]; rfl
  · by_cases hcancel : s.ctrl.cancel = true
    · simp only [hend, hcancel, ↓reduceIte]; rfl
    · simp only [hend, hcancel, ↓reduceIte, Bool.false_eq_true]
      rcases rowBytes s s.eng.r with _ | _ <;> rfl

/-- An engine turn does not read the operand registers (R33). -/
theorem engineTurn_withOperands :
    engineTurn (s.withOperands o) = andThen (engineTurn s) fun t => .next (t.withOperands (o.afterTurn s t)) := by
  unfold engineTurn
  rw [State.withOperands_eng]
  cases hs : s.eng.phase with
  | idle =>
    have hidle : s.eng.phase ≠ .encoding := by simp [hs]
    simp only [andThen, o.afterTurn_of_not_encoding hidle]
  | encoding => exact stepEncode_withOperands o hs
  | assembling => exact stepAssemble_withOperands o (by simp [hs])

end

/-- An engine turn changes no operand register but the PIX_COUNT of an ending ENCODE. -/
theorem engineTurn_operands {s t : State} (h : engineTurn s = .next t) : t.operands = s.operands.afterTurn s t := by
  have hpass := engineTurn_withOperands (s := s) s.operands
  rw [show s.withOperands s.operands = s from rfl, h] at hpass
  exact congrArg State.operands (Host.Outcome.next.inj hpass)

/-- Following one outcome by two steps that agree where it goes on. -/
theorem andThen_congr {o : Host.Outcome State Fault Refusal} {f g : State → Host.Outcome State Fault Refusal}
    (h : ∀ t, o = .next t → f t = g t) : andThen o f = andThen o g := by
  cases o with
  | next t => exact h t rfl
  | fault r => rfl
  | refused r => rfl

/-- Settles O52: both clauses replace some operand registers and leave the others, which the turn itself passes on. -/
theorem runningCommandReadsOnlyLatches : Obligations.RunningCommandReadsOnlyLatches := by
  constructor
  · intro s len w h pl
    have hturn := engineTurn_withOperands (s := s) ⟨len, pl, s.pixCount, w, h⟩
    refine hturn.trans (andThen_congr fun t ht => congrArg Host.Outcome.next ?_)
    have hcount : t.pixCount = (s.operands.afterTurn s t).pixCount :=
      congrArg OperandPart.pixCount (engineTurn_operands ht)
    exact congrArg (fun c => t.withOperands ⟨len, pl, c, w, h⟩) hcount.symm
  · intro s n
    have hturn := engineTurn_withOperands (s := s) { s.operands with pixCount := n }
    refine hturn.trans (andThen_congr fun t ht => congrArg Host.Outcome.next ?_)
    have hlen : t.srcLen = s.srcLen := congrArg OperandPart.srcLen (engineTurn_operands ht)
    have hpal : t.palLen = s.palLen := congrArg OperandPart.palLen (engineTurn_operands ht)
    have hw : t.width = s.width := congrArg OperandPart.width (engineTurn_operands ht)
    have hh : t.height = s.height := congrArg OperandPart.height (engineTurn_operands ht)
    simp only [State.withOperands, OperandPart.afterTurn, State.operands, hlen, hpal, hw, hh]

end Sys2Proof.Machine
end

section
/-! SUPPORT. The register file as the host reaches it (10_state.md R20, R21): a read by register number, and a write
that issues no command, by the class of its register. -/

namespace Sys2Proof.Machine

variable {s : State} {n : BitVec 5} {r : RegName}

/-! ### Register numbers -/

theorem regOfNumber_eq_none_iff : regOfNumber n = none ↔ 19 ≤ n.toNat := by revert n; decide

/-- The two numbers of command ports (R22, R32). -/
theorem portOfNumber_eq_none (hcmd : n ≠ 0) (hmcmd : n ≠ 10) : portOfNumber n = none := by revert n; decide

theorem readNumber_number (s : State) (r : RegName) : s.readNumber r.number = s.readRegister r := by
  rw [State.readNumber, regOfNumber_eq_some_iff.2 rfl]

theorem readNumber_unused (s : State) (h : 19 ≤ n.toNat) : s.readNumber n = 0 := by
  rw [State.readNumber, regOfNumber_eq_none_iff.2 h]

/-- A register number names a register or is unused. -/
theorem number_cases (n : BitVec 5) : (∃ r : RegName, n = r.number) ∨ 19 ≤ n.toNat := by
  cases h : regOfNumber n with
  | none => exact .inr (regOfNumber_eq_none_iff.1 h)
  | some r => exact .inl ⟨r, regOfNumber_eq_some_iff.1 h⟩

/-! ### Reads -/

/-- Settles O53: a register read returns the register of the number, an element read is a `ReadsElement`; neither
changes more than the host's own fields. -/
theorem hostReadsHaveNoSideEffect : Obligations.HostReadsHaveNoSideEffect := by
  refine ⟨fun s rest n hagenda => ⟨s.readNumber n, step_pending hagenda, ?_⟩, fun s rest sp a hagenda => ?_,
    fun s rest sp a hagenda => ?_⟩
  · obtain ⟨r, rfl⟩ | hunused := number_cases n
    · rw [readNumber_number]
      cases r with
      | status => exact (widen_toNat _).trans (Status.word_toNat _)
      | mstatus => exact (widen_toNat _).trans (MStatus.word_toNat _)
      | ctrl => exact (widen_toNat _).trans (Ctrl.word_toNat _)
      | srcLen | pixCount | width | height | errInfo | mapOffset => rfl
      | _ => exact widen_toNat _
    · rw [readNumber_unused s hunused]
      split <;> first | omega | rfl
  · obtain ⟨v, c, e, hvalue⟩ := hostReadByte_reads sp a { s with agenda := rest }
    exact ⟨v, c, (step_pending hagenda).trans (congrArg _ e), hvalue⟩
  · obtain ⟨v, c, e, hvalue⟩ := hostReadWord_reads sp a { s with agenda := rest }
    exact ⟨v, c, (step_pending hagenda).trans (congrArg _ e), hvalue⟩

/-! ### Writes that issue no command -/

theorem widen_low32 (v : BitVec 64) : widen (low32 v) = v &&& 0xFFFFFFFF := by
  apply BitVec.eq_of_toNat_eq
  rw [widen_toNat, low32, BitVec.toNat_setWidth, BitVec.toNat_and]
  exact (Nat.and_two_pow_sub_one_eq_mod v.toNat 32).symm

/-- CTRL reads as bit 0 of the value written to it (R29). -/
theorem widen_ctrl_ofWord (v : BitVec 64) : widen (Ctrl.ofWord (low32 v)).word = v &&& 1 := by
  apply BitVec.eq_of_toNat_eq
  rw [widen_toNat, Ctrl.word_toNat, BitVec.toNat_and]
  simpa [Ctrl.ofWord, low32, BitVec.getElem_eq_testBit_toNat, Nat.and_one_is_mod] using Nat.toNat_testBit v.toNat 0

section
variable (v : BitVec 64)

/-- A register write that issues no command stays off the parameters, the latches, the memories and the host's own
fields. -/
theorem storeRegister_frame (s : State) (r : RegName) :
    (s.storeRegister r v).agenda = s.agenda ∧ (s.storeRegister r v).cfg = s.cfg ∧
      (s.storeRegister r v).eng = s.eng ∧ (s.storeRegister r v).src = s.src ∧ (s.storeRegister r v).pal = s.pal ∧
      (s.storeRegister r v).pix = s.pix ∧ (s.storeRegister r v).fb = s.fb ∧ (s.storeRegister r v).str = s.str ∧
      (s.storeRegister r v).readData = s.readData ∧ (s.storeRegister r v).freeCount = s.freeCount := by
  cases r <;> exact ⟨rfl, rfl, rfl, rfl, rfl, rfl, rfl, rfl, rfl, rfl⟩

/-- A register that is not written keeps its value. -/
theorem readRegister_storeRegister_of_ne {q : RegName} (hq : q ≠ r) :
    (s.storeRegister r v).readRegister q = s.readRegister q := by
  cases r <;> cases q <;> first | rfl | exact absurd rfl hq

theorem readRegister_storeRegister_wide (hr : r.number.toNat ∈ [4, 6, 7, 8, 16]) :
    (s.storeRegister r v).readRegister r = v := by
  cases r <;> first | rfl | exact absurd hr (by decide)

theorem readRegister_storeRegister_narrow (hr : r.number.toNat ∈ [5, 12, 13, 14, 15, 17]) :
    (s.storeRegister r v).readRegister r = v &&& 0xFFFFFFFF := by
  rw [← widen_low32]
  cases r <;> first | rfl | exact absurd hr (by decide)

theorem storeRegister_readOnly (hr : r.number.toNat ∈ [1, 3, 9, 11, 18]) : s.storeRegister r v = s := by
  cases r <;> first | rfl | exact absurd hr (by decide)

theorem readRegister_storeRegister_ctrl : (s.storeRegister .ctrl v).readRegister .ctrl = v &&& 1 :=
  widen_ctrl_ofWord v

theorem number_lt (r : RegName) : r.number.toNat < 19 := by cases r <;> decide

/-- A write to one register number leaves what the others read as. -/
theorem readNumber_storeRegister_of_ne {m : BitVec 5} (hm : m ≠ r.number) :
    (s.storeRegister r v).readNumber m = s.readNumber m := by
  obtain ⟨q, rfl⟩ | hunused := number_cases m
  · rw [readNumber_number, readNumber_number]
    exact readRegister_storeRegister_of_ne v fun hq => hm (hq ▸ rfl)
  · rw [readNumber_unused _ hunused, readNumber_unused _ hunused]

end

/-- Settles O54: the write stores by the class of its register, or is ignored at an unused number. -/
theorem hostRegisterWritesStoreByWidth : Obligations.HostRegisterWritesStoreByWidth := by
  intro s rest n v hagenda hcmd hmcmd
  rw [step_pending hagenda]
  obtain ⟨p, hp, -⟩ | ⟨r, -, hr, e⟩ | ⟨-, hnone, e⟩ := hostWriteReg_cases n v { s with agenda := rest }
  · exact absurd ((portOfNumber_eq_none hcmd hmcmd).symm.trans hp) nofun
  · obtain rfl := regOfNumber_eq_some_iff.1 hr
    obtain ⟨hagenda', hcfg, heng, hsrc, hpal, hpix, hfb, hstr, hread, hfree⟩ :=
      storeRegister_frame v { s with agenda := rest } r
    refine ⟨_, e, hagenda', hcfg, heng, hsrc, hpal, hpix, hfb, hstr, hread, hfree, fun hwide => ?_, fun hnarrow => ?_,
      fun hctrl => ?_, fun hkept => ?_, fun m hm => readNumber_storeRegister_of_ne v hm⟩
    · rw [readNumber_number, readRegister_storeRegister_wide v hwide]
    · rw [readNumber_number, readRegister_storeRegister_narrow v hnarrow]
    · obtain rfl : RegName.ctrl = r := Option.some.inj (hctrl ▸ hr : regOfNumber 2 = some r)
      exact readRegister_storeRegister_ctrl v
    · obtain hreadOnly | hunused := hkept
      · exact storeRegister_readOnly v hreadOnly
      · exact absurd hunused (Nat.not_le.2 (number_lt r))
  · have hunused : 19 ≤ n.toNat := regOfNumber_eq_none_iff.1 hnone
    refine ⟨_, e, rfl, rfl, rfl, rfl, rfl, rfl, rfl, rfl, rfl, rfl, fun hwide => ?_, fun hnarrow => ?_, fun hctrl => ?_,
      fun _ => rfl, fun _ _ => rfl⟩
    · simp only [List.mem_cons, List.not_mem_nil, or_false] at hwide; omega
    · simp only [List.mem_cons, List.not_mem_nil, or_false] at hnarrow; omega
    · rw [hctrl] at hunused; exact absurd hunused (by decide)

end Sys2Proof.Machine
end

section
/-! SUPPORT. A command runs at the host's write of its word (20_memory.md R66; 60_exceptions.md R200), and the word
that `withFetchWord` places is written to the port it decodes on (log 1, log 18). -/

namespace Sys2Proof.Machine

variable {s : State} {p : Port} {i : Instr}

/-! ### A legal word on a port -/

theorem hostWriteReg_portNumber (p : Port) (v : BitVec 64) (s : State) :
    hostWriteReg (portNumber p) v s = writePort p (low32 v) s := by cases p <;> rfl

theorem writePort_of_decode {w : Word} (h : decode p w = .ok i) (s : State) : writePort p w s = exec i s := by
  obtain ⟨j, hj, e⟩ | ⟨_, hj, -⟩ := writePort_cases p w s <;> cases hj.symm.trans h
  exact e

/-- The host's write of a legal word to a port is its command's meaning. -/
theorem step_commandWrite {rest : List Event} {v : BitVec 64} (hagenda : s.agenda = .writeReg (portNumber p) v :: rest)
    (hdecode : decode p (low32 v) = .ok i) : step s = exec i { s with agenda := rest } :=
  calc step s = hostWriteReg (portNumber p) v { s with agenda := rest } := step_pending hagenda
    _ = writePort p (low32 v) { s with agenda := rest } := hostWriteReg_portNumber p v _
    _ = exec i { s with agenda := rest } := writePort_of_decode hdecode _

/-- Settles O5: the statement's two register numbers are those of the two ports. -/
theorem stepRunsTheDecodedCommand : Obligations.StepRunsTheDecodedCommand :=
  ⟨fun _ _ _ _ hagenda hdecode _ => step_commandWrite (p := .cmd) hagenda hdecode,
    fun _ _ _ _ hagenda hdecode _ => step_commandWrite (p := .mcmd) hagenda hdecode⟩

/-! ### A placed word -/

theorem low32_widen (w : Word) : low32 (widen w) = w := by
  simp [low32, widen]

/-- A word that decodes on some port decodes on the one the host writes it to (log 18). -/
theorem decode_portOfWord {w : Word} (h : decodeAnyPort w = some i) : decode (portOfWord w) w = .ok i := by
  unfold decodeAnyPort at h
  unfold portOfWord
  cases hcmd : decode .cmd w with
  | ok j =>
    rw [hcmd] at h
    cases h
    exact hcmd
  | error _ =>
    rw [hcmd] at h
    cases hmcmd : decode .mcmd w with
    | ok j =>
      rw [hmcmd] at h
      cases h
      exact hmcmd
    | error _ => rw [hmcmd] at h; cases h

/-- Of a table word 32 bits are decoded (R78). -/
theorem decodeTableWord_32 (w : Nat) : decodeTableWord 32 w = decodeAnyPort (BitVec.ofNat 32 (w % 2 ^ 32)) :=
  if_pos (Nat.mod_lt w (by decide))

/-- Settles O6: the placed word is written to the port on which it decodes. -/
theorem placedWordRunsItsCommand : Obligations.PlacedWordRunsItsCommand := by
  intro s w i h
  rw [decodeTableWord_32] at h
  refine step_commandWrite (s := s.withFetchWord 32 w) rfl ?_
  rw [low32_widen]
  exact decode_portOfWord h

end Sys2Proof.Machine
end

section
/-! SUPPORT. The five memories (20_memory.md R50 to R56): a block write of one, the block's accesses to each, and the
unwritten elements at which the engine stops. -/

namespace Sys2Proof.Machine

variable {s t : State}

/-! ### A block write -/

/-- Settles O56: the value of each element by its place, in or out of the written range. -/
theorem memWriteThenRead : Obligations.MemWriteThenRead := by
  refine fun w m a vs => ⟨fun k hk => ?_, fun b hb => ?_, fun hm => Memory.writeList_wf hm a vs⟩
  · rw [Memory.read_writeList, if_pos (by omega), Nat.add_sub_cancel_left]
  · rw [Memory.read_writeList, if_neg (by omega)]

/-! ### The commands and the engine -/

/-- `t` holds the five memories of `s`. -/
structure SameMemories (s t : State) : Prop where
  src : t.src = s.src
  pal : t.pal = s.pal
  pix : t.pix = s.pix
  fb : t.fb = s.fb
  str : t.str = s.str

theorem acceptEncode_sameMemories (sch : Scheme) (s : State) : SameMemories s (acceptEncode sch s) := by
  obtain ⟨e, -, -, h⟩ | ⟨p, -, h⟩ | ⟨p, -, -, -, -, h⟩ := acceptEncode_cases sch s <;> rw [h] <;> constructor <;> rfl

theorem acceptSize_sameMemories (s : State) : SameMemories s (acceptSize s) := by
  obtain ⟨-, h⟩ | ⟨-, h⟩ := acceptSize_cases s <;> rw [h] <;> constructor <;> rfl

theorem acceptMap_sameMemories (sch : Scheme) (s : State) : SameMemories s (acceptMap sch s) := by
  obtain ⟨e, h⟩ | ⟨off, bi, -, -, -, -, h⟩ := acceptMap_cases sch s <;> rw [h] <;> constructor <;> rfl

/-- An engine command writes a memory only after its acceptance. -/
theorem issueEngine_sameMemories {act : State → State} (hact : ∀ s, SameMemories s (act s)) (s : State) (w : Word) :
    SameMemories s (s.issueEngine w act) := by
  obtain ⟨-, h⟩ | ⟨-, h⟩ := issueEngine_cases s w act <;> rw [h]
  · constructor <;> rfl
  · exact { hact (s.accept w) with }

/-- No engine command writes SRC, PAL or PIX at its acceptance. -/
theorem CmdWrite.inputs (h : CmdWrite s t) : t.src = s.src ∧ t.pal = s.pal ∧ t.pix = s.pix := by
  cases h with
  | overrun => exact ⟨rfl, rfl, rfl⟩
  | accepted w _ ht => cases ht <;> exact ⟨rfl, rfl, rfl⟩

/-- The memories a command leaves alone, by its form (R50). -/
theorem exec_memories {i : Instr} (h : exec i s = .next t) :
    SameMemories s t ∨ (i = .assemble ∧ CmdWrite s t) ∨
      (i = .format ∧ t.src = s.src ∧ t.pal = s.pal ∧ t.pix = s.pix ∧ t.fb = s.fb) := by
  obtain ⟨sch, -, -, e⟩ | ⟨-, e⟩ | ⟨rfl, e⟩ | ⟨sch, -, -, e⟩ | ⟨rfl, e⟩ := exec_cases i s <;> rw [e] at h <;> cases h
  · exact .inl (issueEngine_sameMemories (acceptEncode_sameMemories sch) s _)
  · exact .inl (issueEngine_sameMemories acceptSize_sameMemories s _)
  · exact .inr (.inl ⟨rfl, issueEngine_cmdWrite acceptAssemble_accepted s _⟩)
  · exact .inl { acceptMap_sameMemories sch (s.acceptMapper _) with }
  · exact .inr (.inr ⟨rfl, rfl, rfl, rfl, rfl⟩)

/-- An engine turn writes PIX while encoding, FB while assembling, and no other memory (R50). -/
theorem EngineMove.memories (h : EngineMove s t) :
    t.src = s.src ∧ t.pal = s.pal ∧ t.str = s.str ∧ (s.eng.phase ≠ .encoding → t.pix = s.pix) ∧
      (s.eng.phase ≠ .assembling → t.fb = s.fb) := by
  cases h with
  | idle | complete | paletteTooSmall => exact ⟨rfl, rfl, rfl, fun _ => rfl, fun _ => rfl⟩
  | group px hphase => exact ⟨rfl, rfl, rfl, fun hne => absurd hphase hne, fun _ => rfl⟩
  | row bs hphase => exact ⟨rfl, rfl, rfl, fun _ => rfl, fun hne => absurd hphase hne⟩

/-- Settles O48: an engine turn by its move, a command by its form. -/
theorem onlyTheOwningCommandWritesAMemory : Obligations.OnlyTheOwningCommandWritesAMemory := by
  refine ⟨fun s t h => (engineTurn_move h).memories, fun i s t h => ?_⟩
  obtain ⟨hsrc, hpal, hpix, hfb, hstr⟩ | ⟨rfl, hwrite⟩ | ⟨rfl, hsrc, hpal, hpix, hfb⟩ := exec_memories h
  · exact ⟨hsrc, hpal, hpix, fun _ => hfb, fun _ => hstr⟩
  · obtain ⟨hsrc, hpal, hpix⟩ := hwrite.inputs
    obtain ⟨-, hmapper⟩ := hwrite.frame
    exact ⟨hsrc, hpal, hpix, fun hne => absurd rfl hne, fun _ => congrArg MapperPart.str hmapper⟩
  · exact ⟨hsrc, hpal, hpix, fun _ => hfb, fun hne => absurd rfl hne⟩

/-! ### The host's element writes -/

/-- `m'` is what a host write of `v` to element `a` leaves of the memory `m`: that element alone takes the value, and
only within the capacity (R55). -/
def WritesElement {w : Nat} (cap : Nat) (m : Memory w) (a : Nat) (v : BitVec w) (m' : Memory w) : Prop :=
  ∀ b, m'.read b = if b = a ∧ a < cap then some v else m.read b

section
variable {w cap a : Nat} (m : Memory w) (v : BitVec w)

theorem writesElement_within (ha : a < cap) : WritesElement cap m a v (m.write a v) := fun b => by
  simp only [Memory.read_write, ha, and_true]

theorem writesElement_beyond (ha : cap ≤ a) : WritesElement cap m a v m := fun b => by
  rw [if_neg fun h => Nat.not_lt.2 ha h.2]

end

section
variable (a : Nat) (s : State)

theorem hostWriteByte_src (v : Byte) : ∃ src', hostWriteByte .src a v s = { s with src := src' } ∧
    WritesElement s.cfg.srcCap s.src a v src' := by
  obtain ⟨ha, e⟩ | ⟨ha, ⟨-, e⟩ | ⟨⟨⟩, -⟩ | ⟨⟨⟩, -⟩⟩ := hostWriteByte_cases .src a v s
  · exact ⟨s.src, e, writesElement_beyond _ v ha⟩
  · exact ⟨_, e, writesElement_within _ v ha⟩

theorem hostWriteByte_fb (v : Byte) : ∃ fb', hostWriteByte .fb a v s = { s with fb := fb' } ∧
    WritesElement s.cfg.fbCap s.fb a v fb' := by
  obtain ⟨ha, e⟩ | ⟨ha, ⟨⟨⟩, -⟩ | ⟨-, e⟩ | ⟨⟨⟩, -⟩⟩ := hostWriteByte_cases .fb a v s
  · exact ⟨s.fb, e, writesElement_beyond _ v ha⟩
  · exact ⟨_, e, writesElement_within _ v ha⟩

theorem hostWriteWord_pal (v : Pixel) : ∃ pal', hostWriteWord .pal a v s = { s with pal := pal' } ∧
    WritesElement palCap s.pal a v pal' := by
  obtain ⟨ha, e⟩ | ⟨ha, ⟨-, e⟩ | ⟨⟨⟩, -⟩⟩ := hostWriteWord_cases .pal a v s
  · exact ⟨s.pal, e, writesElement_beyond _ v ha⟩
  · exact ⟨_, e, writesElement_within _ v ha⟩

theorem hostWriteWord_pix (v : Pixel) : ∃ pix', hostWriteWord .pix a v s = { s with pix := pix' } ∧
    WritesElement s.cfg.pixCap s.pix a v pix' := by
  obtain ⟨ha, e⟩ | ⟨ha, ⟨⟨⟩, -⟩ | ⟨-, e⟩⟩ := hostWriteWord_cases .pix a v s
  · exact ⟨s.pix, e, writesElement_beyond _ v ha⟩
  · exact ⟨_, e, writesElement_within _ v ha⟩

/-- A host write to STR beyond its 32 elements is ignored (R55). -/
theorem hostWriteByte_str_beyond {a : Nat} (v : Byte) (ha : 32 ≤ a) : hostWriteByte .str a v s = s := by
  obtain ⟨-, e⟩ | ⟨hlt, -⟩ := hostWriteByte_cases .str a v s
  · exact e
  · exact absurd hlt (Nat.not_lt.2 ha)

/-- A host write to `STR[0 .. 32)` is stored or has no effect on STR (R50; log 8). -/
theorem hostWriteByte_str_within {a : Nat} (v : Byte) (ha : a < 32) :
    ∃ str' c, hostWriteByte .str a v s = { s with str := str', freeCount := c } ∧
      (str' = s.str ∨ ∀ b, str'.read b = if b = a then some v else s.str.read b) := by
  obtain ⟨hge, -⟩ | ⟨-, ⟨⟨⟩, -⟩ | ⟨⟨⟩, -⟩ | ⟨-, e⟩⟩ := hostWriteByte_cases .str a v s
  · exact absurd ha (Nat.not_lt.2 hge)
  · rw [e]
    obtain e | e := hostWriteStr_cases a v s
    · exact ⟨s.str, _, e, .inl rfl⟩
    · exact ⟨_, _, e, .inr (Memory.read_write s.str a v)⟩

end

/-- Settles O55: the step is the host's write, which each space answers by its own rule. -/
theorem hostElementWritesStoreWithinCapacity : Obligations.HostElementWritesStoreWithinCapacity := by
  refine ⟨fun s rest sp a v hagenda => ?_, fun s rest sp a v hagenda => ?_⟩ <;> rw [step_pending hagenda]
  · cases sp with
    | src =>
      obtain ⟨src', e, hread⟩ := hostWriteByte_src a { s with agenda := rest } v
      exact ⟨nofun, nofun, fun _ => ⟨src', s.fb, congrArg _ e, fun _ => ⟨rfl, hread⟩, nofun⟩⟩
    | fb =>
      obtain ⟨fb', e, hread⟩ := hostWriteByte_fb a { s with agenda := rest } v
      exact ⟨nofun, nofun, fun _ => ⟨s.src, fb', congrArg _ e, nofun, fun _ => ⟨rfl, hread⟩⟩⟩
    | str =>
      refine ⟨fun _ ha => congrArg _ (hostWriteByte_str_beyond _ v ha), fun _ ha => ?_, fun hne => absurd rfl hne⟩
      obtain ⟨str', c, e, hstr⟩ := hostWriteByte_str_within { s with agenda := rest } v ha
      exact ⟨str', c, congrArg _ e, hstr⟩
  · cases sp with
    | pal =>
      obtain ⟨pal', e, hread⟩ := hostWriteWord_pal a { s with agenda := rest } v
      exact ⟨pal', s.pix, congrArg _ e, fun _ => ⟨rfl, hread⟩, nofun⟩
    | pix =>
      obtain ⟨pix', e, hread⟩ := hostWriteWord_pix a { s with agenda := rest } v
      exact ⟨s.pal, pix', congrArg _ e, nofun, fun _ => ⟨rfl, hread⟩⟩

end Sys2Proof.Machine
end

section
/-! SUPPORT. Where an engine step can stop (20_memory.md R51, R52, R56): at an element that the running command may
read and that no agent has written. -/

namespace Sys2Proof.Machine

variable {s : State}

/-! ### Reads in sequence -/

/-- Of two reads in sequence the first stops, or the second after it. -/
theorem bind_eq_error {ε α β : Type} {x : Except ε α} {f : α → Except ε β} {e : ε} (h : x.bind f = .error e) :
    x = .error e ∨ ∃ y, x = .ok y ∧ f y = .error e := by
  cases x with
  | error e' => cases h; exact .inl rfl
  | ok y => exact .inr ⟨y, rfl, h⟩

/-- A list read in order stops at one of its elements. -/
theorem exists_of_collect_error {ε α β : Type} {f : α → Except ε β} {xs : List α} {e : ε}
    (h : collect f xs = .error e) : ∃ x ∈ xs, f x = .error e := by
  obtain ⟨j, x, hx, hfx, -⟩ := (collect_eq_error f xs e).1 h
  exact ⟨x, List.mem_of_getElem? hx, hfx⟩

/-- The list read in order, mapped: it stops where the list does. -/
theorem exists_of_collect_map_error {ε α β γ : Type} {f : α → Except ε β} {g : List β → γ} {xs : List α} {e : ε}
    (h : (collect f xs).map g = .error e) : ∃ x ∈ xs, f x = .error e := by
  cases hc : collect f xs with
  | error e' =>
    rw [hc] at h
    cases h
    exact exists_of_collect_error hc
  | ok ys => rw [hc] at h; cases h

/-! ### Groups as reads in sequence -/

theorem group1bpp_eq_bind (s : State) (i : Nat) :
    group1bpp s i = (srcByte s i).bind fun x => collect (palEntry s) (indices1bpp x) := by
  unfold group1bpp
  cases srcByte s i <;> rfl

theorem group2bpp_eq_bind (s : State) (i : Nat) :
    group2bpp s i = (srcByte s i).bind fun x => collect (palEntry s) (indices2bpp x) := by
  unfold group2bpp
  cases srcByte s i <;> rfl

theorem group4bpp_eq_bind (s : State) (i : Nat) :
    group4bpp s i = (srcByte s i).bind fun x => collect (palEntry s) (indices4bpp x) := by
  unfold group4bpp
  cases srcByte s i <;> rfl

theorem group8bpp_eq_bind (s : State) (i : Nat) :
    group8bpp s i = (srcByte s i).bind fun x => collect (palEntry s) [x.toNat] := by
  unfold group8bpp
  cases srcByte s i <;> rfl

theorem group16bpp_eq_bind (s : State) (i : Nat) :
    group16bpp s i = (srcByte s (2 * i)).bind fun hi => (srcByteOr0 s (2 * i + 1)).bind fun lo =>
      collect (palEntry s) [index16bpp hi lo] := by
  unfold group16bpp
  cases srcByte s (2 * i) with
  | error e => rfl
  | ok x => cases srcByteOr0 s (2 * i + 1) <;> rfl

/-! ### Where a group stops -/

/-- `e` is the stop of a read that a group of the running ENCODE may make: a byte of the stream, or an entry of the
palette if the scheme uses one (R102, R105). -/
inductive GroupRead (s : State) (e : Stop) : Prop where
  | src (a : Nat) (ha : a < s.eng.L.toNat) (h : srcByte s a = .error e)
  | pal (k : Nat) (hsch : s.eng.sch ≠ .thirtyTwo) (h : palEntry s k = .error e)

theorem groupRead_of_srcByteOr0 {a : Nat} {e : Stop} (h : srcByteOr0 s a = .error e) : GroupRead s e := by
  by_cases ha : a < s.eng.L.toNat
  · exact .src a ha (srcByteOr0_within ha ▸ h)
  · rw [srcByteOr0_beyond (Nat.not_lt.1 ha)] at h
    cases h

theorem groupRead_of_palEntries (hsch : s.eng.sch ≠ .thirtyTwo) {ks : List Nat} {e : Stop}
    (h : collect (palEntry s) ks = .error e) : GroupRead s e := by
  obtain ⟨k, -, hk⟩ := exists_of_collect_error h
  exact .pal k hsch hk

/-- A group of one byte: the byte is read, then the palette at its indices (R110 to R113). -/
theorem groupRead_of_byteGroup {i : Nat} (hi : i < s.eng.L.toNat) (hsch : s.eng.sch ≠ .thirtyTwo)
    {indices : Byte → List Nat} {g : Except Stop (List Pixel)}
    (hg : g = (srcByte s i).bind fun x => collect (palEntry s) (indices x)) {e : Stop} (h : g = .error e) :
    GroupRead s e := by
  obtain h | ⟨x, -, h⟩ := bind_eq_error (hg ▸ h)
  · exact .src i hi h
  · exact groupRead_of_palEntries hsch h

/-- A group of two bytes: the high byte is read, then the low byte if the stream has it, then the palette (R114). -/
theorem groupRead_of_group16bpp {i : Nat} (hi : 2 * i < s.eng.L.toNat) (hsch : s.eng.sch ≠ .thirtyTwo) {e : Stop}
    (h : group16bpp s i = .error e) : GroupRead s e := by
  rw [group16bpp_eq_bind] at h
  obtain h | ⟨x, -, h⟩ := bind_eq_error h
  · exact .src _ hi h
  · obtain h | ⟨y, -, h⟩ := bind_eq_error h
    · exact groupRead_of_srcByteOr0 h
    · exact groupRead_of_palEntries hsch h

/-- A group of four bytes: each is read if the stream has it, the palette is not (R115). -/
theorem groupRead_of_group32bpp {i : Nat} {e : Stop} (h : group32bpp s i = .error e) : GroupRead s e := by
  obtain ⟨a, -, ha⟩ := exists_of_collect_map_error h
  exact groupRead_of_srcByteOr0 ha

/-- A group below the group count of the stream stops at one of its reads. -/
theorem group_error {mode : LenMode} {i : Nat} (hi : i < groupCount mode s.eng.sch s.eng.L.toNat) {e : Stop}
    (h : group s i = .error e) : GroupRead s e := by
  unfold group at h
  cases hsch : s.eng.sch <;> rw [hsch] at hi h
  case one => exact groupRead_of_byteGroup hi (by simp [hsch]) (group1bpp_eq_bind s i) h
  case two => exact groupRead_of_byteGroup hi (by simp [hsch]) (group2bpp_eq_bind s i) h
  case four => exact groupRead_of_byteGroup hi (by simp [hsch]) (group4bpp_eq_bind s i) h
  case eight => exact groupRead_of_byteGroup hi (by simp [hsch]) (group8bpp_eq_bind s i) h
  case sixteen =>
    have hhigh : 2 * i < s.eng.L.toNat := by
      simp only [groupCount, ceilDiv] at hi
      omega
    exact groupRead_of_group16bpp hhigh (by simp [hsch]) h
  case thirtyTwo => exact groupRead_of_group32bpp h

/-! ### Where an engine turn stops -/

/-- The fault names an element that the running command may read and that no agent has written (R56). -/
inductive UnwrittenInput (s : State) : Fault → Prop where
  | src (a : Nat) (hphase : s.eng.phase = .encoding) (ha : a < s.eng.L.toNat) (h : s.src.read a = none) :
      UnwrittenInput s (.unwrittenSrc a)
  | pal (a : Nat) (hphase : s.eng.phase = .encoding) (hsch : s.eng.sch ≠ .thirtyTwo) (ha : a < s.eng.PL.toNat)
      (h : s.pal.read a = none) : UnwrittenInput s (.unwrittenPal a)
  | pix (a : Nat) (hphase : s.eng.phase = .assembling) (ha : a < s.eng.n.toNat) (h : s.pix.read a = none) :
      UnwrittenInput s (.unwrittenPix a)

theorem GroupRead.unwrittenInput (hphase : s.eng.phase = .encoding) {f : Fault} (h : GroupRead s (.unwritten f)) :
    UnwrittenInput s f := by
  cases h with
  | src a ha h =>
    obtain ⟨b, -, e⟩ | ⟨hnone, e⟩ := srcByte_cases s a <;> rw [e] at h <;> cases h
    exact .src a hphase ha hnone
  | pal k hsch h =>
    obtain ⟨-, e⟩ | ⟨hk, hnone, e⟩ | ⟨-, p, -, e⟩ := palEntry_cases s k <;> rw [e] at h <;> cases h
    exact .pal k hphase hsch hk hnone

/-- A row stops at an unwritten pixel below the latched count (R142, R144). -/
theorem rowBytes_error (hphase : s.eng.phase = .assembling) {row : Nat} {f : Fault} (h : rowBytes s row = .error f) :
    UnwrittenInput s f := by
  obtain ⟨k, -, hk⟩ := exists_of_collect_map_error h
  obtain ⟨-, e⟩ | ⟨hlt, hnone, e⟩ | ⟨-, p, -, e⟩ := cellPixel_cases s k <;> rw [e] at hk <;> cases hk
  exact .pix k hphase hlt hnone

/-- A running ENCODE has a next state or stops at an unwritten input: the group it reads is one of the stream's. -/
theorem stepEncode_total (hinv : Inv s) (hphase : s.eng.phase = .encoding) :
    (∃ t, stepEncode s = .next t) ∨ ∃ f, stepEncode s = .fault f ∧ UnwrittenInput s f := by
  obtain ⟨-, e⟩ | ⟨-, -, -, e⟩ | ⟨hi, -, ⟨k, -, e⟩ | ⟨f, hgroup, e⟩ | ⟨px, -, e⟩⟩ := stepEncode_cases s
  case inr.inr.inr.inl =>
    have henc := hinv.encoding hphase
    have hlt : s.eng.i < groupCount s.cfg.lenMode s.eng.sch s.eng.L.toNat :=
      henc.groups ▸ lt_of_le_of_ne henc.bound hi
    exact .inr ⟨f, e, (group_error hlt hgroup).unwrittenInput hphase⟩
  all_goals exact .inl ⟨_, e⟩

theorem stepAssemble_total (hphase : s.eng.phase = .assembling) :
    (∃ t, stepAssemble s = .next t) ∨ ∃ f, stepAssemble s = .fault f ∧ UnwrittenInput s f := by
  obtain ⟨-, e⟩ | ⟨-, -, e⟩ | ⟨-, -, ⟨f, hrow, e⟩ | ⟨bs, -, e⟩⟩ := stepAssemble_cases s
  case inr.inr.inl => exact .inr ⟨f, e, rowBytes_error hphase hrow⟩
  all_goals exact .inl ⟨_, e⟩

/-- Under the invariant an engine turn has a next state or stops at an unwritten input. -/
theorem engineTurn_total (hinv : Inv s) :
    (∃ t, engineTurn s = .next t) ∨ ∃ f, engineTurn s = .fault f ∧ UnwrittenInput s f := by
  obtain ⟨-, e⟩ | ⟨hphase, e⟩ | ⟨hphase, e⟩ := engineTurn_cases s <;> rw [e]
  · exact .inl ⟨s, rfl⟩
  · exact stepEncode_total hinv hphase
  · exact stepAssemble_total hphase

theorem engineTurn_fault (hinv : Inv s) {f : Fault} (h : engineTurn s = .fault f) : UnwrittenInput s f := by
  obtain ⟨t, e⟩ | ⟨f', e, hf⟩ := engineTurn_total hinv <;> rw [e] at h <;> cases h
  exact hf

theorem engineTurn_not_refused (hinv : Inv s) (r : Refusal) : engineTurn s ≠ .refused r := by
  obtain ⟨t, e⟩ | ⟨f, e, -⟩ := engineTurn_total hinv <;> rw [e] <;> nofun

/-- With the inputs written no fault has an element to name. -/
theorem InputsWritten.not_unwrittenInput (hwritten : InputsWritten s) {f : Fault} : ¬UnwrittenInput s f := by
  rintro (⟨a, hphase, ha, hnone⟩ | ⟨a, hphase, hsch, ha, hnone⟩ | ⟨a, hphase, ha, hnone⟩)
  · obtain ⟨v, hv⟩ := hwritten.src hphase a ha
    exact nomatch hnone.symm.trans hv
  · obtain ⟨v, hv⟩ := hwritten.pal hphase hsch a ha
    exact nomatch hnone.symm.trans hv
  · obtain ⟨v, hv⟩ := hwritten.pix hphase a ha
    exact nomatch hnone.symm.trans hv

/-- Settles O47: each fault is an unwritten input of its space. -/
theorem engineFaultsNameUnwrittenElements : Obligations.EngineFaultsNameUnwrittenElements := by
  refine fun s hinv => ⟨fun a h => ?_, fun a h => ?_, fun a h => ?_, engineTurn_not_refused hinv⟩
  · cases engineTurn_fault hinv h with
    | src _ _ ha hnone => exact ⟨hnone, ha⟩
  · cases engineTurn_fault hinv h with
    | pal _ _ _ ha hnone => exact ⟨hnone, ha⟩
  · cases engineTurn_fault hinv h with
    | pix _ _ ha hnone => exact ⟨hnone, ha⟩

/-- Settles O46: the other outcome would name an unwritten input. -/
theorem engineRunsOnWrittenInputs : Obligations.EngineRunsOnWrittenInputs := by
  intro s hinv hwritten
  obtain hnext | ⟨f, -, hf⟩ := engineTurn_total hinv
  · exact hnext
  · exact absurd hf hwritten.not_unwrittenInput

end Sys2Proof.Machine
end

section
/-! SUPPORT. The decoder as the opcode map (30_encoding.md R74 to R76): the fields of the legal words with their
commands, the fields of the illegal ones, and decoding as the inverse of encoding. -/

namespace Sys2Proof

variable {p : Port} {op sch : BitVec 4} {i : Instr} {w : Word}

/-! ### Scheme codes -/

theorem encodeOfCode_fields : ∀ sch, (encodeOfCode sch).opcode = 1 ∧ (encodeOfCode sch).schemeCode = sch ∧
    (encodeOfCode sch).wellFormed = true := by decide

theorem mapOfCode_fields : ∀ sch, (mapOfCode sch).opcode = 4 ∧ (mapOfCode sch).schemeCode = sch ∧
    (mapOfCode sch).wellFormed = true := by decide

theorem encodeOfCode_high : ∀ sch, highSchemeCode sch = true → encodeOfCode sch = .encodeInvalidSch sch := by decide

theorem mapOfCode_high : ∀ sch, highSchemeCode sch = true → mapOfCode sch = .mapInvalidSch sch := by decide

/-! ### Legal and illegal fields -/

/-- The rows of the opcode map by their port, OP and SCH: with RSV = 0 these are the legal words (R71 to R73, R76). -/
inductive LegalFields : Port → BitVec 4 → BitVec 4 → Instr → Prop where
  | encode (sch : BitVec 4) : LegalFields .cmd 1 sch (encodeOfCode sch)
  | size : LegalFields .cmd 2 0 .size
  | assemble : LegalFields .cmd 3 0 .assemble
  | map (sch : BitVec 4) : LegalFields .mcmd 4 sch (mapOfCode sch)
  | format : LegalFields .mcmd 5 0 .format

/-- The conditions of R74 on OP and SCH: all but its first, RSV ≠ 0. -/
def IllegalFields (p : Port) (op sch : BitVec 4) : Prop :=
  (op = 0 ∨ 6 ≤ op.toNat) ∨
    (p = .cmd ∧ (op = 4 ∨ op = 5)) ∨
    (p = .mcmd ∧ (op = 1 ∨ op = 2 ∨ op = 3)) ∨
    ((op = 2 ∨ op = 3 ∨ op = 5) ∧ sch ≠ 0)

theorem LegalFields.decodeFields_eq (h : LegalFields p op sch i) : decodeFields p op sch = .ok i := by
  cases h <;> rfl

theorem LegalFields.not_illegalFields (h : LegalFields p op sch i) : ¬IllegalFields p op sch := by
  cases h <;> simp [IllegalFields]

theorem opcode_cases : ∀ op : BitVec 4, (op = 0 ∨ 6 ≤ op.toNat) ∨ op = 1 ∨ op = 2 ∨ op = 3 ∨ op = 4 ∨ op = 5 := by
  decide

theorem decodeFields_illegalOpcode (h : op = 0 ∨ 6 ≤ op.toNat) : decodeFields p op sch = .error .illegalOpcode := by
  obtain rfl | h := h
  · cases p <;> rfl
  · unfold decodeFields
    split
    case h_11 => rfl
    all_goals omega

/-- SIZE, ASSEMBLE and FORMAT are legal with SCH = 0 alone (R74.4). -/
theorem withoutScheme_cases (hlegal : LegalFields p op 0 i) (hop : op = 2 ∨ op = 3 ∨ op = 5) (sch : BitVec 4) :
    (∃ j, withoutScheme sch i = .ok j ∧ LegalFields p op sch j) ∨
      (∃ e, withoutScheme sch i = .error e) ∧ IllegalFields p op sch := by
  by_cases h : sch = 0
  · exact .inl ⟨i, if_pos h, h ▸ hlegal⟩
  · exact .inr ⟨⟨_, if_neg h⟩, .inr (.inr (.inr ⟨hop, h⟩))⟩

/-- The fields decide: a row's command, or an error where R74 has one (R75). -/
theorem decodeFields_cases (p : Port) (op sch : BitVec 4) :
    (∃ i, decodeFields p op sch = .ok i ∧ LegalFields p op sch i) ∨
      (∃ e, decodeFields p op sch = .error e) ∧ IllegalFields p op sch := by
  obtain hop | rfl | rfl | rfl | rfl | rfl := opcode_cases op
  · exact .inr ⟨⟨_, decodeFields_illegalOpcode hop⟩, .inl hop⟩
  · cases p with
    | cmd => exact .inl ⟨_, rfl, .encode sch⟩
    | mcmd => exact .inr ⟨⟨.wrongPort, rfl⟩, by simp [IllegalFields]⟩
  · cases p with
    | cmd => exact withoutScheme_cases .size (by decide) sch
    | mcmd => exact .inr ⟨⟨.wrongPort, rfl⟩, by simp [IllegalFields]⟩
  · cases p with
    | cmd => exact withoutScheme_cases .assemble (by decide) sch
    | mcmd => exact .inr ⟨⟨.wrongPort, rfl⟩, by simp [IllegalFields]⟩
  · cases p with
    | cmd => exact .inr ⟨⟨.wrongPort, rfl⟩, by simp [IllegalFields]⟩
    | mcmd => exact .inl ⟨_, rfl, .map sch⟩
  · cases p with
    | cmd => exact .inr ⟨⟨.wrongPort, rfl⟩, by simp [IllegalFields]⟩
    | mcmd => exact withoutScheme_cases .format (by decide) sch

theorem decodeFields_eq_ok_iff : decodeFields p op sch = .ok i ↔ LegalFields p op sch i := by
  refine ⟨fun h => ?_, LegalFields.decodeFields_eq⟩
  obtain ⟨j, e, hlegal⟩ | ⟨⟨_, e⟩, -⟩ := decodeFields_cases p op sch <;> cases e.symm.trans h
  exact hlegal

theorem decodeFields_eq_error_iff : (∃ e, decodeFields p op sch = .error e) ↔ IllegalFields p op sch := by
  obtain ⟨j, e, hlegal⟩ | ⟨herror, hillegal⟩ := decodeFields_cases p op sch
  · simp [e, hlegal.not_illegalFields]
  · exact iff_of_true herror hillegal

/-! ### Decoding and encoding -/

theorem LegalFields.eq_fields (h : LegalFields p op sch i) :
    i.port = p ∧ i.opcode = op ∧ i.schemeCode = sch ∧ i.wellFormed = true := by
  cases h with
  | encode => exact ⟨Machine.encodeOfCode_port sch, encodeOfCode_fields sch⟩
  | map => exact ⟨Machine.mapOfCode_port sch, mapOfCode_fields sch⟩
  | size | assemble | format => exact ⟨rfl, rfl, rfl, rfl⟩

theorem legalFields_of_wellFormed (h : i.wellFormed = true) : LegalFields i.port i.opcode i.schemeCode i := by
  cases i with
  | encode1bpp | encode2bpp | encode4bpp | encode8bpp | encode16bpp | encode24bpp | encode32bpp | encodeInvalid =>
    exact .encode _
  | encodeInvalidSch sch => exact (encodeOfCode_high sch h).subst (motive := LegalFields .cmd 1 sch) (.encode sch)
  | size => exact .size
  | assemble => exact .assemble
  | map1bpp | map2bpp | map4bpp | map8bpp | map16bpp | map24bpp | map32bpp | mapInvalid => exact .map _
  | mapInvalidSch sch => exact (mapOfCode_high sch h).subst (motive := LegalFields .mcmd 4 sch) (.map sch)
  | format => exact .format

/-- A word decodes to a command exactly if it is that command's word, on the command's port (R71, R75, R76). -/
theorem decode_eq_ok_iff : decode p w = .ok i ↔ encode i = w ∧ i.port = p ∧ i.wellFormed = true := by
  constructor
  · intro h
    obtain ⟨hrsv, e⟩ | ⟨-, e⟩ := decode_cases p w <;> rw [e] at h
    · obtain ⟨hport, hop, hsch, hwf⟩ := (decodeFields_eq_ok_iff.1 h).eq_fields
      exact ⟨by rw [encode, hop, hsch, ← word_of_fields hrsv], hport, hwf⟩
    · cases h
  · rintro ⟨rfl, rfl, hwf⟩
    obtain ⟨hop, hsch, hrsv⟩ := Laws.wordFields_of i
    rw [decode, if_pos hrsv, hop, hsch]
    exact decodeFields_eq_ok_iff.2 (legalFields_of_wellFormed hwf)

/-- A word is illegal on a port exactly if RSV is not 0 or its OP and SCH meet another condition of R74. -/
theorem decode_eq_error_iff :
    (∃ e, decode p w = .error e) ↔ rsvField w ≠ 0 ∨ IllegalFields p (opField w) (schField w) := by
  obtain ⟨hrsv, e⟩ | ⟨hrsv, e⟩ := decode_cases p w <;> rw [e]
  · simp only [hrsv, ne_eq, not_true_eq_false, false_or, decodeFields_eq_error_iff]
  · exact iff_of_true ⟨_, rfl⟩ (.inl hrsv)

theorem decode_encode (i : Instr) (hwf : i.wellFormed = true) : decode i.port (encode i) = .ok i :=
  decode_eq_ok_iff.2 ⟨rfl, rfl, hwf⟩

/-- Settles O1: the command's own word meets the right side of `decode_eq_ok_iff`. -/
theorem decodeOfEncodeIsTheCommand : Obligations.DecodeOfEncodeIsTheCommand := decode_encode

/-- Settles O2: the other direction of `decode_eq_ok_iff`. -/
theorem encodeOfDecodeIsTheWord : Obligations.EncodeOfDecodeIsTheWord :=
  fun _ _ _ => decode_eq_ok_iff.1

/-! ### The opcode map -/

/-- The word of a command by its fields as numbers (R70). -/
theorem ofNat_fields (i : Instr) : BitVec.ofNat 32 (16 * i.schemeCode.toNat + i.opcode.toNat) = encode i := by
  rw [encode, ← commandWord_toNat, BitVec.ofNat_toNat, BitVec.setWidth_eq]

/-- Settles O3: each row's word is its command's. -/
theorem tableWordsDecode : Obligations.TableWordsDecode :=
  ⟨decode_encode .encode1bpp rfl, decode_encode .encode2bpp rfl, decode_encode .encode4bpp rfl,
    decode_encode .encode8bpp rfl, decode_encode .encode16bpp rfl, decode_encode .encode24bpp rfl,
    decode_encode .encode32bpp rfl, decode_encode .encodeInvalid rfl,
    fun sch hsch => ofNat_fields (.encodeInvalidSch sch) ▸ decode_encode _ (decide_eq_true hsch),
    decode_encode .size rfl, decode_encode .assemble rfl,
    decode_encode .map1bpp rfl, decode_encode .map2bpp rfl, decode_encode .map4bpp rfl,
    decode_encode .map8bpp rfl, decode_encode .map16bpp rfl, decode_encode .map24bpp rfl,
    decode_encode .map32bpp rfl, decode_encode .mapInvalid rfl,
    fun sch hsch => ofNat_fields (.mapInvalidSch sch) ▸ decode_encode _ (decide_eq_true hsch),
    decode_encode .format rfl⟩

end Sys2Proof
end

section
/-! SUPPORT. An illegal word at its port (30_encoding.md R74; 60_exceptions.md R200, R203, R204), and the host's `wait`
(30_encoding.md R80). -/

namespace Sys2Proof.Machine

variable {s : State} {rest : List Event}

theorem writePort_of_error {p : Port} {w : Word} {e : IllegalWord} (h : decode p w = .error e) (s : State) :
    writePort p w s = .next (illegalWord p w s) := by
  obtain ⟨_, hj, -⟩ | ⟨_, -, hwrite⟩ := writePort_cases p w s
  · cases hj.symm.trans h
  · exact hwrite

/-- The host's write of an illegal word to a port. -/
theorem step_illegalWrite {p : Port} {v : BitVec 64} {e : IllegalWord}
    (hagenda : s.agenda = .writeReg (portNumber p) v :: rest) (herror : decode p (low32 v) = .error e) :
    step s = .next (illegalWord p (low32 v) { s with agenda := rest }) :=
  calc step s = hostWriteReg (portNumber p) v { s with agenda := rest } := step_pending hagenda
    _ = writePort p (low32 v) { s with agenda := rest } := hostWriteReg_portNumber p v _
    _ = .next (illegalWord p (low32 v) { s with agenda := rest }) := writePort_of_error herror _

/-- An idle block accepts an illegal word and raises IllegalCommand (R200, R203). -/
theorem illegalWord_cmd (w : Word) (hbusy : s.status.busy = false) :
    illegalWord .cmd w s = (s.accept w).raise .illegalCommand 0 false := by
  obtain ⟨hbusy', -⟩ | ⟨-, h⟩ := issueEngine_cases s w fun s' => s'.raise .illegalCommand 0 false
  · rw [hbusy] at hbusy'; cases hbusy'
  · exact h

/-- Settles O4: the conditions are those of the decoder's fields, and the states those of the two error raises. -/
theorem illegalWordsEndAtOnceWithErrorFour : Obligations.IllegalWordsEndAtOnceWithErrorFour := by
  refine ⟨fun p w => decode_eq_error_iff, fun s rest v e hagenda herror hbusy => ?_,
    fun s rest v e hagenda herror => ?_⟩
  · exact (step_illegalWrite (p := .cmd) hagenda herror).trans (congrArg _ (illegalWord_cmd _ hbusy))
  · exact step_illegalWrite (p := .mcmd) hagenda herror

/-! ### The host's wait -/

theorem hostPoll_of_busy (hbusy : s.status.busy = true) :
    hostPoll s = { s with readData := s.readRegister .status, agenda := .engine :: .poll :: s.agenda } :=
  if_pos hbusy

theorem hostPoll_of_not_busy (hbusy : s.status.busy = false) :
    hostPoll s = { s with readData := s.readRegister .status } :=
  if_neg (by simp [hbusy])

/-- Settles O58: the step is the poll, by BUSY. -/
theorem waitPollsUntilNotBusy : Obligations.WaitPollsUntilNotBusy := by
  intro s rest hagenda
  have hstep : step s = .next (hostPoll { s with agenda := rest }) := step_pending hagenda
  exact ⟨fun hbusy => hstep.trans (congrArg _ (hostPoll_of_busy hbusy)),
    fun hbusy => hstep.trans (congrArg _ (hostPoll_of_not_busy hbusy))⟩

end Sys2Proof.Machine
end

section
/-! SUPPORT. The acceptance of an ENCODE (40_encode.md R100, R120, R121): which of its checks decides, and the state it
leaves. -/

namespace Sys2Proof.Machine

variable {s : State} {i : Instr} {sch : Scheme} {p : Packing}

/-! ### The checks of an acceptance -/

/-- The capacity checks of an ENCODE, all passed (R100). -/
structure FitsCapacities (s : State) (p : Packing) : Prop where
  src : s.srcLen.toNat ≤ s.cfg.srcCap
  pal : p ≠ .thirtyTwo → s.palLen.toNat ≤ palCap
  pix : groupCount s.cfg.lenMode p s.srcLen.toNat * pixelsPerGroup p ≤ s.cfg.pixCap

theorem acceptEncode_of_fits (hsch : packingOf sch = .ok p) (h : FitsCapacities s p) :
    acceptEncode sch s = s.startEncode p := by
  have hpal : ¬(p ≠ .thirtyTwo ∧ palCap < s.palLen.toNat) := fun hc => Nat.not_lt.2 (h.pal hc.1) hc.2
  rw [acceptEncode, hsch]
  simp only [Nat.not_lt.2 h.src, hpal, Nat.not_lt.2 h.pix, ↓reduceIte]

theorem acceptEncode_of_not_fits (hsch : packingOf sch = .ok p) (h : ¬FitsCapacities s p) :
    acceptEncode sch s = s.raise .capacityExceeded 0 true := by
  obtain ⟨e, he, -, -⟩ | ⟨-, -, e⟩ | ⟨q, hq, hsrc, hpal, hpix, -⟩ := acceptEncode_cases sch s
  · cases he.symm.trans hsch
  · exact e
  · cases hq.symm.trans hsch
    exact absurd ⟨hsrc, hpal, hpix⟩ h

theorem acceptEncode_of_error {e : ErrorKind} (hsch : packingOf sch = .error e) :
    acceptEncode sch s = s.raise e 0 true := by
  rw [acceptEncode, hsch]

/-! ### The commands -/

/-- An idle block accepts an ENCODE (R200). -/
theorem issueEncode_of_not_busy (hbusy : s.status.busy = false) (i : Instr) (sch : Scheme) :
    issueEncode i sch s = .next (acceptEncode sch (s.accept (encode i))) := by
  obtain ⟨hbusy', -⟩ | ⟨-, h⟩ := issueEngine_cases s (encode i) (acceptEncode sch)
  · rw [hbusy] at hbusy'; cases hbusy'
  · exact congrArg _ h

/-- A command with a packing is the ENCODE of the scheme with that packing (R76). -/
theorem encodePacking_scheme (h : encodePacking i = some p) :
    ∃ sch, packingOf sch = .ok p ∧ i.opcode = 1 ∧ ∀ s, exec i s = issueEncode i sch s := by
  cases i <;> cases h
  case encode1bpp => exact ⟨.oneBpp, rfl, rfl, fun _ => rfl⟩
  case encode2bpp => exact ⟨.twoBpp, rfl, rfl, fun _ => rfl⟩
  case encode4bpp => exact ⟨.fourBpp, rfl, rfl, fun _ => rfl⟩
  case encode8bpp => exact ⟨.eightBpp, rfl, rfl, fun _ => rfl⟩
  case encode16bpp => exact ⟨.sixteenBpp, rfl, rfl, fun _ => rfl⟩
  case encode32bpp => exact ⟨.thirtyTwoBpp, rfl, rfl, fun _ => rfl⟩

theorem opField_encode (i : Instr) : opField (encode i) = i.opcode := (Laws.wordFields_of i).1

/-- The state of an ENCODE that ended with the error `e` within its write (R203). -/
theorem accept_raise_eq (hop : i.opcode = 1) (e : ErrorKind) :
    (s.accept (encode i)).raise e 0 true = { s with
      cmd := encode i, errInfo := 0, pixCount := 0
      status := { busy := false, done := true, cancelled := false, ovr := false, err := e.code, lastOp := 1 }
      eng := { s.eng with phase := .idle } } := by
  rw [← hop, ← opField_encode]
  rfl

/-- An ENCODE within the capacities starts (R100). -/
theorem exec_encode_of_fits (hi : encodePacking i = some p) (hbusy : s.status.busy = false) (h : FitsCapacities s p) :
    exec i s = .next ((s.accept (encode i)).startEncode p) := by
  obtain ⟨sch, hsch, -, hexec⟩ := encodePacking_scheme hi
  have haccepted : FitsCapacities (s.accept (encode i)) p := { h with }
  rw [hexec, issueEncode_of_not_busy hbusy, acceptEncode_of_fits hsch haccepted]

/-- Settles O8: the state is that of a started ENCODE, whose LAST_OP is the opcode of its word. -/
theorem encodeStartsWithLatchedOperands : Obligations.EncodeStartsWithLatchedOperands := by
  intro i p s hi hbusy hsrc hpal hpix
  obtain ⟨-, -, hop, -⟩ := encodePacking_scheme hi
  rw [exec_encode_of_fits hi hbusy ⟨hsrc, hpal, hpix⟩, ← hop, ← opField_encode]
  rfl

/-- Settles O9: each of the three operands contradicts one of the checks. -/
theorem encodeBeyondCapacityEndsWithErrorSeven : Obligations.EncodeBeyondCapacityEndsWithErrorSeven := by
  intro i p s hi hbusy hbeyond
  obtain ⟨sch, hsch, hop, hexec⟩ := encodePacking_scheme hi
  have hfits : ¬FitsCapacities (s.accept (encode i)) p := fun ⟨hsrc, hpal, hpix⟩ => by
    obtain h | ⟨hp, h⟩ | h := hbeyond
    · exact Nat.not_lt.2 hsrc h
    · exact Nat.not_lt.2 (hpal hp) h
    · exact Nat.not_lt.2 hpix h
  rw [hexec, issueEncode_of_not_busy hbusy, acceptEncode_of_not_fits hsch hfits, accept_raise_eq hop]
  rfl

/-- Settles O10: 24 bpp and Invalid have no packing, and the acceptance raises the error of the scheme. -/
theorem encodeWithoutPackingEndsWithItsError : Obligations.EncodeWithoutPackingEndsWithItsError := by
  intro i code s hi hbusy
  obtain ⟨sch, e, hsch, rfl, hop, hexec⟩ : ∃ sch e, packingOf sch = .error e ∧ e.code = code ∧ i.opcode = 1 ∧
      exec i s = issueEncode i sch s := by
    obtain ⟨rfl, rfl⟩ | ⟨rfl, rfl⟩ | ⟨code, -, rfl, rfl⟩ := hi
    · exact ⟨.twentyFourBpp, _, rfl, rfl, rfl, rfl⟩
    · exact ⟨.invalid, _, rfl, rfl, rfl, rfl⟩
    · exact ⟨.invalid, _, rfl, rfl, rfl, rfl⟩
  rw [hexec, issueEncode_of_not_busy hbusy, acceptEncode_of_error hsch, accept_raise_eq hop]

end Sys2Proof.Machine
end

section
/-! SUPPORT. The engine step of a running ENCODE (40_encode.md R102, R103): one equation for each of its outcomes, and
that the schemes without checkpoints do not read CTRL (R246). -/

namespace Sys2Proof.Machine

variable {s : State}

/-! ### One equation per outcome -/

theorem engineTurn_of_encoding (h : s.eng.phase = .encoding) : engineTurn s = stepEncode s := by
  simp [engineTurn, h]

theorem stepEncode_of_last (hi : s.eng.i = s.eng.G) : stepEncode s = .next (s.complete .normal true) := if_pos hi

theorem stepEncode_of_cancelled (hi : s.eng.i ≠ s.eng.G) (hcheck : hasCheckpoint s.eng.sch = true)
    (hcancel : s.ctrl.cancel = true) : stepEncode s = .next (s.complete .cancelled true) := by
  simp [stepEncode, hi, hcheck, hcancel]

/-- Before the last group, with no cancel seen, the group decides (R102). -/
theorem stepEncode_of_group (hi : s.eng.i ≠ s.eng.G)
    (hcancel : hasCheckpoint s.eng.sch = true → s.ctrl.cancel = false) :
    (∀ px, group s s.eng.i = .ok px → stepEncode s = .next (s.storeGroup px)) ∧
      ∀ idx, group s s.eng.i = .error (.paletteTooSmall idx) →
        stepEncode s = .next (s.raise .paletteTooSmall idx true) := by
  have hgo : (hasCheckpoint s.eng.sch && s.ctrl.cancel) = false := by
    rw [Bool.and_eq_false_imp]
    exact hcancel
  constructor
  · intro px h
    simp [stepEncode, hi, hgo, h]
  · intro idx h
    simp [stepEncode, hi, hgo, h]

/-! ### The four outcomes -/

/-- Settles O11: the step stores the group, and a block write is read back by `Memory.read_writeList`. -/
theorem encodeStepStoresTheGroup : Obligations.EncodeStepStoresTheGroup := by
  intro s px hphase hi hcancel hgroup
  refine ⟨s.pix.writeList s.eng.out px, ?_, fun k hk => ?_, fun a ha => ?_⟩
  · rw [engineTurn_of_encoding hphase, (stepEncode_of_group hi hcancel).1 px hgroup, State.storeGroup]
    cases s.eng.sch <;> rfl
  · rw [Memory.read_writeList, if_pos (by omega), Nat.add_sub_cancel_left]
  · rw [Memory.read_writeList, if_neg (by omega)]

/-- Settles O12: the step raises the error of the group. -/
theorem encodeStepRaisesPaletteTooSmall : Obligations.EncodeStepRaisesPaletteTooSmall := by
  intro s idx hphase hi hcancel hgroup
  exact (engineTurn_of_encoding hphase).trans ((stepEncode_of_group hi hcancel).2 idx hgroup)

/-- Settles O13: the step completes, normally after the last group and cancelled at a checkpoint before it. -/
theorem encodeEndsNormallyOrAtACheckpoint : Obligations.EncodeEndsNormallyOrAtACheckpoint := by
  refine ⟨fun s hphase hi => ?_, fun s hphase hi hsch hcancel => ?_⟩
  · exact (engineTurn_of_encoding hphase).trans (stepEncode_of_last hi)
  · have hcheck : hasCheckpoint s.eng.sch = true := by
      obtain h | h | h := hsch <;> rw [h] <;> rfl
    exact (engineTurn_of_encoding hphase).trans (stepEncode_of_cancelled hi hcheck hcancel)

/-! ### CTRL -/

/-- A group is read from SRC, PAL and the latches (R102). -/
theorem group_withCtrl (s : State) (c : Ctrl) (i : Nat) : group { s with ctrl := c } i = group s i := rfl

/-- Settles O18: without a checkpoint the outcome is decided by the group alone, which does not read CTRL. -/
theorem byteSchemesIgnoreCancel : Obligations.ByteSchemesIgnoreCancel := by
  intro s c hphase hcheck
  rw [engineTurn_of_encoding hphase, engineTurn_of_encoding (s := { s with ctrl := c }) hphase]
  simp only [stepEncode, hcheck, Bool.false_and, group_withCtrl]
  by_cases hend : s.eng.i = s.eng.G
  · simp only [hend, ↓reduceIte]; rfl
  · simp only [hend, Bool.false_eq_true, ↓reduceIte]
    rcases group s s.eng.i with (_ | _) | _ <;> rfl

end Sys2Proof.Machine
end

section
/-! SUPPORT. The pixels of a group (40_encode.md R105, R110 to R115): each scheme with a palette looks up the color
indices of its group in production order, and 32 bpp joins four bytes. -/

namespace Sys2Proof.Machine

variable {s : State} {i : Nat} {x : Byte}

/-! ### Color indices -/

theorem indices1bpp_eq (x : Byte) : indices1bpp x = (List.range 8).map fun b => x.toNat / 2 ^ b % 2 := by
  simp [indices1bpp, bitField_eq, List.range, List.range.loop]

theorem indices2bpp_eq (x : Byte) : indices2bpp x = (List.range 4).map fun b => x.toNat / 2 ^ (2 * b) % 4 := by
  simp [indices2bpp, bitField_eq, List.range, List.range.loop]

theorem indices4bpp_eq (x : Byte) : indices4bpp x = [x.toNat / 16, x.toNat % 16] := by
  have hx := x.isLt
  simp only [indices4bpp, bitField_eq, List.cons.injEq, and_true]
  omega

/-! ### Groups as palette lookups -/

theorem srcByte_of_read {a : Nat} (h : s.src.read a = some x) : srcByte s a = .ok x := by
  rw [srcByte, h]

/-- A byte of the stream, or the 0 of a missing tail byte (R9). -/
theorem srcByteOr0_of_read {a : Nat} (h : if a < s.eng.L.toNat then s.src.read a = some x else x = 0) :
    srcByteOr0 s a = .ok x := by
  split at h
  · next ha => rw [srcByteOr0_within ha, srcByte_of_read h]
  · next ha => rw [srcByteOr0_beyond (Nat.not_lt.1 ha), h]

theorem group_one (hsch : s.eng.sch = .one) (hx : s.src.read i = some x) :
    group s i = collect (palEntry s) ((List.range 8).map fun b => x.toNat / 2 ^ b % 2) := by
  simp only [group, hsch, group1bpp_eq_bind, srcByte_of_read hx, Except.bind, indices1bpp_eq]

theorem group_two (hsch : s.eng.sch = .two) (hx : s.src.read i = some x) :
    group s i = collect (palEntry s) ((List.range 4).map fun b => x.toNat / 2 ^ (2 * b) % 4) := by
  simp only [group, hsch, group2bpp_eq_bind, srcByte_of_read hx, Except.bind, indices2bpp_eq]

theorem group_four (hsch : s.eng.sch = .four) (hx : s.src.read i = some x) :
    group s i = collect (palEntry s) [x.toNat / 16, x.toNat % 16] := by
  simp only [group, hsch, group4bpp_eq_bind, srcByte_of_read hx, Except.bind, indices4bpp_eq]

theorem group_eight (hsch : s.eng.sch = .eight) (hx : s.src.read i = some x) :
    group s i = collect (palEntry s) [x.toNat] := by
  simp only [group, hsch, group8bpp_eq_bind, srcByte_of_read hx, Except.bind]

theorem group_sixteen {hi lo : Byte} (hsch : s.eng.sch = .sixteen) (hhi : s.src.read (2 * i) = some hi)
    (hlo : if 2 * i + 1 < s.eng.L.toNat then s.src.read (2 * i + 1) = some lo else lo = 0) :
    group s i = collect (palEntry s) [hi.toNat * 256 + lo.toNat] := by
  simp only [group, hsch, group16bpp_eq_bind, srcByte_of_read hhi, srcByteOr0_of_read hlo, Except.bind, index16bpp_eq]

/-! ### Pixels -/

/-- A color index below PAL_LEN whose entry is written delivers it (R105). -/
theorem palEntry_of_read {k : Nat} {p : Pixel} (hk : k < s.eng.PL.toNat) (hp : s.pal.read k = some p) :
    palEntry s k = .ok p := by
  rw [palEntry, if_neg (Nat.not_le.2 hk), hp]

/-- Color indices below a written part `c` of the palette deliver their entries in order. -/
theorem collect_palEntries {c : Nat → Pixel} {n : Nat}
    (hc : ∀ j, j < n → j < s.eng.PL.toNat ∧ s.pal.read j = some (c j)) {ks : List Nat} (hks : ∀ k ∈ ks, k < n) :
    collect (palEntry s) ks = .ok (ks.map c) := by
  rw [collect_eq_ok, List.forall₂_map_right_iff, List.forall₂_same]
  intro k hk
  obtain ⟨hlt, hread⟩ := hc k (hks k hk)
  exact palEntry_of_read hlt hread

/-- Settles O14: the group is a list of lookups, each index below the palette part of its scheme. -/
theorem subByteGroupsFollowTheBitOrders : Obligations.SubByteGroupsFollowTheBitOrders := by
  intro s i x c hx
  have hbyte := x.isLt
  refine ⟨fun hsch hc => ?_, fun hsch hc => ?_, fun hsch hc => ?_⟩
  · rw [group_one hsch hx, collect_palEntries hc, List.map_map]
    · rfl
    · simp only [List.forall_mem_map]
      exact fun b _ => Nat.mod_lt _ (by decide)
  · rw [group_two hsch hx, collect_palEntries hc, List.map_map]
    · rfl
    · simp only [List.forall_mem_map]
      exact fun b _ => Nat.mod_lt _ (by decide)
  · rw [group_four hsch hx, collect_palEntries hc]
    · rfl
    · simp only [List.forall_mem_cons, List.not_mem_nil, false_imp_iff, implies_true, and_true]
      omega

/-- Settles O15: the group is one lookup. -/
theorem byteAndPairGroupsIndexThePalette : Obligations.ByteAndPairGroupsIndexThePalette := by
  refine ⟨fun s i x p hsch hx hlt hp => ?_, fun s i hi lo p hsch hhi hlo hlt hp => ?_⟩
  · rw [group_eight hsch hx, collect, palEntry_of_read hlt hp, collect]
  · rw [group_sixteen hsch hhi hlo, collect, palEntry_of_read hlt hp, collect]

theorem argb_toNat (a r g b : Byte) :
    (argb a r g b).toNat = a.toNat * 2 ^ 24 + r.toNat * 2 ^ 16 + g.toNat * 2 ^ 8 + b.toNat := by
  simp only [argb, toNat_append]
  omega

/-- Settles O16: the four reads answer, and their bytes are joined. -/
theorem quadGroupsAssembleArgb : Obligations.QuadGroupsAssembleArgb := by
  intro s i q hsch hq
  refine ⟨argb (q 0) (q 1) (q 2) (q 3), ?_, argb_toNat _ _ _ _⟩
  have h0 := srcByteOr0_of_read (hq 0 (by decide))
  have h1 := srcByteOr0_of_read (hq 1 (by decide))
  have h2 := srcByteOr0_of_read (hq 2 (by decide))
  have h3 := srcByteOr0_of_read (hq 3 (by decide))
  rw [Nat.add_zero] at h0
  simp only [group, hsch, group32bpp, collect, h0, h1, h2, h3, Except.map, argbOf]

/-! ### The first offending index -/

theorem palEntry_tooSmall_iff {k idx : Nat} :
    palEntry s k = .error (.paletteTooSmall idx) ↔ k = idx ∧ s.eng.PL.toNat ≤ idx := by
  constructor
  · intro h
    obtain ⟨rfl, hle⟩ := palEntry_tooSmall h
    exact ⟨rfl, hle⟩
  · rintro ⟨rfl, hle⟩
    exact if_pos hle

theorem palEntry_ok_iff {k : Nat} :
    (∃ p, palEntry s k = .ok p) ↔ k < s.eng.PL.toNat ∧ ∃ p, s.pal.read k = some p := by
  constructor
  · rintro ⟨p, h⟩
    obtain ⟨-, e⟩ | ⟨-, -, e⟩ | ⟨hk, q, hq, -⟩ := palEntry_cases s k
    · cases e.symm.trans h
    · cases e.symm.trans h
    · exact ⟨hk, q, hq⟩
  · rintro ⟨hk, p, hp⟩
    exact ⟨p, palEntry_of_read hk hp⟩

/-- Reading along `0, 1, …, n - 1` stops exactly at the first element that does. -/
theorem collect_range_eq_error {ε β : Type} {f : Nat → Except ε β} {n : Nat} {e : ε} :
    collect f (List.range n) = .error e ↔ ∃ j < n, f j = .error e ∧ ∀ k < j, ∃ z, f k = .ok z := by
  rw [collect_eq_error]
  constructor
  · rintro ⟨j, x, hx, hfx, hbefore⟩
    obtain ⟨hj, rfl⟩ : ∃ hj : j < n, j = x := by simpa [List.getElem?_eq_some_iff] using hx
    exact ⟨j, hj, hfx, fun k hk => hbefore k k hk (List.getElem?_range (hk.trans hj))⟩
  · rintro ⟨j, hj, hfj, hbefore⟩
    refine ⟨j, j, List.getElem?_range hj, hfj, fun k y hk hy => ?_⟩
    obtain ⟨-, rfl⟩ : ∃ hk : k < n, k = y := by simpa [List.getElem?_eq_some_iff] using hy
    exact hbefore k hk

/-- The first of a list of palette lookups that is beyond PAL_LEN, with those before it delivered (R105, log 16). -/
theorem collect_palEntry_tooSmall {f : Nat → Nat} {n idx : Nat} :
    collect (palEntry s) ((List.range n).map f) = .error (.paletteTooSmall idx) ↔
      ∃ j : Nat, j < n ∧ f j = idx ∧ s.eng.PL.toNat ≤ idx ∧
        ∀ k, k < j → f k < s.eng.PL.toNat ∧ ∃ p, s.pal.read (f k) = some p := by
  simp only [collect_map, collect_range_eq_error, palEntry_tooSmall_iff, palEntry_ok_iff, and_assoc]

/-- Settles O17: with a palette, the group is a list of lookups at the closed-form indices. -/
theorem firstOffendingIndexIsReported : Obligations.FirstOffendingIndexIsReported := by
  intro s i n f hgroup idx
  have hlookups : group s i = collect (palEntry s) ((List.range n).map f) := by
    obtain ⟨hsch, rfl, x, hx, hf⟩ | ⟨hsch, rfl, x, hx, hf⟩ | ⟨hsch, rfl, x, hx, hf⟩ | ⟨hsch, rfl, x, hx, hf⟩ |
      ⟨hsch, rfl, hi, lo, hhi, hlo, hf⟩ := hgroup
    · rw [group_one hsch hx, funext hf]
    · rw [group_two hsch hx, funext hf]
    · rw [group_four hsch hx, funext hf]; rfl
    · rw [group_eight hsch hx, funext hf]; rfl
    · rw [group_sixteen hsch hhi hlo, funext hf]; rfl
  rw [hlookups, collect_palEntry_tooSmall]

end Sys2Proof.Machine
end

section
/-! SUPPORT. Pixel counts (40_encode.md R101, R124): the 32 bpp count as a least multiple, and the length of a
reference encoding. -/

namespace Sys2Proof.Machine

variable {mode : LenMode} {sch : Scheme} {p : Packing} {b : List Byte} {pal out : List Pixel}

/-! ### The 32 bpp count -/

theorem count32_even {len : Nat} (h : len % 4 = 0) (mode : LenMode) : count32 mode len = len / 4 := if_pos h

theorem count32_exact {len : Nat} (h : len % 4 ≠ 0) : count32 .exact len = 4 * ((len + 15) / 16) := if_neg h

theorem count32_floor {len : Nat} (h : len % 4 ≠ 0) : count32 .floor len = 4 * ((len / 4 + 3) / 4) := if_neg h

/-- Settles O19: both counts are 4 times a rounded-up quotient. -/
theorem pixelCount32IsTheLeastMultipleOfFour : Obligations.PixelCount32IsTheLeastMultipleOfFour := by
  refine fun len => ⟨count32_even, fun h => ?_⟩
  rw [count32_exact h, count32_floor h]
  refine ⟨⟨by omega, by omega, fun m hm hle => by omega⟩, ⟨by omega, by omega, fun m hm hle => by omega⟩⟩

/-! ### The length of a reference encoding -/

theorem refEncode_eq_ok_iff :
    refEncode mode sch b pal = .ok out ↔ ∃ p, packingOf sch = .ok p ∧ refPixels mode p b pal = .ok out := by
  unfold refEncode
  cases packingOf sch with
  | error e => simp
  | ok p => cases h : refPixels mode p b pal <;> simp [h]

theorem refPixels_length (h : refPixels mode p b pal = .ok out) : out.length = pixelTotal mode p b.length := by
  rw [collect_length _ h, List.length_range]

theorem pixelTotal_zero (mode : LenMode) (p : Packing) : pixelTotal mode p 0 = 0 := by
  cases p <;> rfl

theorem refPixels_nil (mode : LenMode) (p : Packing) (pal : List Pixel) : refPixels mode p [] pal = .ok [] := by
  rw [refPixels, List.length_nil, pixelTotal_zero]
  rfl

/-- Every scheme but 24 bpp and Invalid has a packing (R100). -/
theorem packingOf_supported (hinvalid : sch ≠ .invalid) (h24 : sch ≠ .twentyFourBpp) : ∃ p, packingOf sch = .ok p := by
  cases sch with
  | invalid => exact absurd rfl hinvalid
  | twentyFourBpp => exact absurd rfl h24
  | _ => exact ⟨_, rfl⟩

/-- The pixel count of each scheme (R124). -/
theorem refEncode_length (h : refEncode mode sch b pal = .ok out) :
    ∃ p, packingOf sch = .ok p ∧ out.length = groupCount mode p b.length * pixelsPerGroup p := by
  obtain ⟨p, hp, hpixels⟩ := refEncode_eq_ok_iff.1 h
  exact ⟨p, hp, refPixels_length hpixels⟩

/-- Settles O20: the length is the number of groups times the pixels of one. -/
theorem encodedLengthsAreTheStatedCounts : Obligations.EncodedLengthsAreTheStatedCounts := by
  refine fun mode pal => ⟨fun sch hinvalid h24 => ?_, fun sch b out h => ?_⟩
  · obtain ⟨p, hp⟩ := packingOf_supported hinvalid h24
    exact refEncode_eq_ok_iff.2 ⟨p, hp, refPixels_nil mode p pal⟩
  · obtain ⟨p, hp, hlength⟩ := refEncode_length h
    refine ⟨?_, ?_, ?_, ?_, ?_, ?_⟩ <;> rintro rfl <;> cases hp
    · exact hlength.trans (Nat.mul_comm _ _)
    · exact hlength.trans (Nat.mul_comm _ _)
    · exact hlength.trans (Nat.mul_comm _ _)
    · exact hlength.trans (Nat.mul_one _)
    · exact hlength.trans (Nat.mul_one _)
    · exact hlength.trans (Nat.mul_one _)

end Sys2Proof.Machine
end

section
/-! SUPPORT. Runs of an ENCODE (40_encode.md R104, R123): while its groups are in the reference a run of engine turns
produces the reference pixels, whether the host is idle or gives the engine those turns. -/

namespace Sys2Proof.Machine

variable {mode : LenMode} {p : Packing} {b : List Byte} {pal px : List Pixel} {s t : State}

/-! ### The groups of the reference -/

/-- The reference pixels of the first `j` groups, or the first offending color index (R122). -/
def refGroups (p : Packing) (b : List Byte) (pal : List Pixel) (j : Nat) : Except Nat (List Pixel) :=
  collect (refPixel p b pal) (List.range (j * pixelsPerGroup p))

/-- The reference pixels of group `i`, or the first offending color index in it. -/
def refGroup (p : Packing) (b : List Byte) (pal : List Pixel) (i : Nat) : Except Nat (List Pixel) :=
  collect (refPixel p b pal) (List.range' (i * pixelsPerGroup p) (pixelsPerGroup p))

theorem refGroups_groupCount : refGroups p b pal (groupCount mode p b.length) = refPixels mode p b pal := rfl

theorem refGroups_zero : refGroups p b pal 0 = .ok [] := by
  rw [refGroups, Nat.zero_mul]
  rfl

theorem refGroups_length {j : Nat} (h : refGroups p b pal j = .ok px) : px.length = j * pixelsPerGroup p := by
  rw [collect_length _ h, List.length_range]

/-- One more group is read after those before it. -/
theorem refGroups_succ (j : Nat) :
    refGroups p b pal (j + 1) =
      (refGroups p b pal j).bind fun us => (refGroup p b pal j).map fun vs => us ++ vs := by
  have hsplit : List.range ((j + 1) * pixelsPerGroup p) =
      List.range (j * pixelsPerGroup p) ++ List.range' (j * pixelsPerGroup p) (pixelsPerGroup p) := by
    rw [Nat.succ_mul, List.range_eq_range', List.range_eq_range', ← List.range'_append_1, Nat.zero_add]
  rw [refGroups, hsplit, collect_append]
  unfold refGroups refGroup
  rcases collect (refPixel p b pal) (List.range (j * pixelsPerGroup p)) with e | us
  · rfl
  · rcases collect (refPixel p b pal) (List.range' (j * pixelsPerGroup p) (pixelsPerGroup p)) with e | vs <;> rfl

/-- The groups before one of an answered list answer too. -/
theorem refGroups_ok_succ {j : Nat} (h : refGroups p b pal (j + 1) = .ok px) :
    ∃ us vs, refGroups p b pal j = .ok us ∧ refGroup p b pal j = .ok vs ∧ px = us ++ vs := by
  rw [refGroups_succ] at h
  cases hus : refGroups p b pal j with
  | error e => rw [hus] at h; cases h
  | ok us =>
    cases hvs : refGroup p b pal j with
    | error e => rw [hus, hvs] at h; cases h
    | ok vs =>
      rw [hus, hvs] at h
      cases h
      exact ⟨us, vs, rfl, rfl, rfl⟩

theorem refGroups_ok_of_le {j n : Nat} (hle : j ≤ n) (h : refGroups p b pal n = .ok px) :
    ∃ us, refGroups p b pal j = .ok us := by
  induction n, hle using Nat.le_induction generalizing px with
  | base => exact ⟨px, h⟩
  | succ n _ ih =>
    obtain ⟨us, -, hus, -, -⟩ := refGroups_ok_succ h
    exact ih hus

/-- The first offending index lies in a group that the ones before it reach. -/
theorem refGroups_error {n idx : Nat} (h : refGroups p b pal n = .error idx) :
    ∃ j < n, (∃ us, refGroups p b pal j = .ok us) ∧ refGroup p b pal j = .error idx := by
  induction n with
  | zero => rw [refGroups_zero] at h; cases h
  | succ n ih =>
    rw [refGroups_succ] at h
    cases hus : refGroups p b pal n with
    | error e =>
      rw [hus] at h
      cases h
      obtain ⟨j, hj, hgroup⟩ := ih hus
      exact ⟨j, Nat.lt_succ_of_lt hj, hgroup⟩
    | ok us =>
      refine ⟨n, Nat.lt_succ_self n, ⟨us, hus⟩, ?_⟩
      cases hvs : refGroup p b pal n with
      | error e => rw [hus, hvs] at h; cases h; rfl
      | ok vs => rw [hus, hvs] at h; cases h

theorem refByte_lt (b : List Byte) (j : Nat) : refByte b j < 256 := (b.getD j 0).isLt

/-- A color index has at most 16 bits (R110 to R114). -/
theorem refIndex_lt (p : Packing) (b : List Byte) (k : Nat) : refIndex p b k < 65536 := by
  cases p with
  | one => exact (Nat.mod_lt _ (by decide)).trans (by decide)
  | two => exact (Nat.mod_lt _ (by decide)).trans (by decide)
  | four =>
    have := refByte_lt b (k / 2)
    simp only [refIndex]
    split <;> omega
  | eight => exact (refByte_lt b k).trans (by decide)
  | sixteen =>
    have := refByte_lt b (2 * k)
    have := refByte_lt b (2 * k + 1)
    simp only [refIndex]
    omega
  | thirtyTwo => exact Nat.zero_lt_succ _

theorem refPixel_error {k idx : Nat} (h : refPixel p b pal k = .error idx) : idx = refIndex p b k := by
  cases p <;> simp only [refPixel] at h
  case thirtyTwo => cases h
  all_goals
    split at h <;> cases h
    rfl

/-- An offending index fits ERR_INFO. -/
theorem refGroups_error_lt {n idx : Nat} (h : refGroups p b pal n = .error idx) : idx < 65536 := by
  obtain ⟨k, -, hk⟩ := exists_of_collect_error h
  exact refPixel_error hk ▸ refIndex_lt p b k

/-! ### A running ENCODE -/

/-- A running ENCODE of the stream `b` that has produced `px`: the reference pixels of the groups before `eng.i`, which
stand in PIX from 0 on. -/
structure Produced (mode : LenMode) (p : Packing) (b : List Byte) (pal : List Pixel) (s : State) (px : List Pixel) :
    Prop where
  phase : s.eng.phase = .encoding
  loaded : Loaded s p b pal
  groups : s.eng.G = groupCount mode p b.length
  perGroup : s.eng.ppg = pixelsPerGroup p
  reference : refGroups p b pal s.eng.i = .ok px
  out : s.eng.out = px.length
  pix : ∀ k, k < px.length → s.pix.read k = px[k]?
  notCancelled : s.status.cancelled = false
  noError : s.status.err = 0
  noInfo : s.errInfo = 0

theorem Produced.withAgenda (h : Produced mode p b pal s px) (a : List Event) :
    Produced mode p b pal { s with agenda := a } px :=
  { h with loaded := { h.loaded with } }

/-- Reading a block written behind another. -/
theorem read_writeList_append {w : Nat} {m : Memory w} {us vs : List (BitVec w)}
    (hm : ∀ k, k < us.length → m.read k = us[k]?) :
    ∀ k, k < (us ++ vs).length → (m.writeList us.length vs).read k = (us ++ vs)[k]? := by
  intro k hk
  rw [List.length_append] at hk
  rw [Memory.read_writeList]
  by_cases hlt : k < us.length
  · rw [if_neg (by omega), hm k hlt, List.getElem?_append_left hlt]
  · rw [if_pos (by omega), List.getElem?_append_right (Nat.not_lt.1 hlt)]

/-- A stored group is the next one produced (R102). -/
theorem Produced.storeGroup (h : Produced mode p b pal s px) {vs : List Pixel}
    (hvs : refGroup p b pal s.eng.i = .ok vs) : Produced mode p b pal (s.storeGroup vs) (px ++ vs) where
  phase := h.phase
  loaded := { h.loaded with }
  groups := h.groups
  perGroup := h.perGroup
  reference := by
    rw [State.storeGroup_eng, refGroups_succ, h.reference, hvs]
    rfl
  out := by
    have hlength : vs.length = pixelsPerGroup p := by rw [collect_length _ hvs, List.length_range']
    simp only [State.storeGroup_eng, h.out, h.perGroup, List.length_append, hlength]
  pix := by
    rw [State.storeGroup_pix, h.out]
    exact read_writeList_append h.pix
  notCancelled := h.notCancelled
  noError := h.noError
  noInfo := h.noInfo

/-- The engine's turn before the last group, with no cancel seen, is decided by the reference (R123). -/
theorem Produced.engineTurn_group (h : Produced mode p b pal s px) (hi : s.eng.i < groupCount mode p b.length)
    (hcancel : hasCheckpoint p = true → s.ctrl.cancel = false) :
    (∀ vs, refGroup p b pal s.eng.i = .ok vs → engineTurn s = .next (s.storeGroup vs)) ∧
      ∀ idx, refGroup p b pal s.eng.i = .error idx → engineTurn s = .next (s.raise .paletteTooSmall idx true) := by
  have hgroup : group s s.eng.i = asStop (refGroup p b pal s.eng.i) := group_reference h.loaded hi
  have hnotLast : s.eng.i ≠ s.eng.G := by rw [h.groups]; exact Nat.ne_of_lt hi
  obtain ⟨hstore, hraise⟩ := stepEncode_of_group hnotLast (h.loaded.sch ▸ hcancel)
  rw [engineTurn_of_encoding h.phase]
  exact ⟨fun vs hvs => hstore vs (by rw [hgroup, hvs]; rfl), fun idx hidx => hraise idx (by rw [hgroup, hidx]; rfl)⟩

/-- The engine's turn after the last group (R102). -/
theorem Produced.engineTurn_last (h : Produced mode p b pal s px) (hi : s.eng.i = groupCount mode p b.length) :
    engineTurn s = .next (s.complete .normal true) := by
  rw [engineTurn_of_encoding h.phase, stepEncode_of_last (hi.trans h.groups.symm)]

/-! ### Runs of engine turns -/

/-- The next `n` moves are the engine's: the host has none pending, or lets the engine take `n` turns before `rest`
(log 2). -/
def EngineMoves (n : Nat) (rest : List Event) (s : State) : Prop :=
  s.agenda = List.replicate n .engine ++ rest ∨ s.agenda = [] ∧ rest = []

/-- Such a step is the engine's turn, which finds its own move taken off the agenda. -/
theorem step_engineMoves {n : Nat} {rest : List Event} (h : EngineMoves (n + 1) rest s) :
    ∃ a, step s = engineTurn { s with agenda := a } ∧ EngineMoves n rest { s with agenda := a } := by
  obtain h | ⟨h, hrest⟩ := h
  · exact ⟨List.replicate n .engine ++ rest, step_pending (e := .engine) (h.trans rfl), .inl rfl⟩
  · exact ⟨[], h ▸ step_idleHost h, .inr ⟨rfl, hrest⟩⟩

theorem EngineMoves.agenda {rest : List Event} (h : EngineMoves 0 rest s) : s.agenda = rest := by
  obtain h | ⟨h, rfl⟩ := h
  · exact h
  · exact h

theorem run_add (m n : Nat) (s : State) : run (m + n) s = andThen (run m s) (run n) := by
  induction m generalizing s with
  | zero => rw [Nat.zero_add]; rfl
  | succ m ih =>
    rw [Nat.succ_add, run, run]
    cases step s with
    | next t => exact ih t
    | fault r => rfl
    | refused r => rfl

theorem run_one (s : State) : run 1 s = step s := by
  rw [run]
  cases step s <;> rfl

/-- As long as the reference has no error, `n` engine turns produce its next `n` groups (R123). -/
theorem run_groups {rest : List Event} {n : Nat} {us : List Pixel} (h : Produced mode p b pal s px)
    (hmoves : EngineMoves n rest s) (hcancel : hasCheckpoint p = true → s.ctrl.cancel = false)
    (hn : s.eng.i + n ≤ groupCount mode p b.length) (hus : refGroups p b pal (s.eng.i + n) = .ok us) :
    ∃ t, run n s = .next t ∧ Produced mode p b pal t us ∧ t.eng.i = s.eng.i + n ∧ t.agenda = rest ∧
      t.ctrl = s.ctrl := by
  induction n generalizing s px with
  | zero =>
    obtain rfl : px = us := Except.ok.inj (h.reference.symm.trans hus)
    exact ⟨s, rfl, h, rfl, hmoves.agenda, rfl⟩
  | succ n ih =>
    obtain ⟨a, hstep, hmoves'⟩ := step_engineMoves hmoves
    have hlt : s.eng.i < groupCount mode p b.length := by omega
    obtain ⟨vs, hvs⟩ : ∃ vs, refGroup p b pal s.eng.i = .ok vs := by
      obtain ⟨_, hnext⟩ := refGroups_ok_of_le (j := s.eng.i + 1) (by omega) hus
      obtain ⟨_, vs, -, hvs, -⟩ := refGroups_ok_succ hnext
      exact ⟨vs, hvs⟩
    have hturn : step s = .next (State.storeGroup { s with agenda := a } vs) :=
      hstep.trans (((h.withAgenda a).engineTurn_group hlt hcancel).1 vs hvs)
    have hi : s.eng.i + 1 + n = s.eng.i + (n + 1) := by omega
    obtain ⟨t, hrun, ht, hti, hagenda, hctrl⟩ :=
      ih ((h.withAgenda a).storeGroup hvs) hmoves' hcancel (hi ▸ hn) (hi ▸ hus)
    refine ⟨t, ?_, ht, hti.trans hi, hagenda, hctrl⟩
    rw [run, hturn]
    exact hrun

/-- With the host idle and no error in the reference the run ends normally (R123). -/
theorem run_encode_ok (h : Produced mode p b pal s []) (hi : s.eng.i = 0) (hagenda : s.agenda = [])
    (hcancel : hasCheckpoint p = true → s.ctrl.cancel = false) (href : refPixels mode p b pal = .ok px) :
    ∃ t, Produced mode p b pal t px ∧ run (groupCount mode p b.length + 1) s = .next (t.complete .normal true) := by
  obtain ⟨t, hrun, ht, hti, hidle, -⟩ := run_groups (n := groupCount mode p b.length) (us := px) h
    (.inr ⟨hagenda, rfl⟩) hcancel (by rw [hi, Nat.zero_add])
    (by rw [hi, Nat.zero_add, refGroups_groupCount, href])
  rw [hi, Nat.zero_add] at hti
  refine ⟨t, ht, ?_⟩
  rw [run_add, hrun]
  calc run 1 t = engineTurn t := (run_one t).trans (step_idleHost hidle)
    _ = .next (t.complete .normal true) := ht.engineTurn_last hti

/-- With the host idle and an error in the reference the run ends with that error, in the group that has the first
offending index (R105, R123). -/
theorem run_encode_error (h : Produced mode p b pal s []) (hi : s.eng.i = 0) (hagenda : s.agenda = [])
    (hcancel : hasCheckpoint p = true → s.ctrl.cancel = false) {idx : Nat}
    (href : refPixels mode p b pal = .error idx) :
    ∃ t us, Produced mode p b pal t us ∧
      run (groupCount mode p b.length + 1) s = .next (t.raise .paletteTooSmall idx true) := by
  obtain ⟨j, hj, ⟨us, hus⟩, hgroup⟩ := refGroups_error (refGroups_groupCount.trans href)
  obtain ⟨t, hrun, ht, hti, hidle, hctrl⟩ := run_groups (n := j) (us := us) h (.inr ⟨hagenda, rfl⟩) hcancel
    (by omega) (by rw [hi, Nat.zero_add]; exact hus)
  rw [hi, Nat.zero_add] at hti
  have hraise : step t = .next (t.raise .paletteTooSmall idx true) :=
    (step_idleHost hidle).trans ((ht.engineTurn_group (hti ▸ hj) (hctrl ▸ hcancel)).2 idx (hti ▸ hgroup))
  refine ⟨t, us, ht, ?_⟩
  have hsteps : groupCount mode p b.length + 1 = j + ((groupCount mode p b.length - j) + 1) := by omega
  rw [hsteps, run_add, hrun, andThen, run, hraise]
  exact run_idle (s := t.raise .paletteTooSmall idx true) rfl hidle _

/-- CANCEL set by the host after `j` groups, at a scheme with checkpoints, ends the run at the next checkpoint
(R103, R104). -/
theorem run_encode_cancelled {j : Nat} (h : Produced mode p b pal s []) (hi : s.eng.i = 0)
    (hagenda : s.agenda = List.replicate j .engine ++ [.writeReg 2 1, .engine]) (hcheck : hasCheckpoint p = true)
    (hcancel : s.ctrl.cancel = false) (hj : j < groupCount mode p b.length) (href : refGroups p b pal j = .ok px) :
    ∃ t, Produced mode p b pal t px ∧ run (j + 2) s = .next (t.complete .cancelled true) := by
  obtain ⟨t, hrun, ht, hti, hpending, -⟩ := run_groups (n := j) (us := px) h (.inl hagenda) (fun _ => hcancel)
    (by omega) (by rw [hi, Nat.zero_add]; exact href)
  rw [hi, Nat.zero_add] at hti
  have hcancelled : Produced mode p b pal { t with agenda := [], ctrl := { cancel := true } } px :=
    { ht with loaded := { ht.loaded with } }
  have hwrite : step t = .next { t with agenda := [.engine], ctrl := { cancel := true } } := step_pending hpending
  have hnotLast : t.eng.i ≠ t.eng.G := by
    rw [hti, ht.groups]
    exact Nat.ne_of_lt hj
  have hend : step { t with agenda := [.engine], ctrl := { cancel := true } } =
      .next (State.complete { t with agenda := [], ctrl := { cancel := true } } .cancelled true) :=
    calc step { t with agenda := [.engine], ctrl := { cancel := true } }
        = engineTurn { t with agenda := [], ctrl := { cancel := true } } := rfl
      _ = stepEncode { t with agenda := [], ctrl := { cancel := true } } := engineTurn_of_encoding ht.phase
      _ = _ := stepEncode_of_cancelled hnotLast (ht.loaded.sch ▸ hcheck) rfl
  refine ⟨_, hcancelled, ?_⟩
  rw [run_add, hrun, andThen, run, hwrite, andThen, run_one, hend]

/-! ### From the command to the end -/

/-- The host has loaded the stream and, where the packing uses one, the palette, with their lengths, and all of it and
the result fit (R240 steps 1 and 2). -/
structure Staged (s : State) (p : Packing) (b : List Byte) (pal : List Pixel) : Prop where
  len : s.srcLen.toNat = b.length
  src : ∀ j, j < b.length → s.src.read j = b[j]?
  pal : p ≠ .thirtyTwo → s.palLen.toNat = pal.length ∧ pal.length ≤ 65536 ∧ ∀ j, j < pal.length → s.pal.read j = pal[j]?
  srcFits : b.length ≤ s.cfg.srcCap
  pixFits : pixelTotal s.cfg.lenMode p b.length ≤ s.cfg.pixCap

theorem Staged.fitsCapacities (h : Staged s p b pal) : FitsCapacities s p where
  src := h.len ▸ h.srcFits
  pal := fun hp => by
    obtain ⟨hlen, hle, -⟩ := h.pal hp
    exact hlen ▸ hle
  pix := h.len ▸ h.pixFits

/-- An ENCODE of staged inputs starts with nothing produced (R100). -/
theorem Staged.exec_encode (h : Staged s p b pal) {i : Instr} (hi : encodePacking i = some p)
    (hbusy : s.status.busy = false) :
    ∃ t, exec i s = .next t ∧ Produced s.cfg.lenMode p b pal t [] ∧ t.eng.i = 0 ∧ t.agenda = s.agenda ∧
      t.ctrl = s.ctrl := by
  refine ⟨_, exec_encode_of_fits hi hbusy h.fitsCapacities, ?_, rfl, rfl, rfl⟩
  exact
    { phase := rfl
      loaded :=
        { sch := rfl, L := h.len, src := h.src
          pal := fun hp => by
            obtain ⟨hlen, -, hread⟩ := h.pal hp
            exact ⟨hlen, hread⟩ }
      groups := congrArg (groupCount _ p) h.len
      perGroup := rfl
      reference := refGroups_zero
      out := rfl
      pix := nofun
      notCancelled := rfl
      noError := rfl
      noInfo := rfl }

/-- The count that an ending ENCODE writes is exact below 2^64 (R206). -/
theorem Produced.pixCount_complete (h : Produced mode p b pal s px) (hlt : px.length < 2 ^ 64) (k : Ending) :
    (s.complete k true).pixCount.toNat = px.length := by
  rw [State.complete_pixCount, if_pos rfl, BitVec.toNat_ofNat, h.out, Nat.mod_eq_of_lt hlt]

/-- Settles O21: the started ENCODE has produced nothing yet, and its run ends as the reference does. -/
theorem encodeRunMeetsTheReference : Obligations.EncodeRunMeetsTheReference := by
  rintro i p s b pal hi ⟨-, -, hpixCap, -⟩ hbusy hagenda hlen hsrc hpal hsrcFits hpixFits hcancel
  have hstaged : Staged s p b pal := ⟨hlen, hsrc, hpal, hsrcFits, hpixFits⟩
  obtain ⟨t, hexec, ht, hti, hidle, hctrl⟩ := hstaged.exec_encode hi hbusy
  rw [hagenda] at hidle
  rw [← hctrl] at hcancel
  cases href : refPixels s.cfg.lenMode p b pal with
  | ok out =>
    obtain ⟨u, hu, hrun⟩ := run_encode_ok ht hti hidle hcancel href
    have hlt : out.length < 2 ^ 64 := by
      rw [refPixels_length href]
      exact hpixFits.trans_lt hpixCap
    exact ⟨t, _, hexec, hrun, rfl, rfl, hu.notCancelled, hu.noError, hu.noInfo, hu.pixCount_complete hlt _, hu.pix⟩
  | error idx =>
    obtain ⟨u, us, hu, hrun⟩ := run_encode_error ht hti hidle hcancel href
    have hidx : idx < 2 ^ 64 := (refGroups_error_lt (refGroups_groupCount.trans href)).trans (by decide)
    refine ⟨t, _, hexec, hrun, rfl, rfl, hu.notCancelled, rfl, ?_, rfl⟩
    rw [State.raise_errInfo, BitVec.toNat_ofNat, Nat.mod_eq_of_lt hidx]

/-- Settles O22: the started ENCODE has produced nothing yet, `j` turns produce the first `j` groups, and the checkpoint
ends it there. -/
theorem cancelledEncodeIsAPrefixOfTheReference : Obligations.CancelledEncodeIsAPrefixOfTheReference := by
  rintro i p s b pal out j hi hcheck ⟨-, -, hpixCap, -⟩ hbusy hcancel hagenda hlen hsrc hpalLen hpalLe hpal hsrcFits
    hpixFits hj href
  have hstaged : Staged s p b pal := ⟨hlen, hsrc, fun _ => ⟨hpalLen, hpalLe, hpal⟩, hsrcFits, hpixFits⟩
  obtain ⟨t, hexec, ht, hti, hpending, hctrl⟩ := hstaged.exec_encode hi hbusy
  have hgroups : j < groupCount s.cfg.lenMode p b.length := by rwa [groupCount_of_hasCheckpoint hcheck]
  obtain ⟨u, hu, hrun⟩ :=
    run_encode_cancelled ht hti (hpending.trans hagenda) hcheck (hctrl ▸ hcancel) hgroups href
  have hcount : out.length = j * pixelsPerGroup p := refGroups_length href
  have hlt : out.length < 2 ^ 64 :=
    calc out.length = j * pixelsPerGroup p := hcount
      _ ≤ pixelTotal s.cfg.lenMode p b.length := Nat.mul_le_mul_right _ hgroups.le
      _ ≤ s.cfg.pixCap := hpixFits
      _ < 2 ^ 64 := hpixCap
  exact ⟨t, _, hexec, hrun, rfl, rfl, rfl, hu.noError, (hu.pixCount_complete hlt _).trans hcount, hu.pix⟩

end Sys2Proof.Machine
end

section
/-! SUPPORT. The raster size and SIZE (41_size.md R130 to R133): the size of a count as its integer root and the rounded-up
quotient of the remainder, the three heights this leaves, and the two endings of the command. -/

namespace Sys2Proof.Machine

variable {n r w : Nat} {s : State}

/-! ### The size function -/

theorem isqrt_eq_sqrt (n : Nat) : isqrt n = Nat.sqrt n := Nat.eq_sqrt.2 (isqrt_spec n)

/-- The bounds of R8 determine the integer root. -/
theorem isqrt_eq (hlo : w * w ≤ n) (hhi : n < (w + 1) * (w + 1)) : isqrt n = w :=
  (isqrt_eq_sqrt n).trans (Nat.eq_sqrt.2 ⟨hlo, hhi⟩).symm

/-- The root of a 64-bit count fits in 32 bits. -/
theorem isqrt_lt (hn : n < 2 ^ 64) : isqrt n < 2 ^ 32 := by
  rw [isqrt_eq_sqrt]
  exact Nat.sqrt_lt.2 hn

/-- The remainder above the largest square is at most twice its root. -/
theorem le_isqrt_add (n : Nat) : n ≤ isqrt n * isqrt n + isqrt n + isqrt n := by
  rw [isqrt_eq_sqrt]
  exact Nat.sqrt_le_add n

/-- Settles O25: the two bounds make `s` the root that the size function computes. -/
theorem rasterSizeFollowsTheAlgorithm : Obligations.RasterSizeFollowsTheAlgorithm := by
  intro n s _ hlo hhi
  rw [rasterSize, isqrt_eq hlo hhi]
  rfl

/-- A remainder of at most twice the width needs at most two rows. -/
theorem ceilDiv_cases (hw : 0 < w) (hr : r ≤ 2 * w) :
    (r = 0 ∧ ceilDiv r w = 0) ∨ (0 < r ∧ r ≤ w ∧ ceilDiv r w = 1) ∨ (w < r ∧ ceilDiv r w = 2) := by
  obtain hzero | ⟨hpos, hle⟩ | hgt : r = 0 ∨ (0 < r ∧ r ≤ w) ∨ w < r := by omega
  · exact .inl ⟨hzero, Nat.div_eq_of_lt (by omega)⟩
  · exact .inr (.inl ⟨hpos, hle, Nat.div_eq_of_lt_le (by omega) (by omega)⟩)
  · exact .inr (.inr ⟨hgt, Nat.div_eq_of_lt_le (by omega) (by omega)⟩)

/-- The size of a count by its remainder above the largest square: a square raster, or one or two rows more (R131). -/
theorem rasterSize_cases (hn : 1 ≤ n) :
    (n = isqrt n * isqrt n ∧ rasterSize n = (isqrt n, isqrt n)) ∨
      (isqrt n * isqrt n < n ∧ n ≤ isqrt n * isqrt n + isqrt n ∧ rasterSize n = (isqrt n, isqrt n + 1)) ∨
      (isqrt n * isqrt n + isqrt n < n ∧ rasterSize n = (isqrt n, isqrt n + 2)) := by
  obtain ⟨hlo, -⟩ := isqrt_spec n
  have hupper := le_isqrt_add n
  have hremainder : n - isqrt n * isqrt n ≤ 2 * isqrt n := by omega
  unfold rasterSize
  split
  · next hsquare => exact .inl ⟨hsquare.symm, rfl⟩
  · next hsquare =>
    obtain ⟨hzero, -⟩ | ⟨-, hle, hceil⟩ | ⟨hgt, hceil⟩ := ceilDiv_cases (isqrt_pos hn) hremainder
    · omega
    · exact .inr (.inl ⟨by omega, by omega, by rw [hceil]⟩)
    · exact .inr (.inr ⟨by omega, by rw [hceil]⟩)

/-- Settles O26: in each of the three heights the laws are linear in the width and its square. -/
theorem rasterSizeLaws : Obligations.RasterSizeLaws := by
  intro n w h hn hsize
  obtain ⟨hlo, hhi⟩ := isqrt_spec n
  have hpos : 1 ≤ isqrt n := isqrt_pos hn
  have hupper := le_isqrt_add n
  have hbound : n < 2 ^ 64 → isqrt n < 2 ^ 32 := isqrt_lt
  obtain ⟨hsquare, heq⟩ | ⟨hgt, hle, heq⟩ | ⟨hgt, heq⟩ := rasterSize_cases hn <;>
    obtain ⟨rfl, rfl⟩ := Prod.mk.inj (heq.symm.trans hsize)
  · exact ⟨⟨hpos, hlo, hhi⟩, by omega, by omega, by omega, by omega⟩
  · have harea : isqrt n * (isqrt n + 1) = isqrt n * isqrt n + isqrt n := Nat.mul_succ _ _
    exact ⟨⟨hpos, hlo, hhi⟩, by omega, by omega, by omega, by omega⟩
  · have harea : isqrt n * (isqrt n + 2) = isqrt n * isqrt n + isqrt n * 2 := Nat.mul_add _ _ _
    exact ⟨⟨hpos, hlo, hhi⟩, by omega, by omega, by omega, by omega⟩

/-! ### The command -/

/-- An idle block accepts an engine command (R200). -/
theorem issueEngine_of_not_busy (hbusy : s.status.busy = false) (w : Word) (act : State → State) :
    s.issueEngine w act = act (s.accept w) := by
  obtain ⟨hbusy', -⟩ | ⟨-, h⟩ := issueEngine_cases s w act
  · rw [hbusy] at hbusy'; cases hbusy'
  · exact h

theorem exec_size_of_not_busy (hbusy : s.status.busy = false) :
    exec .size s = .next (acceptSize (s.accept (encode .size))) :=
  congrArg _ (issueEngine_of_not_busy hbusy _ _)

/-- Settles O23: the accepted command has the count still, and completes normally. -/
theorem sizeWritesWidthAndHeight : Obligations.SizeWritesWidthAndHeight := by
  intro s hbusy hcount
  obtain ⟨hzero, -⟩ | ⟨-, haccept⟩ := acceptSize_cases (s.accept (encode .size))
  · exact absurd hzero hcount
  · rw [exec_size_of_not_busy hbusy, haccept]
    rfl

/-- Settles O24: the accepted command has the count still, and raises ZeroPixelCount. -/
theorem sizeOfZeroEndsWithErrorFive : Obligations.SizeOfZeroEndsWithErrorFive := by
  intro s hbusy hcount
  obtain ⟨-, haccept⟩ | ⟨hne, -⟩ := acceptSize_cases (s.accept (encode .size))
  · rw [exec_size_of_not_busy hbusy, haccept]
    rfl
  · exact absurd hcount hne

end Sys2Proof.Machine
end

section
/-! SUPPORT. The rows of a framebuffer (42_assemble.md R142 to R144, R147): the bytes of a run of cells, which give both the
reference framebuffer and the row that an engine step writes. -/

namespace Sys2Proof.Machine

variable {p : Nat → Pixel} {px : List Pixel} {s : State} {n k c t w h r : Nat}

/-! ### The bytes of a run of cells -/

/-- Settles O31: each byte is a quotient and a remainder of the assembled number. -/
theorem framebufferChannelOrder : Obligations.FramebufferChannelOrder := by
  intro a r g b
  have := r.isLt
  have := g.isLt
  have := b.isLt
  simp only [bgra, List.cons.injEq, and_true]
  refine ⟨?_, ?_, ?_, ?_⟩ <;> apply BitVec.eq_of_toNat_eq <;>
    rw [BitVec.extractLsb'_toNat, argb_toNat, Nat.shiftRight_eq_div_pow] <;> omega

/-- The framebuffer bytes of the cells `0 .. n-1` that hold the pixels `p` (R143). -/
def cellBytes (p : Nat → Pixel) (n : Nat) : List Byte := (List.range n).flatMap fun k => bgra (p k)

/-- The reference framebuffer is one run of cells, a padding cell holding 0 (R144, R147). -/
theorem refAssemble_eq_cellBytes (px : List Pixel) (w h : Nat) :
    refAssemble px w h = cellBytes (fun k => px.getD k 0) (w * h) := rfl

theorem cellBytes_eq_flatMap (p : Nat → Pixel) (n : Nat) : cellBytes p n = ((List.range n).map p).flatMap bgra :=
  (List.flatMap_map _ _ _).symm

theorem cellBytes_length (p : Nat → Pixel) (n : Nat) : (cellBytes p n).length = 4 * n := by
  rw [cellBytes_eq_flatMap, flatMap_bgra_length, List.length_map, List.length_range]

/-- Byte `t` of cell `k` (R147). -/
theorem cellBytes_get (hk : k < n) (ht : t < 4) : (cellBytes p n)[4 * k + t]? = (bgra (p k))[t]? := by
  rw [cellBytes_eq_flatMap, flatMap_bgra_get _ _ _ ht, List.getElem?_map, List.getElem?_range hk]
  rfl

/-- Row `r` of the reference framebuffer is the run of its own `w` cells (R147). -/
theorem refAssemble_row {d : Nat} (hr : r < h) (hd : d < 4 * w) :
    (refAssemble px w h)[4 * w * r + d]? = (cellBytes (fun col => px.getD (r * w + col) 0) w)[d]? := by
  obtain ⟨c, t, hc, ht, rfl⟩ : ∃ c t, c < w ∧ t < 4 ∧ d = 4 * c + t :=
    ⟨d / 4, d % 4, by omega, by omega, by omega⟩
  have hcell : r * w + c < w * h :=
    calc r * w + c < r * w + w := Nat.add_lt_add_left hc _
      _ = (r + 1) * w := (Nat.succ_mul r w).symm
      _ ≤ h * w := Nat.mul_le_mul_right w hr
      _ = w * h := Nat.mul_comm h w
  have hindex : 4 * w * r + (4 * c + t) = 4 * (r * w + c) + t := by
    rw [Nat.mul_assoc, Nat.mul_comm w r, Nat.mul_add, Nat.add_assoc]
  rw [hindex, refAssemble_eq_cellBytes, cellBytes_get hcell ht, cellBytes_get hc ht]

/-! ### The row that a step reads -/

theorem cellPixel_of_read {v : Pixel} (hv : if k < s.eng.n.toNat then s.pix.read k = some v else v = 0) :
    cellPixel s k = .ok v := by
  unfold cellPixel
  split at hv
  · next hlt => rw [if_pos hlt, hv]
  · next hge => rw [if_neg hge, hv]

/-- A row whose cells have the pixels `p` delivers their bytes (R142, R143). -/
theorem rowBytes_of_cells
    (hcells : ∀ col, col < s.eng.w.toNat → cellPixel s (r * s.eng.w.toNat + col) = .ok (p col)) :
    rowBytes s r = .ok (cellBytes p s.eng.w.toNat) := by
  have hcollect : collect (cellPixel s) (List.range' (r * s.eng.w.toNat) s.eng.w.toNat) =
      .ok ((List.range s.eng.w.toNat).map p) := by
    rw [collect_eq_ok, List.range'_eq_map_range, List.forall₂_map_left_iff, List.forall₂_map_right_iff,
      List.forall₂_same]
    exact fun col hcol => hcells col (List.mem_range.1 hcol)
  rw [rowBytes, hcollect, cellBytes_eq_flatMap]
  rfl

end Sys2Proof.Machine
end

section
/-! SUPPORT. The acceptance of an ASSEMBLE (42_assemble.md R140, R141) and its engine step (R142, R145, R146): one equation
for each of their outcomes. -/

namespace Sys2Proof.Machine

variable {s : State}

/-! ### The command -/

theorem exec_assemble_of_not_busy (hbusy : s.status.busy = false) :
    exec .assemble s = .next (acceptAssemble (s.accept (encode .assemble))) :=
  congrArg _ (issueEngine_of_not_busy hbusy _ _)

theorem acceptAssemble_of_fits (hcount : s.pixCount.toNat ≤ s.cfg.pixCap)
    (hfits : 4 * s.width.toNat * s.height.toNat ≤ s.cfg.fbCap) : acceptAssemble s = s.startAssemble := by
  rw [acceptAssemble, if_neg (Nat.not_lt.2 hcount), if_neg (Nat.not_lt.2 hfits)]

/-- An ASSEMBLE within the capacities starts (R140). -/
theorem exec_assemble_of_fits (hbusy : s.status.busy = false) (hcount : s.pixCount.toNat ≤ s.cfg.pixCap)
    (hfits : 4 * s.width.toNat * s.height.toNat ≤ s.cfg.fbCap) :
    exec .assemble s = .next (s.accept (encode .assemble)).startAssemble := by
  rw [exec_assemble_of_not_busy hbusy, acceptAssemble_of_fits (s := s.accept _) hcount hfits]

/-- The start clears the frame and no other byte (R140). -/
theorem read_startAssemble_fb (s : State) (a : Nat) :
    s.startAssemble.fb.read a = if a < 4 * s.width.toNat * s.height.toNat then some 0 else s.fb.read a := by
  have hlength : s.height.toNat * (4 * s.width.toNat) = 4 * s.width.toNat * s.height.toNat := Nat.mul_comm _ _
  rw [State.startAssemble_fb, hlength, Memory.read_writeList, List.length_replicate, Nat.zero_add, Nat.sub_zero]
  by_cases ha : a < 4 * s.width.toNat * s.height.toNat
  · rw [if_pos ⟨Nat.zero_le a, ha⟩, if_pos ha, List.getElem?_replicate_of_lt ha]
  · rw [if_neg fun hc => ha hc.2, if_neg ha]

/-- Settles O27: the state is that of a started ASSEMBLE. -/
theorem assembleStartsWithClearedFrame : Obligations.AssembleStartsWithClearedFrame := by
  intro s hbusy hcount hfits
  refine ⟨(s.accept (encode .assemble)).startAssemble.fb, ?_, read_startAssemble_fb (s.accept (encode .assemble))⟩
  rw [exec_assemble_of_fits hbusy hcount hfits]
  rfl

/-- Settles O28: either operand contradicts a start, so the acceptance raises CapacityExceeded. -/
theorem assembleBeyondCapacityEndsWithErrorSeven : Obligations.AssembleBeyondCapacityEndsWithErrorSeven := by
  intro s hbusy hbeyond
  obtain hraise | ⟨hcount, hfits, -⟩ := acceptAssemble_cases (s.accept (encode .assemble))
  · rw [exec_assemble_of_not_busy hbusy, hraise]
    rfl
  · obtain h | h := hbeyond
    · exact absurd h (Nat.not_lt.2 hcount)
    · exact absurd h (Nat.not_lt.2 hfits)

/-! ### The engine step -/

theorem engineTurn_of_assembling (h : s.eng.phase = .assembling) : engineTurn s = stepAssemble s := by
  simp [engineTurn, h]

theorem stepAssemble_of_last (hr : s.eng.r = s.eng.h.toNat) : stepAssemble s = .next (s.complete .normal false) :=
  if_pos hr

theorem stepAssemble_of_cancelled (hr : s.eng.r ≠ s.eng.h.toNat) (hcancel : s.ctrl.cancel = true) :
    stepAssemble s = .next (s.complete .cancelled false) := by
  rw [stepAssemble, if_neg hr, if_pos hcancel]

/-- Before the last row, with no cancel seen, the pixels of the row's cells are stored (R142). -/
theorem stepAssemble_of_row {p : Nat → Pixel} (hr : s.eng.r ≠ s.eng.h.toNat) (hcancel : s.ctrl.cancel = false)
    (hcells : ∀ col, col < s.eng.w.toNat → cellPixel s (s.eng.r * s.eng.w.toNat + col) = .ok (p col)) :
    stepAssemble s = .next (s.storeRow (cellBytes p s.eng.w.toNat)) := by
  simp [stepAssemble, hr, hcancel, rowBytes_of_cells hcells]

/-- Settles O29: the step stores the bytes of the row's cells, and a block write is read back by
`Memory.read_writeList`. -/
theorem assembleStepStoresTheRow : Obligations.AssembleStepStoresTheRow := by
  intro s px hphase hr hcancel hstride hpx
  have hlength := cellBytes_length px s.eng.w.toNat
  refine ⟨s.fb.writeList (s.eng.r * s.eng.stride) (cellBytes px s.eng.w.toNat), ?_, fun col hcol => ?_,
    fun a ha => ?_⟩
  · rw [engineTurn_of_assembling hphase, stepAssemble_of_row hr hcancel fun col hcol => cellPixel_of_read (hpx col hcol)]
    rfl
  · have hbyte : ∀ t < 4, (s.fb.writeList (s.eng.r * s.eng.stride) (cellBytes px s.eng.w.toNat)).read
        (s.eng.r * s.eng.stride + (4 * col + t)) = (bgra (px col))[t]? := fun t ht => by
      rw [Memory.read_writeList, if_pos (by omega), Nat.add_sub_cancel_left, cellBytes_get hcol ht]
    exact ⟨hbyte 0 (by decide), hbyte 1 (by decide), hbyte 2 (by decide), hbyte 3 (by decide)⟩
  · rw [Memory.read_writeList, if_neg (by omega)]

/-- Settles O30: the step completes, normally after the last row and cancelled at a checkpoint before it. -/
theorem assembleEndsNormallyOrAtACheckpoint : Obligations.AssembleEndsNormallyOrAtACheckpoint := by
  refine ⟨fun s hphase hr => ?_, fun s hphase hr hcancel => ?_⟩
  · exact (engineTurn_of_assembling hphase).trans (stepAssemble_of_last hr)
  · exact (engineTurn_of_assembling hphase).trans (stepAssemble_of_cancelled hr hcancel)

end Sys2Proof.Machine
end

section
/-! SUPPORT. Runs of an ASSEMBLE (42_assemble.md R145, R147): each engine turn makes one more row of the frame that of the
reference, whether the host is idle or gives the engine those turns. -/

namespace Sys2Proof.Machine

variable {px : List Pixel} {w h r : Nat} {old m : Memory 8} {s : State}

/-! ### The frame after some rows -/

/-- FB after the first `r` of the `h` rows: these are the reference's, the rows below are 0, and beyond the frame the
bytes are those of `old`, FB before the command (R140, R147). -/
structure FrameRows (px : List Pixel) (w h : Nat) (old : Memory 8) (r : Nat) (m : Memory 8) : Prop where
  done : ∀ a, a < 4 * w * r → m.read a = (refAssemble px w h)[a]?
  zero : ∀ a, 4 * w * r ≤ a → a < 4 * w * h → m.read a = some 0
  beyond : ∀ a, 4 * w * h ≤ a → m.read a = old.read a

/-- Writing the next row (R142). -/
theorem FrameRows.writeRow (hm : FrameRows px w h old r m) (hr : r < h) :
    FrameRows px w h old (r + 1)
      (m.writeList (4 * w * r) (cellBytes (fun col => px.getD (r * w + col) 0) w)) := by
  have hlength := cellBytes_length (fun col => px.getD (r * w + col) 0) w
  have hnext : 4 * w * (r + 1) = 4 * w * r + 4 * w := Nat.mul_succ _ _
  have hle : 4 * w * (r + 1) ≤ 4 * w * h := Nat.mul_le_mul_left _ hr
  refine ⟨fun a ha => ?_, fun a ha hframe => ?_, fun a ha => ?_⟩ <;> rw [Memory.read_writeList, hlength]
  · by_cases hlt : a < 4 * w * r
    · rw [if_neg (by omega), hm.done a hlt]
    · obtain ⟨d, rfl⟩ : ∃ d, a = 4 * w * r + d := Nat.exists_eq_add_of_le (Nat.not_lt.1 hlt)
      have hd : d < 4 * w := by omega
      rw [if_pos (by omega), Nat.add_sub_cancel_left, refAssemble_row hr hd]
  · rw [if_neg (by omega), hm.zero a (by omega) hframe]
  · rw [if_neg (by omega), hm.beyond a ha]

/-! ### A running ASSEMBLE -/

/-- A running ASSEMBLE of the pixels `px` that has written the rows before `eng.r`. -/
structure Assembled (px : List Pixel) (w h : Nat) (old : Memory 8) (s : State) : Prop where
  phase : s.eng.phase = .assembling
  count : s.eng.n.toNat = px.length
  width : s.eng.w.toNat = w
  height : s.eng.h.toNat = h
  stride : s.eng.stride = 4 * w
  pix : ∀ k, k < px.length → s.pix.read k = px[k]?
  frame : FrameRows px w h old s.eng.r s.fb
  notCancelled : s.status.cancelled = false
  noError : s.status.err = 0

theorem Assembled.withAgenda (hs : Assembled px w h old s) (a : List Event) :
    Assembled px w h old { s with agenda := a } :=
  { hs with }

/-- Cell `k` holds pixel `k`, or 0 beyond the last (R144). -/
theorem Assembled.cellPixel_eq (hs : Assembled px w h old s) (k : Nat) : cellPixel s k = .ok (px.getD k 0) := by
  apply cellPixel_of_read
  rw [hs.count, List.getD_eq_getElem?_getD]
  split
  · next hk => rw [hs.pix k hk, List.getElem?_eq_getElem hk]; rfl
  · next hk => rw [List.getElem?_eq_none (Nat.not_lt.1 hk)]; rfl

/-- The engine's turn before the last row, with no cancel seen, writes one more row (R142). -/
theorem Assembled.engineTurn_row (hs : Assembled px w h old s) (hr : s.eng.r < h) (hcancel : s.ctrl.cancel = false) :
    ∃ t, engineTurn s = .next t ∧ Assembled px w h old t ∧ t.eng.r = s.eng.r + 1 ∧ t.agenda = s.agenda ∧
      t.ctrl = s.ctrl := by
  have hnotLast : s.eng.r ≠ s.eng.h.toNat := hs.height ▸ Nat.ne_of_lt hr
  have hrow := hs.frame.writeRow hr
  rw [Nat.mul_comm (4 * w), ← hs.stride, ← hs.width] at hrow
  refine ⟨_, (engineTurn_of_assembling hs.phase).trans
    (stepAssemble_of_row hnotLast hcancel fun col _ => hs.cellPixel_eq _), ?_, rfl, rfl, rfl⟩
  exact { hs with frame := hs.width ▸ hrow }

/-- `n` engine turns before the end, with no cancel seen, write `n` rows (R147). -/
theorem run_rows {rest : List Event} {n : Nat} (hs : Assembled px w h old s) (hmoves : EngineMoves n rest s)
    (hcancel : s.ctrl.cancel = false) (hn : s.eng.r + n ≤ h) :
    ∃ t, run n s = .next t ∧ Assembled px w h old t ∧ t.eng.r = s.eng.r + n ∧ t.agenda = rest := by
  induction n generalizing s with
  | zero => exact ⟨s, rfl, hs, rfl, hmoves.agenda⟩
  | succ n ih =>
    obtain ⟨a, hstep, hmoves'⟩ := step_engineMoves hmoves
    obtain ⟨u, hturn, hu, hur, hagenda, hctrl⟩ := (hs.withAgenda a).engineTurn_row (by simp only; omega) hcancel
    have hr : u.eng.r + n = s.eng.r + (n + 1) := by rw [hur]; simp only; omega
    have humoves : EngineMoves n rest u := by rwa [EngineMoves, hagenda]
    obtain ⟨t, hrun, ht, htr, hrest⟩ := ih hu humoves (hctrl ▸ hcancel) (hr ▸ hn)
    refine ⟨t, ?_, ht, htr.trans hr, hrest⟩
    rw [run, hstep, hturn]
    exact hrun

/-- With the host idle and no cancel set the run ends normally after its last row (R146). -/
theorem run_assemble (hs : Assembled px w h old s) (hr : s.eng.r = 0) (hagenda : s.agenda = [])
    (hcancel : s.ctrl.cancel = false) :
    ∃ t, Assembled px w h old t ∧ t.eng.r = h ∧ run (h + 1) s = .next (t.complete .normal false) := by
  obtain ⟨t, hrun, ht, htr, hidle⟩ := run_rows (n := h) hs (.inr ⟨hagenda, rfl⟩) hcancel (by omega)
  rw [hr, Nat.zero_add] at htr
  refine ⟨t, ht, htr, ?_⟩
  rw [run_add, hrun]
  calc run 1 t = engineTurn t := (run_one t).trans (step_idleHost hidle)
    _ = stepAssemble t := engineTurn_of_assembling ht.phase
    _ = .next (t.complete .normal false) := stepAssemble_of_last (htr.trans ht.height.symm)

/-- The host's write of CANCEL and then the engine's turn (R29, R65). -/
theorem run_cancel_engine (h : s.agenda = [.writeReg 2 1, .engine]) :
    run 2 s = engineTurn { s with agenda := [], ctrl := { cancel := true } } := by
  have hwrite : step s = .next { s with agenda := [.engine], ctrl := { cancel := true } } := step_pending h
  rw [run, hwrite]
  exact run_one { s with agenda := [.engine], ctrl := { cancel := true } }

/-- CANCEL set by the host after `j` rows ends the run at the next checkpoint (R145). -/
theorem run_assemble_cancelled {j : Nat} (hs : Assembled px w h old s) (hr : s.eng.r = 0)
    (hagenda : s.agenda = List.replicate j .engine ++ [.writeReg 2 1, .engine]) (hcancel : s.ctrl.cancel = false)
    (hj : j < h) :
    ∃ t, Assembled px w h old t ∧ t.eng.r = j ∧ run (j + 2) s = .next (t.complete .cancelled false) := by
  obtain ⟨t, hrun, ht, htr, hpending⟩ := run_rows (n := j) hs (.inl hagenda) hcancel (by omega)
  rw [hr, Nat.zero_add] at htr
  have hcancelled : Assembled px w h old { t with agenda := [], ctrl := { cancel := true } } := { ht with }
  have hnotLast : t.eng.r ≠ t.eng.h.toNat := by
    rw [htr, ht.height]
    exact Nat.ne_of_lt hj
  refine ⟨_, hcancelled, htr, ?_⟩
  rw [run_add, hrun]
  calc run 2 t = engineTurn { t with agenda := [], ctrl := { cancel := true } } := run_cancel_engine hpending
    _ = stepAssemble { t with agenda := [], ctrl := { cancel := true } } := engineTurn_of_assembling ht.phase
    _ = _ := stepAssemble_of_cancelled hnotLast rfl

/-! ### From the command to the end -/

/-- An ASSEMBLE of written pixels starts with no row written and the frame cleared (R140). -/
theorem exec_assemble_assembled (hbusy : s.status.busy = false) (hlen : s.pixCount.toNat = px.length)
    (hpix : ∀ k, k < px.length → s.pix.read k = px[k]?) (hcount : px.length ≤ s.cfg.pixCap)
    (hfits : 4 * s.width.toNat * s.height.toNat ≤ s.cfg.fbCap) :
    ∃ t, exec .assemble s = .next t ∧ Assembled px s.width.toNat s.height.toNat s.fb t ∧ t.eng.r = 0 ∧
      t.agenda = s.agenda ∧ t.ctrl = s.ctrl := by
  refine ⟨_, exec_assemble_of_fits hbusy (hlen ▸ hcount) hfits, ?_, rfl, rfl, rfl⟩
  have hread := read_startAssemble_fb (s.accept (encode .assemble))
  exact
    { phase := rfl, count := hlen, width := rfl, height := rfl, stride := rfl, pix := hpix
      frame :=
        { done := fun a ha => absurd ha (Nat.not_lt_zero a)
          zero := fun a _ ha => (hread a).trans (if_pos ha)
          beyond := fun a ha => (hread a).trans (if_neg (Nat.not_lt.2 ha)) }
      notCancelled := rfl
      noError := rfl }

/-- Settles O32: the started ASSEMBLE has written no row yet, and the run writes all of them. -/
theorem assembleRunMeetsTheReference : Obligations.AssembleRunMeetsTheReference := by
  intro s px hbusy hagenda hcancel hlen hpix hcount hfits
  obtain ⟨t, hexec, ht, htr, hidle, hctrl⟩ := exec_assemble_assembled hbusy hlen hpix hcount hfits
  obtain ⟨u, hu, hur, hrun⟩ := run_assemble ht htr (hidle.trans hagenda) (hctrl ▸ hcancel)
  have hframe : FrameRows px s.width.toNat s.height.toNat s.fb s.height.toNat u.fb := hur ▸ hu.frame
  exact ⟨t, _, hexec, hrun, rfl, rfl, hu.notCancelled, hu.noError, hframe.done, hframe.beyond⟩

/-- Settles O33: the started ASSEMBLE has written no row yet, `j` turns write the first `j`, and the checkpoint ends it
there. -/
theorem cancelledAssembleLeavesZeroRows : Obligations.CancelledAssembleLeavesZeroRows := by
  intro s px j hbusy hcancel hagenda hlen hpix hcount hfits hj
  obtain ⟨t, hexec, ht, htr, hpending, hctrl⟩ := exec_assemble_assembled hbusy hlen hpix hcount hfits
  obtain ⟨u, hu, hur, hrun⟩ := run_assemble_cancelled ht htr (hpending.trans hagenda) (hctrl ▸ hcancel) hj
  have hframe : FrameRows px s.width.toNat s.height.toNat s.fb j u.fb := hur ▸ hu.frame
  exact ⟨t, _, hexec, hrun, rfl, rfl, rfl, hu.noError, hframe.done, hframe.zero⟩

end Sys2Proof.Machine
end

section
/-! SUPPORT. MAP (43_map.md R160 to R173): its address formulas by the index `k = y*W + x` of the cell, and one equation for
each outcome of its write. -/

namespace Sys2Proof.Machine

variable {i : Instr} {sch : Scheme} {s : State} {bpp m off : Nat} {bi : Int}

/-! ### The address of a cell -/

/-- The cell `(x, y)` of a raster of width `W` starts `bpp * k` bits into the stream, `k = y*W + x` (R161). -/
theorem mapBits_eq (W x y bpp : Nat) :
    mapBits W x y bpp = (bpp * (y * W + x) / 8, ((bpp * (y * W + x) % 8 : Nat) : Int)) := by
  have hstart : W * bpp * y + x * bpp = bpp * (y * W + x) := by ring
  rw [mapBits, hstart]

/-- With `m` bytes per pixel the cell starts `m * k` bytes into the stream (R162). -/
theorem mapBytes_eq (W x y m : Nat) : mapBytes W x y (m * 8) = (m * (y * W + x), -1) := by
  have hstart : W * m * y + x * m = m * (y * W + x) := by ring
  rw [mapBytes, Nat.mul_div_cancel m (by decide), hstart]

/-- Eight cells to the byte (R163). -/
theorem sourceAddress_oneBpp (W x y : Nat) :
    sourceAddress .oneBpp W x y = some ((y * W + x) / 8, (((y * W + x) % 8 : Nat) : Int)) := by
  rw [sourceAddress, mapBits_eq, Nat.one_mul]

/-- Four cells to the byte (R164). -/
theorem sourceAddress_twoBpp (W x y : Nat) :
    sourceAddress .twoBpp W x y = some ((y * W + x) / 4, ((2 * ((y * W + x) % 4) : Nat) : Int)) := by
  have hoff : 2 * (y * W + x) / 8 = (y * W + x) / 4 := Nat.mul_div_mul_left _ 4 (by decide)
  have hbit : 2 * (y * W + x) % 8 = 2 * ((y * W + x) % 4) := Nat.mul_mod_mul_left 2 _ 4
  rw [sourceAddress, mapBits_eq, hoff, hbit]

/-- Two cells to the byte (R165). -/
theorem sourceAddress_fourBpp (W x y : Nat) :
    sourceAddress .fourBpp W x y = some ((y * W + x) / 2, ((4 * ((y * W + x) % 2) : Nat) : Int)) := by
  have hoff : 4 * (y * W + x) / 8 = (y * W + x) / 2 := Nat.mul_div_mul_left _ 2 (by decide)
  have hbit : 4 * (y * W + x) % 8 = 4 * ((y * W + x) % 2) := Nat.mul_mod_mul_left 4 _ 2
  rw [sourceAddress, mapBits_eq, hoff, hbit]

theorem sourceAddress_eightBpp (W x y : Nat) : sourceAddress .eightBpp W x y = some (1 * (y * W + x), -1) :=
  congrArg some (mapBytes_eq W x y 1)

theorem sourceAddress_sixteenBpp (W x y : Nat) : sourceAddress .sixteenBpp W x y = some (2 * (y * W + x), -1) :=
  congrArg some (mapBytes_eq W x y 2)

theorem sourceAddress_twentyFourBpp (W x y : Nat) : sourceAddress .twentyFourBpp W x y = some (3 * (y * W + x), -1) :=
  congrArg some (mapBytes_eq W x y 3)

theorem sourceAddress_thirtyTwoBpp (W x y : Nat) : sourceAddress .thirtyTwoBpp W x y = some (4 * (y * W + x), -1) :=
  congrArg some (mapBytes_eq W x y 4)

/-- A cell of a raster with 32-bit dimensions has a 64-bit index. -/
theorem cellIndex_lt {W H x y : BitVec 32} (hx : x.toNat < W.toNat) (hy : y.toNat < H.toNat) :
    y.toNat * W.toNat + x.toNat < 2 ^ 64 :=
  calc y.toNat * W.toNat + x.toNat < y.toNat * W.toNat + W.toNat := Nat.add_lt_add_left hx _
    _ = (y.toNat + 1) * W.toNat := (Nat.succ_mul _ _).symm
    _ ≤ 2 ^ 32 * 2 ^ 32 := Nat.mul_le_mul (hy.trans_le H.isLt.le) W.isLt.le
    _ = 2 ^ 64 := by norm_num

/-- Settles O39: the address of a pixel's cell is that of the byte and the bit in the closed form of its color index; at
4 bpp the high nibble, bit 4 up, is the even pixel's, whose bit index is 0. -/
theorem mapInvertsThePackingUpToFourBpp : Obligations.MapInvertsThePackingUpToFourBpp := by
  intro b W k _
  have hk : k / W * W + k % W = k := Nat.div_add_mod' k W
  rw [sourceAddress_oneBpp, sourceAddress_twoBpp, sourceAddress_fourBpp, sourceAddress_eightBpp,
    sourceAddress_sixteenBpp, sourceAddress_thirtyTwoBpp, hk]
  refine ⟨⟨_, _, rfl, rfl⟩, ⟨_, _, rfl, rfl⟩, ⟨_, _, rfl, by omega, ?_⟩, ⟨_, rfl, ?_⟩, ⟨_, rfl, rfl⟩,
    ⟨_, rfl, fun _ => rfl⟩⟩
  · have hbyte := refByte_lt b (k / 2)
    obtain heven | hodd : k % 2 = 0 ∨ k % 2 = 1 := by omega
    · simp only [refIndex, heven, ↓reduceIte]
      omega
    · simp [refIndex, hodd]
  · rw [Nat.one_mul]
    rfl

/-! ### The outcomes of a MAP -/

/-- The codes 8 to 15 name no scheme (R73). -/
theorem schemeOfCode_of_high : ∀ sch : BitVec 4, highSchemeCode sch → schemeOfCode sch = .invalid := by
  decide

/-- A MAP command runs the scheme of its code (R73, R160). -/
theorem exec_of_map (hop : i.opcode = 4) (hwf : i.wellFormed) (s : State) :
    exec i s = .next (acceptMap (schemeOfCode i.schemeCode) (s.acceptMapper (encode i))) := by
  cases i with
  | map1bpp | map2bpp | map4bpp | map8bpp | map16bpp | map24bpp | map32bpp | mapInvalid => rfl
  | mapInvalidSch sch =>
    rw [Instr.schemeCode, schemeOfCode_of_high sch hwf]
    rfl
  | _ => simp [Instr.opcode] at hop

/-- A MAP of a byte-addressed scheme (R166 to R169). -/
theorem map_of_bytesPerPixel (hi : mapBytesPerPixel i = some m) :
    i.opcode = 4 ∧ i.wellFormed ∧
      ∀ W x y, sourceAddress (schemeOfCode i.schemeCode) W x y = some (m * (y * W + x), -1) := by
  cases i <;> cases hi
  case map8bpp => exact ⟨rfl, rfl, sourceAddress_eightBpp⟩
  case map16bpp => exact ⟨rfl, rfl, sourceAddress_sixteenBpp⟩
  case map24bpp => exact ⟨rfl, rfl, sourceAddress_twentyFourBpp⟩
  case map32bpp => exact ⟨rfl, rfl, sourceAddress_thirtyTwoBpp⟩

/-- A MAP of a bit-addressed scheme (R163 to R165). -/
theorem map_of_bitsPerPixel (hi : mapBitsPerPixel i = some bpp) :
    i.opcode = 4 ∧ i.wellFormed ∧
      ∀ W x y, sourceAddress (schemeOfCode i.schemeCode) W x y = some (mapBits W x y bpp) := by
  cases i <;> cases hi
  case map1bpp | map2bpp | map4bpp => exact ⟨rfl, rfl, fun _ _ _ => rfl⟩

/-- Acceptance of a MAP word stores the word, its opcode and a cleared ERR (R200). -/
theorem acceptMapper_of_map (hop : i.opcode = 4) (s : State) :
    s.acceptMapper (encode i) = { s with mcmd := encode i, mstatus := { err := 0, lastOp := 4 } } := by
  rw [← hop, ← opField_encode]
  rfl

theorem acceptMap_of_invalid (s : State) : acceptMap .invalid s = s.mraise .invalidScheme := rfl

theorem acceptMap_of_outside (haddress : sourceAddress sch s.mapW.toNat s.mapX.toNat s.mapY.toNat = some (off, bi))
    (h : s.mapW.toNat ≤ s.mapX.toNat ∨ s.mapH.toNat ≤ s.mapY.toNat) :
    acceptMap sch s = s.mraise .coordOutOfRange := by
  have hnot : ¬(s.mapX.toNat < s.mapW.toNat ∧ s.mapY.toNat < s.mapH.toNat) := by omega
  simp only [acceptMap, haddress, if_pos hnot]

theorem acceptMap_of_overflow (haddress : sourceAddress sch s.mapW.toNat s.mapX.toNat s.mapY.toNat = some (off, bi))
    (hx : s.mapX.toNat < s.mapW.toNat) (hy : s.mapY.toNat < s.mapH.toNat) (hoff : 2 ^ 64 ≤ off) :
    acceptMap sch s = s.mraise .addressOverflow := by
  simp only [acceptMap, haddress, if_neg (not_not.2 (And.intro hx hy)), if_pos hoff]

theorem acceptMap_of_fits (haddress : sourceAddress sch s.mapW.toNat s.mapX.toNat s.mapY.toNat = some (off, bi))
    (hx : s.mapX.toNat < s.mapW.toNat) (hy : s.mapY.toNat < s.mapH.toNat) (hoff : off < 2 ^ 64) :
    acceptMap sch s = { s with mapOffset := BitVec.ofNat 64 off, mapBit := BitVec.ofInt 32 bi } := by
  simp only [acceptMap, haddress, if_neg (not_not.2 (And.intro hx hy)), if_neg (Nat.not_le.2 hoff)]

/-- A MAP in range whose offset fits writes the address (R160). -/
theorem exec_map_of_fits (hop : i.opcode = 4) (hwf : i.wellFormed)
    (haddress : sourceAddress (schemeOfCode i.schemeCode) s.mapW.toNat s.mapX.toNat s.mapY.toNat = some (off, bi))
    (hx : s.mapX.toNat < s.mapW.toNat) (hy : s.mapY.toNat < s.mapH.toNat) (hoff : off < 2 ^ 64) :
    exec i s = .next { s with
      mcmd := encode i, mstatus := { err := 0, lastOp := 4 }
      mapOffset := BitVec.ofNat 64 off, mapBit := BitVec.ofInt 32 bi } := by
  rw [exec_of_map hop hwf, acceptMap_of_fits (s := s.acceptMapper _) haddress hx hy hoff, acceptMapper_of_map hop]

/-- The same for a bit index, a natural number, which is its own two's complement (R160, R161). -/
theorem exec_map_of_fits_bit {bit : Nat} (hop : i.opcode = 4) (hwf : i.wellFormed)
    (haddress : sourceAddress (schemeOfCode i.schemeCode) s.mapW.toNat s.mapX.toNat s.mapY.toNat =
      some (off, (bit : Int)))
    (hx : s.mapX.toNat < s.mapW.toNat) (hy : s.mapY.toNat < s.mapH.toNat) (hoff : off < 2 ^ 64) :
    exec i s = .next { s with
      mcmd := encode i, mstatus := { err := 0, lastOp := 4 }
      mapOffset := BitVec.ofNat 64 off, mapBit := BitVec.ofNat 32 bit } := by
  rw [exec_map_of_fits hop hwf haddress hx hy hoff, BitVec.ofInt_natCast]

/-- Settles O34: the offset is at most the index of the cell, which has 64 bits. -/
theorem bitAddressedMapsWriteOffsetAndBit : Obligations.BitAddressedMapsWriteOffsetAndBit := by
  rintro s _ hx hy rfl
  have hcell := cellIndex_lt hx hy
  refine ⟨?_, ?_, ?_, hcell⟩
  · exact exec_map_of_fits_bit (i := .map1bpp) rfl rfl (sourceAddress_oneBpp _ _ _) hx hy (by omega)
  · exact exec_map_of_fits_bit (i := .map2bpp) rfl rfl (sourceAddress_twoBpp _ _ _) hx hy (by omega)
  · exact exec_map_of_fits_bit (i := .map4bpp) rfl rfl (sourceAddress_fourBpp _ _ _) hx hy (by omega)

/-- Settles O35: with one byte per pixel the offset is the index of the cell, which has 64 bits. -/
theorem byteAddressedMapsWriteOffset : Obligations.ByteAddressedMapsWriteOffset := by
  rintro i m s _ hi hx hy rfl hfits
  obtain ⟨hop, hwf, haddress⟩ := map_of_bytesPerPixel hi
  have hoff : m * (s.mapY.toNat * s.mapW.toNat + s.mapX.toNat) < 2 ^ 64 := by
    obtain rfl | h := hfits
    · rw [Nat.one_mul]
      exact cellIndex_lt hx hy
    · exact h
  exact ⟨exec_map_of_fits hop hwf (haddress _ _ _) hx hy hoff, hoff⟩

/-- Settles O36: the check of the offset comes after the passed check of the coordinates. -/
theorem overflowingMapEndsWithErrorEight : Obligations.OverflowingMapEndsWithErrorEight := by
  intro i m s hi hx hy hoff
  obtain ⟨hop, hwf, haddress⟩ := map_of_bytesPerPixel hi
  rw [exec_of_map hop hwf, acceptMap_of_overflow (s := s.acceptMapper _) (haddress _ _ _) hx hy hoff,
    acceptMapper_of_map hop]
  rfl

/-- A MAP of a scheme with an address formula (R160). -/
theorem map_of_hasFormula (hi : mapBytesPerPixel i ≠ none ∨ mapBitsPerPixel i ≠ none) :
    i.opcode = 4 ∧ i.wellFormed ∧
      ∀ W x y, ∃ off bi, sourceAddress (schemeOfCode i.schemeCode) W x y = some (off, bi) := by
  obtain h | h := hi <;> obtain ⟨n, hn⟩ := Option.ne_none_iff_exists'.1 h
  · obtain ⟨hop, hwf, haddress⟩ := map_of_bytesPerPixel hn
    exact ⟨hop, hwf, fun W x y => ⟨_, _, haddress W x y⟩⟩
  · obtain ⟨hop, hwf, haddress⟩ := map_of_bitsPerPixel hn
    exact ⟨hop, hwf, fun W x y => ⟨_, _, haddress W x y⟩⟩

/-- Settles O37: every scheme but Invalid has an address formula, and the check of the coordinates comes first. -/
theorem outOfRangeMapEndsWithErrorSix : Obligations.OutOfRangeMapEndsWithErrorSix := by
  intro i s hi houtside
  obtain ⟨hop, hwf, haddress⟩ := map_of_hasFormula hi
  obtain ⟨off, bi, haddress⟩ := haddress s.mapW.toNat s.mapX.toNat s.mapY.toNat
  rw [exec_of_map hop hwf, acceptMap_of_outside (s := s.acceptMapper _) haddress houtside, acceptMapper_of_map hop]
  rfl

/-- The two rows of MAP.INVALID (R73, R170). -/
theorem map_of_invalid (hi : i = .mapInvalid ∨ ∃ sch : BitVec 4, 8 ≤ sch.toNat ∧ i = .mapInvalidSch sch) :
    i.opcode = 4 ∧ i.wellFormed ∧ schemeOfCode i.schemeCode = .invalid := by
  obtain rfl | ⟨sch, hhigh, rfl⟩ := hi
  · exact ⟨rfl, rfl, rfl⟩
  · have hwf : highSchemeCode sch := decide_eq_true hhigh
    exact ⟨rfl, hwf, schemeOfCode_of_high sch hwf⟩

/-- Settles O38: both rows run the scheme Invalid, which has no address formula. -/
theorem invalidMapEndsWithErrorOne : Obligations.InvalidMapEndsWithErrorOne := by
  intro i s hi
  obtain ⟨hop, hwf, hinvalid⟩ := map_of_invalid hi
  rw [exec_of_map hop hwf, hinvalid, acceptMap_of_invalid, acceptMapper_of_map hop]
  rfl

end Sys2Proof.Machine
end

section
/-! SUPPORT. The numerals of FORMAT (43_map.md R181, R182) by Mathlib's `Nat.digits`, and the text that FORMAT writes
(R180, R183). -/

namespace Sys2Proof.Machine

variable {base fuel n : Nat} {ds : List Nat}

/-! ### Numerals -/

/-- `ds` is the numeral of `n` in base `base`, the most significant digit first, with no leading zero but in the numeral
`0` itself. -/
structure IsNumeral (base n : Nat) (ds : List Nat) : Prop where
  digit_lt : ∀ d ∈ ds, d < base
  value : ds.foldl (fun acc d => base * acc + d) 0 = n
  ne_nil : ds ≠ []
  no_leading_zero : 1 < ds.length → ds.head? ≠ some 0

theorem isNumeral_zero (hbase : 0 < base) : IsNumeral base 0 [0] :=
  { digit_lt := by simpa using hbase, value := rfl, ne_nil := by simp, no_leading_zero := by simp }

/-- Mathlib's digits, which come with the least significant first, are a numeral when reversed. -/
theorem isNumeral_reverse_digits (hbase : 1 < base) (hn : n ≠ 0) : IsNumeral base n (Nat.digits base n).reverse where
  digit_lt d hd := Nat.digits_lt_base hbase (List.mem_reverse.1 hd)
  value := by
    rw [List.foldl_reverse]
    calc (Nat.digits base n).foldr (fun d acc => base * acc + d) 0
        = (Nat.digits base n).foldr (fun d acc => d + base * acc) 0 := by simp only [Nat.add_comm]
      _ = Nat.ofDigits base (Nat.digits base n) := (Nat.ofDigits_eq_foldr base _).symm
      _ = n := Nat.ofDigits_digits base n
  ne_nil := by simpa using Nat.digits_ne_nil_iff_ne_zero.2 hn
  no_leading_zero _ := by
    rw [List.head?_reverse, List.getLast?_eq_some_getLast (Nat.digits_ne_nil_iff_ne_zero.2 hn)]
    exact fun h => Nat.getLast_digit_ne_zero base hn (Option.some.inj h)

/-- With fuel for them, the model's digits of a positive number are Mathlib's, reversed. -/
theorem digits_eq_reverse_digits (hbase : 1 < base) (hn : n ≠ 0) (hfuel : n < base ^ fuel) :
    digits base fuel n = (Nat.digits base n).reverse := by
  induction fuel generalizing n with
  | zero => exact absurd (Nat.lt_one_iff.1 hfuel) hn
  | succ fuel ih =>
    rw [digits]
    split
    · next hlt => rw [Nat.digits_of_lt base n hn hlt, List.reverse_singleton]
    · next hge =>
      have hquot : n / base ≠ 0 := (Nat.div_pos (Nat.not_lt.1 hge) (by omega)).ne'
      have hquotlt : n / base < base ^ fuel := Nat.div_lt_of_lt_mul (Nat.pow_succ' ▸ hfuel)
      rw [ih hquot hquotlt, Nat.digits_def' hbase (Nat.pos_of_ne_zero hn), List.reverse_cons]

theorem isNumeral_digits (hbase : 1 < base) (hfuel : n < base ^ fuel) (hpos : 0 < fuel) :
    IsNumeral base n (digits base fuel n) := by
  by_cases hn : n = 0
  · subst hn
    obtain ⟨fuel, rfl⟩ := Nat.exists_eq_succ_of_ne_zero hpos.ne'
    rw [digits, if_pos (by omega)]
    exact isNumeral_zero (by omega)
  · rw [digits_eq_reverse_digits hbase hn hfuel]
    exact isNumeral_reverse_digits hbase hn

/-- Leading zeros do not change the value of a numeral. -/
theorem foldl_replicate_zero (base k : Nat) :
    (List.replicate k 0).foldl (fun acc d => base * acc + d) 0 = 0 := by
  induction k with
  | zero => rfl
  | succ k ih => simpa [List.replicate_succ] using ih

/-- Settles O41: the digits are the numeral of `v`, filled up with zeros to 8 digits. -/
theorem hexNumeralOfTheOffset : Obligations.HexNumeralOfTheOffset := by
  intro v
  have hnum : IsNumeral 16 v.toNat (digits 16 16 v.toNat) := isNumeral_digits (by decide) v.isLt (by decide)
  refine ⟨(digits 16 16 v.toNat).leftpad 8 0, ?_, fun d hd => ?_, ?_, ?_, fun hlen => ?_⟩
  · refine List.map_congr_left fun d _ => ?_
    unfold asciiDigit
    split
    · rfl
    · next hd => rw [Nat.add_sub_assoc (Nat.not_lt.1 hd)]
  · obtain hzero | hd := List.mem_append.1 hd
    · rw [List.eq_of_mem_replicate hzero]
      decide
    · exact hnum.digit_lt d hd
  · rw [List.leftpad, List.foldl_append, foldl_replicate_zero, hnum.value]
  · rw [List.length_leftpad]
    exact Nat.le_max_left _ _
  · rw [List.length_leftpad] at hlen
    have hlong : 8 < (digits 16 16 v.toNat).length := by omega
    rw [List.leftpad, Nat.sub_eq_zero_of_le hlong.le]
    exact hnum.no_leading_zero (by omega)

/-! ### The text -/

theorem asciiDigit_of_lt {d : Nat} (hd : d < 10) : asciiDigit d = BitVec.ofNat 8 (0x30 + d) := if_pos hd

theorem addressText_of_neg {bit : BitVec 32} (h : bit.toInt < 0) (off : BitVec 64) :
    addressText off bit = 0x30#8 :: 0x78#8 :: hexUpper off := by
  simp [addressText, h]

theorem addressText_of_nonneg {bit : BitVec 32} (h : 0 ≤ bit.toInt) (off : BitVec 64) :
    addressText off bit = 0x30#8 :: 0x78#8 :: (hexUpper off ++ 0x3A#8 :: decimal bit.toInt.toNat) := by
  simp [addressText, h]

/-- Settles O42: a non-negative bit index has at most 31 bits, so that ten digits are enough for its numeral. -/
theorem decimalSuffixOnlyWhenNonNegative : Obligations.DecimalSuffixOnlyWhenNonNegative := by
  intro off bit
  refine ⟨fun hneg => addressText_of_neg hneg off, fun hnonneg => ?_⟩
  have hbound : bit.toInt.toNat < 10 ^ 10 := by
    have := BitVec.toInt_lt (x := bit)
    omega
  have hnum : IsNumeral 10 bit.toInt.toNat (digits 10 10 bit.toInt.toNat) :=
    isNumeral_digits (by decide) hbound (by decide)
  refine ⟨digits 10 10 bit.toInt.toNat, ?_, hnum.digit_lt, ?_, hnum.ne_nil, hnum.no_leading_zero⟩
  · have hcodes : decimal bit.toInt.toNat = (digits 10 10 bit.toInt.toNat).map fun d => BitVec.ofNat 8 (0x30 + d) :=
      List.map_congr_left fun d hd => asciiDigit_of_lt (hnum.digit_lt d hd)
    rw [addressText_of_nonneg hnonneg, hcodes]
  · rw [hnum.value, Int.toNat_of_nonneg hnonneg]

/-! ### FORMAT -/

/-- STR after a text of at most 32 bytes is written: the text, then zeros, and beyond the capacity as before (R183). -/
theorem read_writeStr {s : State} {text : List Byte} (hlen : text.length ≤ 32) (a : Nat) :
    (s.writeStr text).str.read a = if a < 32 then some (text.getD a 0) else s.str.read a := by
  have htotal : (text ++ List.replicate (32 - text.length) 0).length = 32 := by
    rw [List.length_append, List.length_replicate]
    omega
  rw [State.writeStr_str, strCap, Memory.read_writeList, htotal, Nat.zero_add, Nat.sub_zero]
  by_cases ha : a < 32
  · rw [if_pos ⟨Nat.zero_le a, ha⟩, if_pos ha, List.getD_eq_getElem?_getD]
    by_cases htext : a < text.length
    · rw [List.getElem?_append_left htext, List.getElem?_eq_getElem htext, Option.getD_some]
    · have hge := Nat.not_lt.1 htext
      rw [List.getElem?_append_right hge, List.getElem?_replicate_of_lt (by omega), List.getElem?_eq_none hge,
        Option.getD_none]
  · rw [if_neg fun hc => ha hc.2, if_neg ha]

/-- Settles O40: STR is read back by `read_writeStr`, since the text is shorter than STR. -/
theorem formatWritesTheAddressText : Obligations.FormatWritesTheAddressText := by
  intro s
  have hlen := addressText_length_le s.mapOffset s.mapBit
  have hread := read_writeStr (s := s) (hlen.trans (by decide))
  exact ⟨(s.writeStr (addressText s.mapOffset s.mapBit)).str, rfl, hlen, fun a ha => (hread a).trans (if_pos ha),
    fun a ha => (hread a).trans (if_neg (Nat.not_lt.2 ha))⟩

end Sys2Proof.Machine
end

section
/-! SUPPORT. Reset (70_reset_and_hazards.md R230 to R233): the state it leaves, whatever the host's own fields. -/

namespace Sys2Proof.Machine

/-- The block as reset leaves it: the registers read 0, the engine is idle with every latch 0, and no memory element is
written (R230 to R232). -/
structure State.Cleared (s : State) : Prop where
  registers : ∀ n, s.readNumber n = 0
  engine : s.eng = Engine.reset
  memories : ∀ a, s.src.read a = none ∧ s.pal.read a = none ∧ s.pix.read a = none ∧ s.fb.read a = none ∧
    s.str.read a = none

theorem Status.reset_word : Status.reset.word = 0 := by decide

theorem MStatus.reset_word : MStatus.word { err := 0, lastOp := 0 } = 0 := by decide

theorem Ctrl.reset_word : Ctrl.word { cancel := false } = 0 := by decide

/-- The host's own fields do not count (log 10). -/
theorem resetWith_cleared (c : Config) (es : List Event) (v : BitVec 64) (k : Nat) :
    State.Cleared { State.resetWith c with agenda := es, readData := v, freeCount := k } where
  registers := fun n => by
    obtain ⟨r, rfl⟩ | hunused := number_cases n
    · rw [readNumber_number]
      cases r with
      | status => exact congrArg widen Status.reset_word
      | mstatus => exact congrArg widen MStatus.reset_word
      | ctrl => exact congrArg widen Ctrl.reset_word
      | _ => rfl
    · exact readNumber_unused _ hunused
  engine := rfl
  memories := fun _ => ⟨rfl, rfl, rfl, rfl, rfl⟩

/-- Settles O43. -/
theorem resetMeetsTheInvariant : Obligations.ResetMeetsTheInvariant := fun _ => inv_resetWith

/-- Settles O57: a reset, and the machine right after reset, differ in the host's own fields only. -/
theorem resetClearsRegistersAndAbandonsTheCommand : Obligations.ResetClearsRegistersAndAbandonsTheCommand := by
  refine ⟨fun s rest hagenda => ?_, fun c => ?_⟩
  · have hcleared := resetWith_cleared s.cfg rest s.readData s.freeCount
    exact ⟨_, step_pending hagenda, hcleared.registers, hcleared.engine, hcleared.memories⟩
  · have hcleared := resetWith_cleared c [] 0 0
    exact ⟨hcleared.registers, hcleared.engine, hcleared.memories⟩

end Sys2Proof.Machine
end

section
/-! SUPPORT. Termination (70_reset_and_hazards.md R252): an engine turn ends the running command or takes one of its
remaining steps, and keeps its inputs written. -/

namespace Sys2Proof.Machine

variable {s t : State}

/-- The command is over (R203, R206). -/
structure State.Ended (s : State) : Prop where
  phase : s.eng.phase = .idle
  busy : s.status.busy = false
  done : s.status.done = true

/-! ### The steps left -/

theorem stepsLeft_of_idle (h : s.eng.phase = .idle) : stepsLeft s = 0 := by simp [stepsLeft, h]

theorem stepsLeft_of_encoding (h : s.eng.phase = .encoding) : stepsLeft s = s.eng.G + 1 - s.eng.i := by
  simp [stepsLeft, h]

theorem stepsLeft_of_assembling (h : s.eng.phase = .assembling) : stepsLeft s = s.eng.h.toNat + 1 - s.eng.r := by
  simp [stepsLeft, h]

/-- A running command has its last step still to take, the one that ends it. -/
theorem Inv.stepsLeft_pos (hinv : Inv s) (hrun : s.eng.phase ≠ .idle) : 0 < stepsLeft s := by
  cases hphase : s.eng.phase with
  | idle => exact absurd hphase hrun
  | encoding =>
    have hbound := (hinv.encoding hphase).bound
    rw [stepsLeft_of_encoding hphase]
    omega
  | assembling =>
    have hbound := (hinv.assembling hphase).bound
    rw [stepsLeft_of_assembling hphase]
    omega

/-! ### One engine turn -/

/-- A turn of the running engine ends the command, or leaves it running with one step less (R102, R142). -/
theorem EngineMove.ended_or_stepsLeft (hmove : EngineMove s t) (hinv : Inv s) (hrun : s.eng.phase ≠ .idle) :
    t.Ended ∨ t.eng.phase = s.eng.phase ∧ stepsLeft s = stepsLeft t + 1 := by
  cases hmove with
  | idle hphase => exact absurd hphase hrun
  | complete k ofEncode => exact .inl ⟨rfl, rfl, rfl⟩
  | paletteTooSmall idx => exact .inl ⟨rfl, rfl, rfl⟩
  | group px hphase hi hpx =>
    have hbound := (hinv.encoding hphase).bound
    have hleft : stepsLeft (s.storeGroup px) = s.eng.G + 1 - (s.eng.i + 1) := stepsLeft_of_encoding hphase
    refine .inr ⟨rfl, ?_⟩
    rw [stepsLeft_of_encoding hphase, hleft]
    omega
  | row bs hphase hr hbs =>
    have hbound := (hinv.assembling hphase).bound
    have hleft : stepsLeft (s.storeRow bs) = s.eng.h.toNat + 1 - (s.eng.r + 1) := stepsLeft_of_assembling hphase
    refine .inr ⟨rfl, ?_⟩
    rw [stepsLeft_of_assembling hphase, hleft]
    omega

theorem EngineMove.agenda (hmove : EngineMove s t) : t.agenda = s.agenda := by cases hmove <;> rfl

theorem inputsWritten_of_idle (h : s.eng.phase = .idle) : InputsWritten s where
  src := by simp [h]
  pal := by simp [h]
  pix := by simp [h]

/-- An engine turn writes no input of its own command: ENCODE stores to PIX, ASSEMBLE to FB (R50). -/
theorem InputsWritten.of_engineMove (hwritten : InputsWritten s) (hmove : EngineMove s t) : InputsWritten t := by
  cases hmove with
  | idle => exact hwritten
  | complete k ofEncode => exact inputsWritten_of_idle rfl
  | paletteTooSmall idx => exact inputsWritten_of_idle rfl
  | group px hphase => exact { hwritten with pix := fun hp => nomatch hphase.symm.trans hp }
  | row bs hphase => exact { hwritten with }

/-! ### The run of a command -/

/-- With the host idle and the inputs written, the steps left are enough to end a running command (R252). -/
theorem run_stepsLeft_ended (hinv : Inv s) (hwritten : InputsWritten s) (hagenda : s.agenda = [])
    (hrun : s.eng.phase ≠ .idle) : ∃ t, run (stepsLeft s) s = .next t ∧ t.Ended := by
  induction hn : stepsLeft s generalizing s with
  | zero => exact absurd hn (hinv.stepsLeft_pos hrun).ne'
  | succ n ih =>
    obtain ⟨u, hturn⟩ := engineRunsOnWrittenInputs s hinv hwritten
    have hmove := engineTurn_move hturn
    have hidle : u.agenda = [] := hmove.agenda.trans hagenda
    have hsplit : run (n + 1) s = run n u := by rw [run, step_idleHost hagenda, hturn, andThen]
    rw [hsplit]
    obtain hended | ⟨hphase, hsteps⟩ := hmove.ended_or_stepsLeft hinv hrun
    · exact ⟨u, run_idle hended.phase hidle n, hended⟩
    · exact ih (hinv.of_engineMove hmove) (hwritten.of_engineMove hmove) hidle (hphase ▸ hrun)
        (Nat.succ.inj (hsteps.symm.trans hn))

/-- Settles O45: an idle engine has no step left, and a running one ends within its own. -/
theorem runningCommandTerminates : Obligations.RunningCommandTerminates := by
  intro s hinv hwritten hagenda
  by_cases hphase : s.eng.phase = .idle
  · have hbusy : ¬s.status.busy = true := fun hbusy => hinv.phaseBusy.2 hbusy hphase
    rw [stepsLeft_of_idle hphase]
    exact ⟨s, rfl, Bool.eq_false_iff.2 hbusy, fun h => absurd h hbusy⟩
  · obtain ⟨t, hrun, hended⟩ := run_stepsLeft_ended hinv hwritten hagenda hphase
    exact ⟨t, hrun, hended.busy, fun _ => hended.done⟩

end Sys2Proof.Machine
end
